-- ==== Sys2Proof/Word.lean ====
section
/-! DEFINITION. The machine's words: a byte of RAM, a 32-bit bus word, a binary32 pattern and a byte offset of the
aperture (spec/00_scope.md R12, R17). -/

namespace Sys2Proof

/-- One byte of a RAM word (R100). -/
abbrev Byte := BitVec 8

/-- One 32-bit word: a register, a RAM word or a command word (R17). -/
abbrev Word := BitVec 32

/-- An `f32` of the spec: an IEEE 754 binary32 value, held as its 32-bit pattern (R12, R250). -/
abbrev F32 := BitVec 32

/-- A byte offset from the block's base: the block decodes 19 bits (R17, R104). -/
abbrev Offset := BitVec 19

end Sys2Proof
end

