-- ==== Sys2Proof/Config.lean ====
section
/-! DEFINITION. What an implementation fixes: the size parameters of spec/00_scope.md R8 at the values the spec gives
them, and the FREE VALUES the spec leaves open, as opaque constants of which nothing can be proved. -/

namespace Sys2Proof.Config

/-- `IQ_DEPTH` (R8): samples of `DM_IQ`, largest count of a `DM_RUN`, words of `DM_AUD`. -/
def iqDepth : Nat := 16384

/-- `NMAX` (R8): the largest FFT size. -/
def nMax : Nat := 8192

/-- `NMIN` (R8): the smallest FFT size. -/
def nMin : Nat := 64

/-- `FIR_TMAX` (R8): the largest tap count of either decimating FIR. -/
def firTMax : Nat := 4096

/-- `PEAK_CAP` (R8): the capacity of the peak list. -/
def peakCap : Nat := 8

/-- FREE VALUE (R108, R703, U1, U2; log 6, log 7). The byte an unwritten RAM byte reads as: the first argument counts the
aborts that have made its window unspecified, the second is its byte offset. -/
opaque ramDraw : Nat → Nat → Byte

/-- FREE VALUE (R261, U4; log 9). What `SIN32` picks for a positive finite argument, before R262 is imposed. -/
opaque sinDraw : F32 → F32

/-- FREE VALUE (R261, U4; log 9). What `COS32` picks for a positive finite argument, before R262 is imposed. -/
opaque cosDraw : F32 → F32

/-- FREE VALUE (R261, U4; log 9, log 10). What `ATAN2_32` picks for `(y, x)`, before R263 and what R510 says of
an infinite operand are imposed. -/
opaque atan2Draw : F32 → F32 → F32

/-- FREE VALUE (R261, U4; log 9). The split points and leaves of `EXP32`, by tree node, before R264 is imposed. -/
opaque expDraw : Nat → F32

/-- FREE VALUE (R261, U4; log 9). The split points and leaves of `LOG10_32`, by tree node, before R265 is imposed. -/
opaque logDraw : Nat → F32

/-- FREE VALUE (log 10). What `LOG10_32` would answer outside its domain `x > 0`, where the block never calls it (R265, U6). -/
opaque logOutside : F32 → F32

/-- FREE VALUE (R261, U4; log 9). The split points and leaves of `POW10_32`, by tree node, before R266 is imposed. -/
opaque powDraw : Nat → F32

end Sys2Proof.Config
end

