-- ==== Sys2Proof/Machine/State.lean ====
section
/-! DEFINITION. The block's state as plain data (spec/10_state.md, spec/20_memory.md R104), its reset value, and the
reasons a step can stop. -/

namespace Sys2Proof.Machine

/-- A complex sample, the `c32` of R12. -/
structure C32 where
  i : F32
  q : F32
deriving DecidableEq, Repr

/-- The state of one decimating FIR (R301): the delay line, the write position and the decimation counter. An entry of the
line that is not listed has not been written since `FIR_CLEAR` and is zero (log 15). -/
structure Fir (α : Type) where
  line : List α
  pos : Nat
  cnt : Nat
deriving DecidableEq, Repr

/-- The state of one DC blocker (R330): the previous input and the previous output. -/
structure DcBlock (α : Type) where
  xp : α
  yp : α
deriving DecidableEq, Repr

/-- The private copy a `DM_RUN` latches at acceptance (R204, R491). -/
structure DmRun where
  n : Nat
  mod : Word
  fs : F32
  tau : F32
  dirtyMod : Bool
  dirtyFs : Bool
  dirtyTau : Bool
  resetPend : Bool
  tune : F32
  vol : F32
  amAlpha : F32
deriving DecidableEq, Repr

/-- The private copy an `SP_PREP` latches at acceptance (R204, R381). -/
structure SpPrep where
  n : Word
  win : Word
  dirtyN : Bool
  dirtyWin : Bool
  resetPend : Bool
  dcbEn : Bool
  dcbAlpha : F32
deriving DecidableEq, Repr

/-- The private copy an `SP_POST` latches at acceptance (R204, R390). -/
structure SpPost where
  avg : Word
  phEn : Bool
  phRate : F32
  phDt : F32
deriving DecidableEq, Repr

/-- The command SPEC is executing, with what it latched (R203, R204). -/
inductive SpCmd where
  | prep (l : SpPrep)
  | post (l : SpPost)
  | stats
deriving DecidableEq, Repr

/-- One entry of the peak list (R58, R446). -/
structure Peak where
  bin : Nat
  pwr : F32
deriving DecidableEq, Repr

/-- The DEMOD engine: configuration shadows (R40 to R46), active and derived registers (R47) and hidden state (R59). -/
structure Demod where
  mod : Word
  fs : F32
  tau : F32
  tune : F32
  vol : F32
  amAlpha : F32
  dirtyMod : Bool
  dirtyFs : Bool
  dirtyTau : Bool
  resetPend : Bool
  /-- `dm.cmd` with its latched copy; DEMOD is busy while it is present (R203, log 11). -/
  pending : Option DmRun
  valid : Bool
  actMod : Word
  actFs : F32
  actTau : F32
  /-- `DM_R1`, also `fir1.R` (log 22). -/
  r1 : Word
  /-- `DM_R2`, also `fir2.R`. -/
  r2 : Word
  /-- `DM_T1`, also `fir1.T`. -/
  t1 : Word
  /-- `DM_T2`, also `fir2.T`. -/
  t2 : Word
  fint : F32
  faud : F32
  c1 : F32
  c2 : F32
  deemphA : F32
  tuneAct : F32
  volAct : F32
  alphaAct : F32
  ncoInc : F32
  ncoPhase : F32
  fir1 : Fir C32
  fir2 : Fir F32
  discPrev : C32
  amDcb : DcBlock F32
  deYp : F32
  audCount : Word
  audPeak : F32
deriving DecidableEq, Repr

/-- The SPEC engine: configuration shadows (R48 to R55), active, derived and result registers (R56 to R58) and hidden state
(R60). -/
structure Spec where
  n : Word
  win : Word
  avg : Word
  ctrl : Word
  phRate : F32
  phDt : F32
  dcbAlpha : F32
  dirtyN : Bool
  dirtyWin : Bool
  resetPend : Bool
  /-- `sp.cmd` with its latched copy; SPEC is busy while it is present (R203, log 11). -/
  pending : Option SpCmd
  valid : Bool
  corr : F32
  actN : Word
  actWin : Word
  minSep : Word
  dcbEn : Bool
  alphaAct : F32
  dcb : DcBlock C32
  emaInit : Bool
  holdInit : Bool
  frameSeq : Word
  stNoise : F32
  /-- The peak list, strongest first; `ST_NPEAKS` is its length (R58, log 16). -/
  stPeaks : List Peak
  stSfdr : F32
  stSnr : F32
deriving DecidableEq, Repr

/-- The RAM windows of R104. `cells` lists the bytes something has written, by byte offset, strictly rising; a byte that is
not listed is unspecified and reads as a free value (R108, log 6). The counters say how often a reset has aborted a
command of each kind (R703, log 7): the model's own. -/
structure Memory where
  cells : List Host.Cell
  dmRunAborts : Nat
  spPrepAborts : Nat
  spPostAborts : Nat
deriving DecidableEq, Repr

/-- One step of one agent (R200). -/
inductive Event where
  /-- HOST: `MemRead(off, 4)`. -/
  | read (off : Offset)
  /-- HOST: `MemWrite(off, 4, v)`. -/
  | write (off : Offset) (v : Word)
  /-- The completion step of DEMOD. -/
  | demod
  /-- The completion step of SPEC. -/
  | spec
  /-- Assertion of the reset input. -/
  | reset
deriving DecidableEq, Repr

/-- The block, with the steps still to be taken by its agents (`schedule`, log 1) and the word the last HOST read returned
(`rdata`, log 5): these two are the model's own fields. The other fields are the spec's. -/
structure State where
  schedule : List Event
  rdata : Word
  mem : Memory
  dm : Demod
  sp : Spec
  /-- `STATUS.DM_DONE`, `SP_DONE`, `FRAME_NEW` and `ERR` (R35). -/
  dmDone : Bool
  spDone : Bool
  frameNew : Bool
  err : Bool
  /-- `ERR_CODE` (R37) and `ERR_INFO` (R38). -/
  errCode : BitVec 8
  errInfo : Word
  /-- `IRQ_EN` (R36). -/
  irqEn : Word
deriving DecidableEq, Repr

/-- Why a step faults: never. No rule of the spec stops the block ("There are no fatal conditions inside the core itself",
the opening of spec/60_exceptions.md): an error is a recorded status (R600, R604), so this type has no constructor. -/
inductive Fault where
deriving DecidableEq, Repr

/-- Why an instruction has no meaning. -/
inductive Refusal where
  /-- An arm of `exec` that has no meaning yet would raise it, with the instruction's mnemonic (safe: the run ends). No arm
  does: every command has its meaning. -/
  | notModelled (mnemonic : String)
deriving DecidableEq, Repr

/-- The zero of element type `c32` (R301). -/
def C32.zero : C32 := { i := 0, q := 0 }

/-- A cleared FIR (R59, R305). -/
def Fir.cleared {α : Type} : Fir α := { line := [], pos := 0, cnt := 0 }

/-- The DEMOD engine after reset (R40 to R47, R59). -/
def Demod.reset : Demod where
  mod := 0
  fs := 0x49F42400
  tau := 0x389D4952
  tune := 0
  vol := 0x3F800000
  amAlpha := 0x3F7EB852
  dirtyMod := true
  dirtyFs := true
  dirtyTau := true
  resetPend := false
  pending := none
  valid := false
  actMod := 0
  actFs := 0
  actTau := 0
  r1 := 0
  r2 := 0
  t1 := 0
  t2 := 0
  fint := 0
  faud := 0
  c1 := 0
  c2 := 0
  deemphA := 0
  tuneAct := 0
  volAct := 0
  alphaAct := 0
  ncoInc := 0
  ncoPhase := 0
  fir1 := Fir.cleared
  fir2 := Fir.cleared
  discPrev := C32.zero
  amDcb := { xp := 0, yp := 0 }
  deYp := 0
  audCount := 0
  audPeak := 0

/-- The SPEC engine after reset (R48 to R58, R60). -/
def Spec.reset : Spec where
  n := 1024
  win := 1
  avg := 1
  ctrl := 0
  phRate := 0
  phDt := 0
  dcbAlpha := 0x3F7EB852
  dirtyN := true
  dirtyWin := true
  resetPend := false
  pending := none
  valid := false
  corr := 0
  actN := 0
  actWin := 0
  minSep := 0
  dcbEn := false
  alphaAct := 0
  dcb := { xp := C32.zero, yp := C32.zero }
  emaInit := false
  holdInit := false
  frameSeq := 0
  stNoise := 0
  stPeaks := []
  stSfdr := 0
  stSnr := 0

/-- RAM at power-on: nothing has been written (R108, R700(e)). -/
def Memory.powerOn : Memory :=
  { cells := [], dmRunAborts := 0, spPrepAborts := 0, spPostAborts := 0 }

/-- The block right after power-on reset (R700), with no step scheduled (log 4, log 8). -/
def State.reset : State where
  schedule := []
  rdata := 0
  mem := Memory.powerOn
  dm := Demod.reset
  sp := Spec.reset
  dmDone := false
  spDone := false
  frameNew := false
  err := false
  errCode := 0
  errInfo := 0
  irqEn := 0

end Sys2Proof.Machine
end

