-- ==== Sys2Proof/Machine/Ops.lean ====
section
/-! DEFINITION. The shared operations: updates of a state, RAM bytes, words and blocks (spec/20_memory.md), recording and
clearing an error (spec/60_exceptions.md R602, R603), and reset with its aborts (spec/70_reset_and_hazards.md R700,
R703). -/

namespace Sys2Proof.Machine

/-! ## Updates -/

def State.setSchedule (s : State) (l : List Event) : State := { s with schedule := l }

def State.setRdata (s : State) (v : Word) : State := { s with rdata := v }

def State.setMem (s : State) (m : Memory) : State := { s with mem := m }

def State.setDm (s : State) (d : Demod) : State := { s with dm := d }

def State.setSp (s : State) (e : Spec) : State := { s with sp := e }

def State.setErr (s : State) (e : Bool) (code : BitVec 8) (info : Word) : State :=
  { s with err := e, errCode := code, errInfo := info }

def State.setDone (s : State) (dmDone spDone frameNew : Bool) : State :=
  { s with dmDone := dmDone, spDone := spDone, frameNew := frameNew }

def State.setIrqEn (s : State) (v : Word) : State := { s with irqEn := v }

/-! ## Busy bits (R35, R203) -/

def State.dmBusy (s : State) : Bool := s.dm.pending.isSome

def State.spBusy (s : State) : Bool := s.sp.pending.isSome

/-! ## Errors (R600 to R603) -/

/-- The error codes of R601. -/
inductive ErrCode where
  | illegalCmd
  | engineBusy
  | badAddr
  | badAccess
  | badValue
  | buildFail
  | countRange
  | notConfigured
  | readOnly
deriving DecidableEq, Repr

/-- The number `ERR_CODE` shows (R601). -/
def errNumber : ErrCode → BitVec 8
  | .illegalCmd => 0x01
  | .engineBusy => 0x02
  | .badAddr => 0x03
  | .badAccess => 0x04
  | .badValue => 0x05
  | .buildFail => 0x06
  | .countRange => 0x07
  | .notConfigured => 0x08
  | .readOnly => 0x09

/-- `raise Error(code, info)` (R602): the block's only form of taking an exception. The first error since the last clear
is kept; control never moves. -/
def raise (code : ErrCode) (info : Word) (s : State) : State :=
  if s.err then s else s.setErr true (errNumber code) info

/-- Clearing the error record (R603): the counterpart of `raise`. -/
def clearError (s : State) : State := s.setErr false 0 0

/-! ## RAM windows (R104) -/

/-- A RAM window. -/
inductive Ram where
  | dmIq
  | dmAud
  | dmH1
  | dmH2
  | spIq
  | spWlut
  | spWout
  | spMag
  | spRaw
  | spDisp
  | spHold
deriving DecidableEq, Repr

/-- The byte offset of a window's word 0 (R104). -/
def Ram.base : Ram → Nat
  | .dmIq => 0x10000
  | .dmAud => 0x20000
  | .dmH1 => 0x30000
  | .dmH2 => 0x34000
  | .spIq => 0x40000
  | .spWlut => 0x44000
  | .spWout => 0x50000
  | .spMag => 0x60000
  | .spRaw => 0x68000
  | .spDisp => 0x70000
  | .spHold => 0x78000

/-- The number of words of a window (R104, R8). -/
def Ram.words : Ram → Nat
  | .dmIq => Config.iqDepth / 2
  | .dmAud => Config.iqDepth
  | .dmH1 => Config.firTMax
  | .dmH2 => Config.firTMax
  | .spIq => Config.nMax / 2
  | .spWlut => Config.nMax
  | .spWout => 2 * Config.nMax
  | .spMag => Config.nMax
  | .spRaw => Config.nMax
  | .spDisp => Config.nMax
  | .spHold => Config.nMax

/-- A byte offset lies in a window. -/
def Ram.holds (w : Ram) (a : Nat) : Bool := decide (w.base ≤ a ∧ a < w.base + 4 * w.words)

/-- Every window, in the order of the address map. -/
def Ram.all : List Ram :=
  [.dmIq, .dmAud, .dmH1, .dmH2, .spIq, .spWlut, .spWout, .spMag, .spRaw, .spDisp, .spHold]

/-- The windows a `DM_RUN` could have written, and so those its abort makes unspecified (R703). -/
def dmRunOutputs : List Ram := [.dmAud, .dmH1, .dmH2]

/-- The same of `SP_PREP`. -/
def spPrepOutputs : List Ram := [.spWlut, .spWout]

/-- The same of `SP_POST`. -/
def spPostOutputs : List Ram := [.spRaw, .spDisp, .spHold]

/-! ## Bytes, words and blocks (R100, R102, R108) -/

/-- How often the window of a byte has been made unspecified by an abort (R703, log 7). -/
def Memory.aborts (m : Memory) (a : Nat) : Nat :=
  if dmRunOutputs.any (·.holds a) then m.dmRunAborts
  else if spPrepOutputs.any (·.holds a) then m.spPrepAborts
  else if spPostOutputs.any (·.holds a) then m.spPostAborts
  else 0

/-- One byte of RAM: the listed byte, or the free value of an unspecified one (R108). -/
def Memory.readByte (m : Memory) (a : Nat) : Byte :=
  (m.cells.lookup a).getD (Config.ramDraw (m.aborts a) a)

/-- The word at a byte offset, little-endian (R100). -/
def Memory.readWord (m : Memory) (a : Nat) : Word :=
  m.readByte (a + 3) ++ m.readByte (a + 2) ++ m.readByte (a + 1) ++ m.readByte a

/-- `RAM[i]` (R14). -/
def Memory.get (m : Memory) (w : Ram) (i : Nat) : Word := m.readWord (w.base + 4 * i)

/-- `RAM[0..n-1]`. -/
def Memory.block (m : Memory) (w : Ram) (n : Nat) : List Word := (List.range n).map (m.get w)

/-- The bytes of a word, lowest offset first (R100). -/
def wordBytes (v : Word) : List Byte :=
  [v.extractLsb' 0 8, v.extractLsb' 8 8, v.extractLsb' 16 8, v.extractLsb' 24 8]

/-- Bytes laid out from a byte offset up. -/
def cellsFrom : Nat → List Byte → List Host.Cell
  | _, [] => []
  | a, b :: bs => (a, b) :: cellsFrom (a + 1) bs

/-- Bytes written at `a, a + 1, ...`; every other byte as before. -/
def Memory.writeBytes (m : Memory) (a : Nat) (bs : List Byte) : Memory :=
  { m with cells := m.cells.filter (fun c => decide (c.1 < a)) ++ cellsFrom a bs ++
      m.cells.filter (fun c => decide (a + bs.length ≤ c.1)) }

/-- A word written at a byte offset. -/
def Memory.writeWord (m : Memory) (a : Nat) (v : Word) : Memory := m.writeBytes a (wordBytes v)

/-- `RAM[0..] <- vs`; the window's later words as before. -/
def Memory.setBlock (m : Memory) (w : Ram) (vs : List Word) : Memory :=
  m.writeBytes w.base (vs.flatMap wordBytes)

/-- The canonical form: offsets strictly rising. A byte that is not listed is unspecified, which no listed byte equals, so
a write never removes an entry (log 6). -/
def Memory.wf (m : Memory) : Bool := decide (m.cells.Pairwise (fun c d => c.1 < d.1))

/-- The bytes of the windows become unspecified (R703). -/
def forget (ws : List Ram) (cells : List Host.Cell) : List Host.Cell :=
  cells.filter (fun c => !ws.any (·.holds c.1))

/-! ## Reset (R700, R703) -/

/-- `abort(DEMOD)` (R703): the words the command could have written become unspecified. -/
def abortDm (m : Memory) : Memory :=
  { m with cells := forget dmRunOutputs m.cells, dmRunAborts := m.dmRunAborts + 1 }

/-- `abort(SPEC)` (R703). An `SP_STATS` writes no RAM. -/
def abortSp (c : SpCmd) (m : Memory) : Memory :=
  match c with
  | .prep _ => { m with cells := forget spPrepOutputs m.cells, spPrepAborts := m.spPrepAborts + 1 }
  | .post _ => { m with cells := forget spPostOutputs m.cells, spPostAborts := m.spPostAborts + 1 }
  | .stats => m

/-- RAM after a reset: unchanged, but for the commands it aborts (R700(e), R703). -/
def memAfterReset (s : State) : Memory :=
  let m := if s.dm.pending.isSome then abortDm s.mem else s.mem
  match s.sp.pending with
  | some c => abortSp c m
  | none => m

/-- Reset (R700, R704): every register and every piece of hidden state takes its reset value. The steps still scheduled
and the word the HOST has last read are the HOST's, not the block's, and stay (log 5). -/
def resetBlock (s : State) : State :=
  { State.reset with schedule := s.schedule, rdata := s.rdata, mem := memAfterReset s }

end Sys2Proof.Machine
end

