-- ==== Sys2Proof/Machine/Flags.lean ====
section
/-! DEFINITION. The status, pending and flag words, the interrupt level and the write-one-to-clear rule (spec/10_state.md
R35, R36, R46, R55, R57; spec/60_exceptions.md R603, R610). -/

namespace Sys2Proof.Machine

/-- A word whose bit `i` is `b` and whose other bits are 0. -/
def bitAt (i : Nat) (b : Bool) : Word := if b then 1#32 <<< i else 0

/-- `STATUS` (R35); reserved bits read 0. -/
def statusWord (s : State) : Word :=
  bitAt 0 s.dmBusy ||| bitAt 1 s.spBusy ||| bitAt 2 s.dm.valid ||| bitAt 3 s.sp.valid |||
    bitAt 4 s.dmDone ||| bitAt 5 s.spDone ||| bitAt 6 s.frameNew ||| bitAt 8 s.err

/-- A write of `STATUS` (R35, R603): bits 4, 5, 6 clear the done bits written as 1, bit 8 clears the error record; the
other bits are ignored. -/
def writeStatus (v : Word) (s : State) : State :=
  let t := s.setDone (s.dmDone && !v.getLsbD 4) (s.spDone && !v.getLsbD 5) (s.frameNew && !v.getLsbD 6)
  if v.getLsbD 8 then clearError t else t

/-- The bits of `IRQ_EN` that exist: 4, 5, 6 and 8 (R36). -/
def irqMask : Word := 0x00000170

/-- The interrupt output (R610): some source is pending and enabled. -/
def irq (s : State) : Bool :=
  (s.dmDone && s.irqEn.getLsbD 4) || (s.spDone && s.irqEn.getLsbD 5) ||
    (s.frameNew && s.irqEn.getLsbD 6) || (s.err && s.irqEn.getLsbD 8)

/-- `DM_PEND` (R46). -/
def dmPendWord (d : Demod) : Word :=
  bitAt 0 d.dirtyMod ||| bitAt 1 d.dirtyFs ||| bitAt 2 d.dirtyTau ||| bitAt 3 d.resetPend

/-- `SP_PEND` (R55). -/
def spPendWord (e : Spec) : Word :=
  bitAt 0 e.dirtyN ||| bitAt 1 e.dirtyWin ||| bitAt 2 e.resetPend

/-- `SP_FLAGS` (R57). -/
def spFlagsWord (e : Spec) : Word := bitAt 0 e.emaInit ||| bitAt 1 e.holdInit

/-- The bits of `SP_CTRL` that exist: `DCB_EN` and `PH_EN` (R51). -/
def ctrlMask : Word := 0x00000003

/-- `SP_CTRL.DCB_EN` (R51). -/
def dcbEnBit (ctrl : Word) : Bool := ctrl.getLsbD 0

/-- `SP_CTRL.PH_EN` (R51). -/
def phEnBit (ctrl : Word) : Bool := ctrl.getLsbD 1

end Sys2Proof.Machine
end

