-- ==== Sys2Proof/Machine/Float.lean ====
section
/-! DEFINITION. The binary32 arithmetic of spec/41_numerics.md: every operation computes the exact result as an integer
or a quotient of integers in UNITS of 2^-149, the least subnormal, and rounds it once, to nearest with ties to even. -/

namespace Sys2Proof.Machine

/-! ## Named constants (R268, R253) -/

def posZero : F32 := 0x00000000
def negZero : F32 := 0x80000000
def posInf : F32 := 0x7F800000
/-- The canonical quiet NaN (R253). -/
def qNaN : F32 := 0x7FC00000
def piF32 : F32 := 0x40490FDB
def twoPiF32 : F32 := 0x40C90FDB
def half : F32 := 0x3F000000
def one : F32 := 0x3F800000
def hamA : F32 := 0x3F0A3D71
def hamB : F32 := 0x3EEB851F
def dbFloor : F32 := 0xC2F00000
def pkMargin : F32 := 0x40C00000
def ten : F32 := 0x41200000
def inv128 : F32 := 0x3C000000

/-! ## Reading a pattern (R250) -/

/-- Bits 30:0: they order the non-NaN values of one sign. -/
def magBits (a : F32) : Nat := a.toNat % 2 ^ 31

/-- Bit 31, the sign. -/
def signBit (a : F32) : Bool := a.msb

def isNaN (a : F32) : Bool := decide (0x7F800000 < magBits a)

def isInf (a : F32) : Bool := decide (magBits a = 0x7F800000)

def isFinite (a : F32) : Bool := decide (magBits a < 0x7F800000)

def isZero (a : F32) : Bool := decide (magBits a = 0)

/-- Magnitude bits in units of 2^-149, exactly: the fraction of a subnormal, and the significand shifted by the exponent
of a normal value. The bits of infinity read as 2^277, above every finite magnitude. -/
def unitsOfMag (m : Nat) : Nat :=
  if m / 2 ^ 23 = 0 then m % 2 ^ 23 else (m % 2 ^ 23 + 2 ^ 23) * 2 ^ (m / 2 ^ 23 - 1)

/-- The magnitude of a value in units. -/
def units (a : F32) : Nat := unitsOfMag (magBits a)

/-- The value of a non-NaN pattern in units of 2^-149. -/
def value (a : F32) : Int := if signBit a then -(units a : Int) else units a

/-! ## Rounding (R251, R252, R254) -/

/-- A pattern from its sign and magnitude bits. Magnitudes past the largest finite one are infinite (R254). -/
def pack (neg : Bool) (mag : Nat) : F32 :=
  BitVec.ofNat 32 ((if neg then 2 ^ 31 else 0) + min mag 0x7F800000)

/-- The integer nearest `num / den`, the even one of two equally near. -/
def nearestEven (num den : Nat) : Nat :=
  if 2 * (num % den) < den ∨ (2 * (num % den) = den ∧ num / den % 2 = 0) then num / den else num / den + 1

/-- How far the significand of `num / den` units is shifted: 0 below 2^24 units, where the spacing of binary32 values is
one unit. -/
def shiftOf (num den : Nat) : Nat := Nat.log2 (num / den) - 23

/-- The magnitude bits of `num / den` units rounded to nearest even, the exponent unbounded. The magnitude bits of a
significand `m` at shift `e` are `e * 2^23 + m`, also when rounding carries `m` to 2^24. -/
def roundMag (num den : Nat) : Nat :=
  shiftOf num den * 2 ^ 23 + nearestEven num (den * 2 ^ shiftOf num den)

/-- `num / den` units with a sign, rounded. -/
def roundUnits (neg : Bool) (num den : Nat) : F32 := pack neg (roundMag num den)

/-! ## The operations (R13, R251 to R255, R260) -/

/-- `-a`: flips bit 31 (R255). -/
def fneg (a : F32) : F32 := a ^^^ 0x80000000

/-- `abs(a)`: clears bit 31 (R255). -/
def fabs (a : F32) : F32 := a &&& 0x7FFFFFFF

/-- `a + b`. An exact zero sum is `+0` unless both operands are `-0` (R255). -/
def fadd (a b : F32) : F32 :=
  if isNaN a || isNaN b then qNaN
  else if isInf a then (if isInf b && signBit a != signBit b then qNaN else a)
  else if isInf b then b
  else if value a + value b = 0 then (if signBit a && signBit b then negZero else posZero)
  else roundUnits (decide (value a + value b < 0)) (value a + value b).natAbs 1

/-- `a - b`. -/
def fsub (a b : F32) : F32 := fadd a (fneg b)

/-- `a * b`: the product of two counts of 2^-149 counts 2^-298, so it is divided by 2^149. -/
def fmul (a b : F32) : F32 :=
  if isNaN a || isNaN b then qNaN
  else if isInf a || isInf b then
    (if isZero a || isZero b then qNaN else pack (signBit a != signBit b) 0x7F800000)
  else roundUnits (signBit a != signBit b) (units a * units b) (2 ^ 149)

/-- `a / b` (R253, R254). -/
def fdiv (a b : F32) : F32 :=
  if isNaN a || isNaN b then qNaN
  else if isInf a then (if isInf b then qNaN else pack (signBit a != signBit b) 0x7F800000)
  else if isInf b then pack (signBit a != signBit b) 0
  else if isZero b then (if isZero a then qNaN else pack (signBit a != signBit b) 0x7F800000)
  else roundUnits (signBit a != signBit b) (units a * 2 ^ 149) (units b)

/-- The integer square root, one bit of the root at a time from bit `bits - 1` down. -/
def isqrtBits : Nat → Nat → Nat → Nat
  | 0, _, r => r
  | bits + 1, x, r =>
    isqrtBits bits x (if (r + 2 ^ bits) * (r + 2 ^ bits) ≤ x then r + 2 ^ bits else r)

/-- The largest `r` with `r * r ≤ x`. -/
def isqrt (x : Nat) : Nat := isqrtBits (Nat.log2 x / 2 + 1) x 0

/-- `sqrt(a)`, correctly rounded (R260). The root in units is `√(units a * 2^149)`, at least 2^74, so its integer part and
one sticky half decide the rounding to 24 bits. -/
def fsqrt (a : F32) : F32 :=
  if isNaN a then qNaN
  else if isZero a then a
  else if signBit a then qNaN
  else if isInf a then a
  else
    roundUnits false
      (2 * isqrt (units a * 2 ^ 149) +
        (if isqrt (units a * 2 ^ 149) * isqrt (units a * 2 ^ 149) = units a * 2 ^ 149 then 0 else 1)) 2

/-! ## Comparisons (R13): false whenever an operand is NaN, `+0 == -0` -/

def flt (a b : F32) : Bool := !isNaN a && !isNaN b && decide (value a < value b)

def fle (a b : F32) : Bool := !isNaN a && !isNaN b && decide (value a ≤ value b)

def feq (a b : F32) : Bool := !isNaN a && !isNaN b && decide (value a = value b)

/-! ## Selection (R256) -/

def pickMax (a b : F32) : F32 := if flt b a then a else b

def pickMin (a b : F32) : F32 := if flt a b then a else b

def clamp (x lo hi : F32) : F32 := pickMin (pickMax x lo) hi

/-! ## Conversions (R12, R257) -/

/-- `f32(i)` of a non-negative integer: nearest, exact up to 2^24. -/
def f32OfNat (n : Nat) : F32 := roundUnits false (n * 2 ^ 149) 1

/-- `f32(i)` of an integer. -/
def f32OfInt (i : Int) : F32 := roundUnits (decide (i < 0)) (i.natAbs * 2 ^ 149) 1

/-- `floor(x)` of a non-negative finite value (R14, R257). -/
def floorNat (a : F32) : Nat := units a / 2 ^ 149

end Sys2Proof.Machine
end

