-- ==== Sys2Proof/Machine/Operands.lean ====
section
/-! DEFINITION. Operand forms: IQ8 samples in RAM (spec/20_memory.md R101, spec/42_filter_primitives.md R300) and the legal
values of the configuration registers (spec/10_state.md R40 to R54). -/

namespace Sys2Proof.Machine

/-- One IQ8 component as `f32`: `NORM` of R300 for one of the two components. -/
def normComponent (b : Byte) : F32 := fmul (f32OfInt b.toInt) inv128

/-- `NORM(i, q)` (R300). -/
def norm (i q : Byte) : C32 := { i := normComponent i, q := normComponent q }

/-- The halfword of sample `j` in its word: half `j mod 2` (R101). -/
def iqHalf (j : Nat) (w : Word) : BitVec 16 := w.extractLsb' (16 * (j % 2)) 16

/-- Sample `j` of an IQ window, normalised (R101, R300): `I` in the low byte of its half, `Q` in the high byte. -/
def iqSample (m : Memory) (w : Ram) (j : Nat) : C32 :=
  norm ((iqHalf j (m.get w (j / 2))).extractLsb' 0 8) ((iqHalf j (m.get w (j / 2))).extractLsb' 8 8)

/-- Samples `0..n-1` of an IQ window, oldest first (R101, R372, R501). -/
def iqSamples (m : Memory) (w : Ram) (n : Nat) : List C32 := (List.range n).map (iqSample m w)

/-- Legal for `DM_FS` and `DM_TAU`: finite and above zero (R41, R42). -/
def finitePositive (v : F32) : Bool := isFinite v && flt posZero v

/-- Legal for `SP_PH_RATE` and `SP_PH_DT`: finite and not below zero, `-0` included (R52, R53). -/
def finiteNonNegative (v : F32) : Bool := isFinite v && fle posZero v

/-- Legal for `SP_N`: a power of two from 64 to 8192 (R48). -/
def legalFftSize (v : Word) : Bool :=
  [64#32, 128#32, 256#32, 512#32, 1024#32, 2048#32, 4096#32, 8192#32].contains v

end Sys2Proof.Machine
end

