-- ==== Sys2Proof/Machine/Bus.lean ====
section
/-! DEFINITION. The register map and access classes (spec/10_state.md R32 to R58) and the two bus transactions
(spec/20_memory.md R103 to R107). A write to `CMD` is Machine/Submit.lean's. -/

namespace Sys2Proof.Machine

/-- The registers of R33 to R58. -/
inductive Reg where
  | id | version | cmd | status | irqEn | errCode | errInfo
  | paramIqDepth | paramNmax | paramFirTmax | paramPeakCap
  | dmMod | dmFs | dmTau | dmTune | dmVol | dmAmAlpha | dmPend
  | dmActMod | dmActFs | dmActTau | dmR1 | dmR2 | dmT1 | dmT2 | dmFint | dmFaud | dmC1 | dmC2 | dmDeemphA
  | dmTuneAct | dmNcoInc | dmNcoPhase | dmAudCount | dmAudPeak
  | spN | spWin | spAvg | spCtrl | spPhRate | spPhDt | spDcbAlpha | spPend
  | spCorr | spActN | spActWin | spMinsep | spFrameSeq | spFlags
  | stNoise | stNpeaks | stSfdr | stSnr
  | stPkBin (i : Nat)
  | stPkPwr (i : Nat)
deriving DecidableEq, Repr

/-- The two engines (R3). -/
inductive Engine where
  | demod
  | spec
deriving DecidableEq, Repr

/-- The access classes of R32; `-G(E)` names the gating engine. -/
inductive Access where
  | ro
  | wo
  | w1c
  | cfg
  | rw
  | roGated (e : Engine)
  | rwGated (e : Engine)
deriving DecidableEq, Repr

/-- What a mapped offset names. -/
inductive Target where
  | reg (r : Reg)
  /-- The RAM word of a window at a byte offset. -/
  | ram (w : Ram) (a : Nat)
deriving DecidableEq, Repr

/-- The byte offset of `CMD` (R34). -/
def cmdOffset : Offset := 0x008

/-- The global registers and their offsets (R33 to R38). -/
def globalRegs : List (Nat × Reg) :=
  [(0x000, .id), (0x004, .version), (0x008, .cmd), (0x00C, .status), (0x010, .irqEn), (0x014, .errCode),
   (0x018, .errInfo), (0x01C, .paramIqDepth), (0x020, .paramNmax), (0x024, .paramFirTmax), (0x028, .paramPeakCap)]

/-- The DEMOD registers (R40 to R47). -/
def demodRegs : List (Nat × Reg) :=
  [(0x100, .dmMod), (0x104, .dmFs), (0x108, .dmTau), (0x10C, .dmTune), (0x110, .dmVol), (0x114, .dmAmAlpha),
   (0x118, .dmPend), (0x120, .dmActMod), (0x124, .dmActFs), (0x128, .dmActTau), (0x12C, .dmR1), (0x130, .dmR2),
   (0x134, .dmT1), (0x138, .dmT2), (0x13C, .dmFint), (0x140, .dmFaud), (0x144, .dmC1), (0x148, .dmC2),
   (0x14C, .dmDeemphA), (0x150, .dmTuneAct), (0x154, .dmNcoInc), (0x158, .dmNcoPhase), (0x15C, .dmAudCount),
   (0x160, .dmAudPeak)]

/-- The SPEC registers (R48 to R58, but for the peak list). -/
def specRegs : List (Nat × Reg) :=
  [(0x200, .spN), (0x204, .spWin), (0x208, .spAvg), (0x20C, .spCtrl), (0x210, .spPhRate), (0x214, .spPhDt),
   (0x218, .spDcbAlpha), (0x21C, .spPend), (0x220, .spCorr), (0x224, .spActN), (0x228, .spActWin), (0x22C, .spMinsep),
   (0x230, .spFrameSeq), (0x234, .spFlags), (0x240, .stNoise), (0x244, .stNpeaks), (0x248, .stSfdr), (0x24C, .stSnr)]

/-- The peak list registers `ST_PK_BIN[i]`, `ST_PK_PWR[i]` (R58). -/
def peakRegs : List (Nat × Reg) :=
  (List.range Config.peakCap).flatMap fun i => [(0x280 + 8 * i, .stPkBin i), (0x284 + 8 * i, .stPkPwr i)]

/-- Every register and its offset. -/
def regMap : List (Nat × Reg) := globalRegs ++ demodRegs ++ specRegs ++ peakRegs

/-- What an aligned offset names, if it is mapped (R104, R105). -/
def locate (off : Nat) : Option Target :=
  if off < 0x1000 then (regMap.lookup off).map .reg
  else (Ram.all.find? (·.holds off)).map fun w => .ram w off

/-- The access class of a register (R33 to R58). -/
def regAccess : Reg → Access
  | .id | .version | .errCode | .errInfo => .ro
  | .paramIqDepth | .paramNmax | .paramFirTmax | .paramPeakCap => .ro
  | .cmd => .wo
  | .status => .w1c
  | .irqEn => .rw
  | .dmMod | .dmFs | .dmTau | .dmTune | .dmVol | .dmAmAlpha => .cfg
  | .dmPend => .ro
  | .dmActMod | .dmActFs | .dmActTau | .dmR1 | .dmR2 | .dmT1 | .dmT2 | .dmFint | .dmFaud | .dmC1 | .dmC2
  | .dmDeemphA | .dmTuneAct | .dmNcoInc | .dmNcoPhase | .dmAudCount | .dmAudPeak => .roGated .demod
  | .spN | .spWin | .spAvg | .spCtrl | .spPhRate | .spPhDt | .spDcbAlpha => .cfg
  | .spPend => .ro
  | .spCorr => .rwGated .spec
  | .spActN | .spActWin | .spMinsep | .spFrameSeq | .spFlags => .roGated .spec
  | .stNoise | .stNpeaks | .stSfdr | .stSnr | .stPkBin _ | .stPkPwr _ => .roGated .spec

/-- The access class of a RAM window (R104). -/
def ramAccess : Ram → Access
  | .dmIq | .dmH1 | .dmH2 => .rwGated .demod
  | .dmAud => .roGated .demod
  | .spIq | .spWlut | .spMag => .rwGated .spec
  | .spWout | .spRaw | .spDisp | .spHold => .roGated .spec

/-- The access class of a mapped offset. -/
def accessOf : Target → Access
  | .reg r => regAccess r
  | .ram w _ => ramAccess w

/-- The engine is busy. -/
def State.busy (s : State) : Engine → Bool
  | .demod => s.dmBusy
  | .spec => s.spBusy

/-- The value of a register (R33 to R58). A read of `CMD` returns 0 (R34). -/
def readReg (s : State) : Reg → Word
  | .id => 0x52464E43
  | .version => 0x00070000
  | .cmd => 0
  | .status => statusWord s
  | .irqEn => s.irqEn
  | .errCode => s.errCode.setWidth 32
  | .errInfo => s.errInfo
  | .paramIqDepth => BitVec.ofNat 32 Config.iqDepth
  | .paramNmax => BitVec.ofNat 32 Config.nMax
  | .paramFirTmax => BitVec.ofNat 32 Config.firTMax
  | .paramPeakCap => BitVec.ofNat 32 Config.peakCap
  | .dmMod => s.dm.mod
  | .dmFs => s.dm.fs
  | .dmTau => s.dm.tau
  | .dmTune => s.dm.tune
  | .dmVol => s.dm.vol
  | .dmAmAlpha => s.dm.amAlpha
  | .dmPend => dmPendWord s.dm
  | .dmActMod => s.dm.actMod
  | .dmActFs => s.dm.actFs
  | .dmActTau => s.dm.actTau
  | .dmR1 => s.dm.r1
  | .dmR2 => s.dm.r2
  | .dmT1 => s.dm.t1
  | .dmT2 => s.dm.t2
  | .dmFint => s.dm.fint
  | .dmFaud => s.dm.faud
  | .dmC1 => s.dm.c1
  | .dmC2 => s.dm.c2
  | .dmDeemphA => s.dm.deemphA
  | .dmTuneAct => s.dm.tuneAct
  | .dmNcoInc => s.dm.ncoInc
  | .dmNcoPhase => s.dm.ncoPhase
  | .dmAudCount => s.dm.audCount
  | .dmAudPeak => s.dm.audPeak
  | .spN => s.sp.n
  | .spWin => s.sp.win
  | .spAvg => s.sp.avg
  | .spCtrl => s.sp.ctrl
  | .spPhRate => s.sp.phRate
  | .spPhDt => s.sp.phDt
  | .spDcbAlpha => s.sp.dcbAlpha
  | .spPend => spPendWord s.sp
  | .spCorr => s.sp.corr
  | .spActN => s.sp.actN
  | .spActWin => s.sp.actWin
  | .spMinsep => s.sp.minSep
  | .spFrameSeq => s.sp.frameSeq
  | .spFlags => spFlagsWord s.sp
  | .stNoise => s.sp.stNoise
  | .stNpeaks => BitVec.ofNat 32 s.sp.stPeaks.length
  | .stSfdr => s.sp.stSfdr
  | .stSnr => s.sp.stSnr
  | .stPkBin i => BitVec.ofNat 32 (s.sp.stPeaks.getD i { bin := 0, pwr := 0 }).bin
  | .stPkPwr i => (s.sp.stPeaks.getD i { bin := 0, pwr := 0 }).pwr

/-- The value a mapped offset holds. -/
def readTarget (s : State) : Target → Word
  | .reg r => readReg s r
  | .ram _ a => s.mem.readWord a

/-- The legality check of a `CFG` register (R40 to R54); no other register has one. -/
def legalValue (r : Reg) (v : Word) : Bool :=
  match r with
  | .dmMod => v == 0 || v == 1
  | .dmFs => finitePositive v
  | .dmTau => finitePositive v
  | .dmTune => isFinite v
  | .dmVol => isFinite v
  | .dmAmAlpha => isFinite v
  | .spN => legalFftSize v
  | .spWin => decide (v.toNat ≤ 4)
  | .spAvg => decide (v.toNat < 2 ^ 16)
  | .spCtrl => true
  | .spPhRate => finiteNonNegative v
  | .spPhDt => finiteNonNegative v
  | .spDcbAlpha => isFinite v
  | _ => true

/-- The write rule of a writable register other than `CMD` (R35, R36, R40 to R56): a `rebuild` register sets its dirty
flag even when the value is unchanged (R32). Registers that are not writable never get here (R107). -/
def writeReg (r : Reg) (v : Word) (s : State) : State :=
  match r with
  | .status => writeStatus v s
  | .irqEn => s.setIrqEn (v &&& irqMask)
  | .dmMod => s.setDm { s.dm with mod := v, dirtyMod := true }
  | .dmFs => s.setDm { s.dm with fs := v, dirtyFs := true }
  | .dmTau => s.setDm { s.dm with tau := v, dirtyTau := true }
  | .dmTune => s.setDm { s.dm with tune := v }
  | .dmVol => s.setDm { s.dm with vol := v }
  | .dmAmAlpha => s.setDm { s.dm with amAlpha := v }
  | .spN => s.setSp { s.sp with n := v, dirtyN := true }
  | .spWin => s.setSp { s.sp with win := v, dirtyWin := true }
  | .spAvg => s.setSp { s.sp with avg := v }
  | .spCtrl => s.setSp { s.sp with ctrl := v &&& ctrlMask }
  | .spPhRate => s.setSp { s.sp with phRate := v }
  | .spPhDt => s.setSp { s.sp with phDt := v }
  | .spDcbAlpha => s.setSp { s.sp with dcbAlpha := v }
  | .spCorr => s.setSp { s.sp with corr := v }
  | _ => s

/-- The write rule of a mapped offset. -/
def writeTarget (t : Target) (v : Word) (s : State) : State :=
  match t with
  | .reg r => writeReg r v s
  | .ram _ a => s.setMem (s.mem.writeWord a v)

/-- The legality check of a mapped offset. -/
def legalAt (t : Target) (v : Word) : Bool :=
  match t with
  | .reg r => legalValue r v
  | .ram _ _ => true

/-- The offset as the information word of an access error (R601). -/
def offsetInfo (off : Offset) : Word := off.setWidth 32

/-- The error a HOST read meets first, if any, and otherwise the word it returns (R106). -/
def readOutcome (off : Offset) (s : State) : Except ErrCode Word :=
  if off.toNat % 4 ≠ 0 then .error .badAccess
  else
    match locate off.toNat with
    | none => .error .badAddr
    | some t =>
      match accessOf t with
      | .wo => .ok 0
      | .roGated e => if s.busy e then .error .engineBusy else .ok (readTarget s t)
      | .rwGated e => if s.busy e then .error .engineBusy else .ok (readTarget s t)
      | .ro => .ok (readTarget s t)
      | .w1c => .ok (readTarget s t)
      | .cfg => .ok (readTarget s t)
      | .rw => .ok (readTarget s t)

/-- `MemRead(off, 4)` (R106): a read that raises an error returns 0. -/
def hostRead (off : Offset) (s : State) : State :=
  match readOutcome off s with
  | .ok v => s.setRdata v
  | .error e => (raise e (offsetInfo off) s).setRdata 0

/-- The error a HOST write meets first, if any, and otherwise the place it writes (R107). -/
def writeOutcome (off : Offset) (v : Word) (s : State) : Except ErrCode Target :=
  if off.toNat % 4 ≠ 0 then .error .badAccess
  else
    match locate off.toNat with
    | none => .error .badAddr
    | some t =>
      match accessOf t with
      | .ro => .error .readOnly
      | .roGated _ => .error .readOnly
      | .rwGated e => if s.busy e then .error .engineBusy else .ok t
      | .cfg => if legalAt t v then .ok t else .error .badValue
      | .wo => .ok t
      | .w1c => .ok t
      | .rw => .ok t

/-- `MemWrite(off, 4, v)` (R107) at an offset other than `CMD`'s: a write that raises an error is discarded. -/
def hostWrite (off : Offset) (v : Word) (s : State) : State :=
  match writeOutcome off v s with
  | .ok t => writeTarget t v s
  | .error e => raise e (offsetInfo off) s

end Sys2Proof.Machine
end

