-- ==== Sys2Proof/Syntax.lean ====
section
/-! DEFINITION. The commands of the block: one constructor per row of spec/opcode_table.json (spec/30_encoding.md R152). -/

namespace Sys2Proof

/-- A decoded command (R150, R152). The sample count of `DM_RUN` is a mathematical integer (R151, R258). -/
inductive Instr where
  /-- `NOP` (R210). -/
  | nop
  /-- `SOFT_RESET` (R211). -/
  | softReset
  /-- `DM_RESET` (R490). -/
  | dmReset
  /-- `DM_RUN n` (R491). -/
  | dmRun (n : Nat)
  /-- `SP_RESET` (R380). -/
  | spReset
  /-- `SP_PREP` (R381). -/
  | spPrep
  /-- `SP_POST` (R390). -/
  | spPost
  /-- `SP_STATS` (R440). -/
  | spStats
deriving DecidableEq, Repr

end Sys2Proof
end

