-- ==== Sys2Proof/WellFormed.lean ====
section
/-! DEFINITION. Which commands have a command word: the count of `DM_RUN` must fit the 16-bit field `ARG`
(spec/30_encoding.md R150, R151). A count above `IQ_DEPTH` is well formed: it decodes, and is rejected at acceptance
(R155). -/

namespace Sys2Proof

/-- The command has a command word (R150, R151): every operand fits its field. -/
def Instr.wellFormed : Instr → Bool
  | .nop => true
  | .softReset => true
  | .dmReset => true
  | .dmRun n => decide (n < 2 ^ 16)
  | .spReset => true
  | .spPrep => true
  | .spPost => true
  | .spStats => true

end Sys2Proof
end

