-- ==== Sys2Proof/Decode.lean ====
section
/-! DEFINITION. The decoder of a command word, total on every 32-bit word, and the encoder (spec/30_encoding.md R150 to
R155). -/

namespace Sys2Proof

/-- Why a command word is illegal (R153). All three are recorded as `ILLEGAL_CMD`. -/
inductive Illegal where
  /-- `RSV != 0`. -/
  | reservedField
  /-- `OPC` is not in the opcode map of R152. -/
  | unknownOpcode
  /-- `OPC` is not `DM_RUN`'s and `ARG != 0`. -/
  | argNotZero
deriving DecidableEq, Repr

/-- Field `OPC`, bits 7:0 (R150). -/
def opcField (w : Word) : BitVec 8 := w.extractLsb' 0 8

/-- Field `RSV`, bits 15:8 (R150). -/
def rsvField (w : Word) : BitVec 8 := w.extractLsb' 8 8

/-- Field `ARG`, bits 31:16 (R150). -/
def argField (w : Word) : BitVec 16 := w.extractLsb' 16 16

/-- A command that requires `ARG = 0` (R153, R155). -/
def withZeroArg (arg : BitVec 16) (i : Instr) : Except Illegal Instr :=
  if arg = 0 then .ok i else .error .argNotZero

/-- The decoder of R155. -/
def decode (w : Word) : Except Illegal Instr :=
  if rsvField w ≠ 0 then .error .reservedField
  else if opcField w = 0x00 then withZeroArg (argField w) .nop
  else if opcField w = 0x01 then withZeroArg (argField w) .softReset
  else if opcField w = 0x10 then withZeroArg (argField w) .dmReset
  else if opcField w = 0x11 then .ok (.dmRun (argField w).toNat)
  else if opcField w = 0x20 then withZeroArg (argField w) .spReset
  else if opcField w = 0x21 then withZeroArg (argField w) .spPrep
  else if opcField w = 0x22 then withZeroArg (argField w) .spPost
  else if opcField w = 0x23 then withZeroArg (argField w) .spStats
  else .error .unknownOpcode

/-- The opcode of a command (R152). -/
def opcode : Instr → BitVec 8
  | .nop => 0x00
  | .softReset => 0x01
  | .dmReset => 0x10
  | .dmRun _ => 0x11
  | .spReset => 0x20
  | .spPrep => 0x21
  | .spPost => 0x22
  | .spStats => 0x23

/-- The argument of a command: `n` for `DM_RUN`, 0 for every other (R151, R152). -/
def argument : Instr → BitVec 16
  | .dmRun n => BitVec.ofNat 16 n
  | .nop => 0
  | .softReset => 0
  | .dmReset => 0
  | .spReset => 0
  | .spPrep => 0
  | .spPost => 0
  | .spStats => 0

/-- The command word of a command: `ARG`, `RSV = 0`, `OPC` from bit 31 down (R150). -/
def encode (i : Instr) : Word := argument i ++ (0 : BitVec 8) ++ opcode i

/-- The command the decoder reads from a word of the opcode table. A command word has 32 bits (R154), so a row of more
bits is none of the block's. -/
def decodeTableWord (nbits w : Nat) : Option Instr :=
  if nbits ≤ 32 then (decode (BitVec.ofNat 32 (w % 2 ^ nbits))).toOption else none

end Sys2Proof
end

