-- ==== Sys2Proof/Machine/Transcendental.lean ====
section
/-! DEFINITION. The six parameter functions of spec/41_numerics.md R261: every instance that has the required properties
of R262 to R266, and no other. The free constants of Config choose the instance; the definitions here impose the required
properties on whatever they choose (log 9). -/

namespace Sys2Proof.Machine

/-- The smallest and largest finite values. -/
def minFinite : F32 := 0xFF7FFFFF
def maxFinite : F32 := 0x7F7FFFFF

/-- `pi/2` and `pi/4` to nearest (R263). -/
def halfPi : F32 := 0x3FC90FDB
def quarterPi : F32 := 0x3F490FDB

/-- NaN results are canonical, in the parameter functions too (R253). -/
def canonNaN (v : F32) : F32 := if isNaN v then qNaN else v

/-- `p` where it lies in `[lo, hi]`, and `lo` where it does not. -/
def confine (p lo hi : F32) : F32 := if fle lo p && fle p hi then p else lo

/-- `-v` for a negative argument, `v` for another. -/
def negateIf (b : Bool) (v : F32) : F32 := if b then fneg v else v

/-! ## SIN32, COS32 (R262) -/

/-- `SIN32` (R262): odd, within `[-1, 1]`, `SIN32(±0) = ±0`, NaN outside the finite values. -/
def sin32 (x : F32) : F32 :=
  if !isFinite x then qNaN
  else if isZero x then x
  else negateIf (signBit x) (confine (Config.sinDraw (fabs x)) (fneg one) one)

/-- `COS32` (R262): even, within `[-1, 1]`, `COS32(±0) = 1`, NaN outside the finite values. -/
def cos32 (x : F32) : F32 :=
  if !isFinite x then qNaN
  else if isZero x then one
  else confine (Config.cosDraw (fabs x)) (fneg one) one

/-! ## ATAN2_32 (R263) -/

/-- `ATAN2_32(y, x)` for finite `y` without its sign, `x` finite, not both zero: the anchors (a) to (d) of R263, and the
instance's choice within `[-PI_F32, PI_F32]` elsewhere. -/
def atan2Upper (y x : F32) : F32 :=
  if isZero y then (if signBit x then piF32 else posZero)
  else if isZero x then halfPi
  else if y = x then quarterPi
  else confine (Config.atan2Draw y x) (fneg piF32) piF32

/-- `ATAN2_32(y, x)` with an infinite operand and no NaN, where R263 gives no value and R510 speaks of the discriminator,
its one caller: a step of exactly pi gives `PI_F32` with the sign of the zero `y`, and every other step a free angle in
`[-PI_F32, PI_F32]` (log 10). -/
def atan2Infinite (y x : F32) : F32 :=
  if isZero y && signBit x then negateIf (signBit y) piF32
  else confine (Config.atan2Draw y x) (fneg piF32) piF32

/-- `ATAN2_32(y, x)` (R263; R510 for an infinite operand). With both operands zero, where it is never called, the value is
free (log 10). -/
def atan2 (y x : F32) : F32 :=
  if isNaN y || isNaN x then qNaN
  else if isInf y || isInf x then atan2Infinite y x
  else if isZero y && isZero x then canonNaN (Config.atan2Draw y x)
  else negateIf (signBit y) (atan2Upper (fabs y) x)

/-! ## Monotone functions -/

/-- The place of a non-NaN value in their order: `-0` and `+0` share the middle place 2^31. -/
def rank (x : F32) : Nat := if signBit x then 2 ^ 31 - magBits x else 2 ^ 31 + magBits x

/-- A monotone function of a place of `bits` bits with values in `[lo, hi]`, by bisection: at each node of a binary tree
over the places, a free value clamped to `[lo, hi]` splits the values, the lower half of the places going below it and the
upper half above it; at a leaf the free value itself, where it lies between the splits. Every monotone function arises so:
take for a node its value at the last place of the node's lower half, and for a leaf its value there. -/
def splitTree (draw : Nat → F32) : Nat → Nat → Nat → F32 → F32 → F32
  | 0, node, _, lo, hi => confine (draw node) lo hi
  | bits + 1, node, place, lo, hi =>
    if place.testBit bits then splitTree draw bits (2 * node + 1) place (clamp (draw node) lo hi) hi
    else splitTree draw bits (2 * node) place lo (clamp (draw node) lo hi)

/-- A monotone function with values in `[lo, top]` that takes each anchor's value at the anchor's argument (arguments and
values rising down the list). -/
def anchored (draw : Nat → F32) : List (F32 × F32) → F32 → F32 → F32 → F32
  | [], x, lo, top => splitTree draw 32 1 (rank x) lo top
  | (a, v) :: rest, x, lo, top =>
    if feq x a then v
    else if flt x a then splitTree draw 32 1 (rank x) lo v
    else anchored draw rest x v top

/-- The exact powers `10^0 .. 10^10` (R265). -/
def powersOfTen : List F32 := (List.range 11).map (fun k => f32OfNat (10 ^ k))

/-- `f32(0) .. f32(10)`. -/
def exponents : List F32 := (List.range 11).map f32OfNat

/-! ## EXP32, LOG10_32, POW10_32 (R264 to R266) -/

/-- `EXP32` (R264). -/
def exp32 (x : F32) : F32 :=
  if isNaN x then qNaN
  else if isInf x then (if signBit x then posZero else posInf)
  else anchored Config.expDraw [(posZero, one)] x posZero posInf

/-- `LOG10_32` (R265); NaN of NaN (R253); free on the other arguments outside its domain `x > 0`, where no rule calls it
(log 10). -/
def log10 (x : F32) : F32 :=
  if isNaN x then qNaN
  else if !flt posZero x then canonNaN (Config.logOutside x)
  else if isInf x then posInf
  else anchored Config.logDraw (powersOfTen.zip exponents) x minFinite maxFinite

/-- `POW10_32` (R266). -/
def pow10 (x : F32) : F32 :=
  if isNaN x then qNaN
  else if isInf x then (if signBit x then posZero else posInf)
  else anchored Config.powDraw (exponents.zip powersOfTen) x posZero posInf

end Sys2Proof.Machine
end

