-- ==== Sys2Proof/Machine/Filters.lean ====
section
/-! DEFINITION. The filter primitives of spec/42_filter_primitives.md: decimating FIR, NCO, de-emphasis, DC blocker. -/

namespace Sys2Proof.Machine

/-! ## Decimating FIR (R301 to R307) -/

/-- Tap count of a decimation factor (R302). -/
def tapCount (r : Nat) : Nat := max 15 (4 * r + 1)

/-- The Hamming window of the design, at tap `n` of `M + 1` (R304). -/
def hammingTap (n m : Nat) : F32 :=
  fsub hamA (fmul hamB (cos32 (fdiv (fmul twoPiF32 (f32OfNat n)) (f32OfNat m))))

/-- The windowed-sinc term at offset `m` from the centre tap (R304). -/
def sincTap (fc : F32) (m : Int) : F32 :=
  if m = 0 then fadd fc fc
  else fdiv (sin32 (fmul (fmul twoPiF32 fc) (f32OfInt m))) (fmul piF32 (f32OfInt m))

/-- The coefficients of R304 before normalisation. -/
def rawTaps (t : Nat) (fc : F32) : List F32 :=
  (List.range t).map fun n : Nat =>
    fmul (sincTap fc ((n : Int) - (((t - 1) / 2 : Nat) : Int))) (hammingTap n (t - 1))

/-- The sum of a list, from `+0`, in order (R13). -/
def sumF (l : List F32) : F32 := l.foldl fadd posZero

/-- `FIR_DESIGN(T, fc)` (R304): `none` is its `FAIL`. -/
def firDesign (t : Nat) (fc : F32) : Option (List F32) :=
  let h := rawTaps t fc
  if !flt posZero (sumF h) || feq (sumF h) posInf then none
  else some (h.map fun x => fdiv x (sumF h))

/-- `D[i]` of a delay line (log 15). -/
def lineGet {α : Type} (zero : α) (l : List α) (i : Nat) : α := l.getD i zero

/-- `D[i] <- x`. -/
def lineSet {α : Type} (zero : α) (l : List α) (i : Nat) (x : α) : List α :=
  if i < l.length then l.set i x else l ++ List.replicate (i - l.length) zero ++ [x]

/-- The part of `FIR_PUSH` that takes an input in (R306): the new state, and whether this input completes a group of `r`.
The counter is cleared by the caller's output. -/
def firShift {α : Type} (zero : α) (t : Nat) (f : Fir α) (x : α) : Fir α :=
  { line := lineSet zero f.line f.pos x, pos := (f.pos + 1) % t, cnt := f.cnt + 1 }

/-- The delay line from the newest input to the oldest: `D[(pos - 1 - k) mod T]` for `k` from 0 (R306). -/
def firTaps {α : Type} (zero : α) (t : Nat) (f : Fir α) : List α :=
  (List.range t).map fun k => lineGet zero f.line ((f.pos + (t - 1 - k)) % t)

/-- The inner product of coefficients and delay line, one rounding per multiply and per add, from `+0` (R306). -/
def innerProduct (h : List F32) (d : List F32) : F32 :=
  (h.zip d).foldl (fun acc p => fadd acc (fmul p.1 p.2)) posZero

/-- `FIR_PUSH_R(f, x)` (R306) with decimation factor `r`, tap count `t`, coefficients `h`. -/
def firPushR (r t : Nat) (h : List F32) (f : Fir F32) (x : F32) : Fir F32 × Option F32 :=
  let g := firShift posZero t f x
  if g.cnt = r then ({ g with cnt := 0 }, some (innerProduct h (firTaps posZero t g)))
  else (g, none)

/-- `FIR_PUSH_C(f, x)` (R307): two independent inner products with the same coefficients. -/
def firPushC (r t : Nat) (h : List F32) (f : Fir C32) (x : C32) : Fir C32 × Option C32 :=
  let g := firShift C32.zero t f x
  if g.cnt = r then
    ({ g with cnt := 0 },
      some { i := innerProduct h ((firTaps C32.zero t g).map C32.i),
             q := innerProduct h ((firTaps C32.zero t g).map C32.q) })
  else (g, none)

/-! ## NCO (R320 to R324) -/

/-- `NCO_SET(f, FS)` (R321): the increment. -/
def ncoSet (f fs : F32) : F32 := fmul twoPiF32 (clamp (fdiv f fs) (fneg half) half)

/-- The rotation of R322 by a phase. -/
def rotate (phase : F32) (x : C32) : C32 :=
  { i := fsub (fmul x.i (cos32 phase)) (fmul x.q (sin32 phase)),
    q := fadd (fmul x.i (sin32 phase)) (fmul x.q (cos32 phase)) }

/-- The wrap of R322 into `(-PI_F32, PI_F32]`. -/
def wrapPhase (p : F32) : F32 :=
  if flt piF32 p then fsub p twoPiF32
  else if fle p (fneg piF32) then fadd p twoPiF32
  else p

/-- The phase after one sample (R322). -/
def ncoAdvance (phase inc : F32) : F32 := wrapPhase (fadd phase inc)

/-! ## De-emphasis (R326, R327) -/

/-- `DEEMPH_COEF(rate, tau)` (R326). -/
def deemphCoef (rate tau : F32) : F32 :=
  fsub one (exp32 (fneg (fdiv one (fmul rate tau))))

/-- `DEEMPH_STEP(x)` (R327) with coefficient `a` from previous output `yp`; the output is also the new state. -/
def deemphStep (a yp x : F32) : F32 := fadd yp (fmul a (fsub x yp))

/-! ## DC blocker (R330 to R332) -/

/-- The output of `DCB_STEP_R` (R330). -/
def dcbOut (alpha xp yp x : F32) : F32 := fadd (fsub x xp) (fmul alpha yp)

/-- `DCB_STEP_R(b, x, alpha)` (R330): the new state holds the input and the output, which is its `yp`. -/
def dcbStepR (alpha : F32) (b : DcBlock F32) (x : F32) : DcBlock F32 :=
  { xp := x, yp := dcbOut alpha b.xp b.yp x }

/-- `DCB_STEP_C(b, x, alpha)` (R331). -/
def dcbStepC (alpha : F32) (b : DcBlock C32) (x : C32) : DcBlock C32 :=
  { xp := x,
    yp := { i := dcbOut alpha b.xp.i b.yp.i x.i, q := dcbOut alpha b.xp.q b.yp.q x.q } }

/-- `DCB_CLEAR(b)` (R332), real. -/
def dcbClearR : DcBlock F32 := { xp := posZero, yp := posZero }

/-- `DCB_CLEAR(b)` (R332), complex. -/
def dcbClearC : DcBlock C32 := { xp := C32.zero, yp := C32.zero }

end Sys2Proof.Machine
end

