-- ==== Sys2Proof/Machine/Demod.lean ====
section
/-! DEFINITION. The DEMOD engine (spec/45_demodulator.md): the acceptance of `DM_RESET` and `DM_RUN`, and the completion
of a `DM_RUN`. -/

namespace Sys2Proof.Machine

/-! ## Rebuild (R492 to R496) -/

/-- The per-kind constants of R9, R493; `mod` is 0 for FM and 1 for AM. -/
def isFm (mod : Word) : Bool := mod == 0

/-- `FINT_NOM`: 400000.0 or 32000.0. -/
def fintNom (mod : Word) : F32 := if isFm mod then 0x48C35000 else 0x46FA0000

/-- `FAUD_NOM`: 50000.0 or 16000.0. -/
def faudNom (mod : Word) : F32 := if isFm mod then 0x47435000 else 0x467A0000

/-- `R2`: 8 or 2. -/
def stage2Factor (mod : Word) : Nat := if isFm mod then 8 else 2

/-- `R1 = max(1, floor(fs / FINT_NOM))` (R494): the quotient is rounded before the floor. -/
def stage1Factor (mod : Word) (fs : F32) : Nat := max 1 (floorNat (fdiv fs (fintNom mod)))

/-- `FINT = fs / f32(R1)` (R494). -/
def actualFint (mod : Word) (fs : F32) : F32 := fdiv fs (f32OfNat (stage1Factor mod fs))

/-- `FAUD = fs / f32(R1 * R2)` (R494). -/
def actualFaud (mod : Word) (fs : F32) : F32 :=
  fdiv fs (f32OfNat (stage1Factor mod fs * stage2Factor mod))

/-- `C1 = FINT_NOM * HALF` (R494). -/
def cutoff1 (mod : Word) : F32 := fmul (fintNom mod) half

/-- `C2 = FAUD_NOM * HALF` (R494). -/
def cutoff2 (mod : Word) : F32 := fmul (faudNom mod) half

/-- `fc1` (R494). -/
def normCutoff1 (mod : Word) (fs : F32) : F32 := pickMin (fdiv (cutoff1 mod) fs) half

/-- `fc2` (R494). -/
def normCutoff2 (mod : Word) (fs : F32) : F32 := pickMin (fdiv (cutoff2 mod) (actualFint mod fs)) half

/-- `a` (R494): the de-emphasis coefficient, `+0` for AM. -/
def deemphFor (mod : Word) (fs tau : F32) : F32 :=
  if isFm mod then deemphCoef (actualFaud mod fs) tau else posZero

/-- Both designs of a rebuild, or the reason of the first check of R495 that fails. -/
def rebuildDesigns (mod : Word) (fs tau : F32) : Except Word (List F32 × List F32) :=
  if Config.firTMax < tapCount (stage1Factor mod fs) then .error 1
  else
    match firDesign (tapCount (stage1Factor mod fs)) (normCutoff1 mod fs) with
    | none => .error 2
    | some h1 =>
      match firDesign (tapCount (stage2Factor mod)) (normCutoff2 mod fs) with
      | none => .error 3
      | some h2 =>
        if isFm mod && !(flt posZero (deemphFor mod fs tau) && fle (deemphFor mod fs tau) one) then .error 4
        else .ok (h1, h2)

/-- The part of `DM_CLEAR_ALL` a rebuild shares (R492, R496): filters, discriminator, DC blocker, de-emphasis. -/
def clearFilters (d : Demod) : Demod :=
  { d with fir1 := Fir.cleared, fir2 := Fir.cleared, discPrev := C32.zero, amDcb := dcbClearR, deYp := posZero }

/-- `DM_CLEAR_ALL` (R492): also the NCO phase. -/
def dmClearAll (d : Demod) : Demod := { clearFilters d with ncoPhase := posZero }

/-- The registers and hidden state a successful rebuild writes (R496). -/
def rebuiltDemod (mod : Word) (fs tau : F32) (d : Demod) : Demod :=
  { clearFilters d with
    actMod := mod, actFs := fs, actTau := tau,
    r1 := BitVec.ofNat 32 (stage1Factor mod fs), r2 := BitVec.ofNat 32 (stage2Factor mod),
    t1 := BitVec.ofNat 32 (tapCount (stage1Factor mod fs)), t2 := BitVec.ofNat 32 (tapCount (stage2Factor mod)),
    fint := actualFint mod fs, faud := actualFaud mod fs, c1 := cutoff1 mod, c2 := cutoff2 mod,
    deemphA := deemphFor mod fs tau, valid := true }

/-- `REBUILD(mod, fs, tau)` (R494 to R496). A failed rebuild records `BUILD_FAIL` and writes nothing else. -/
def rebuild (mod : Word) (fs tau : F32) (s : State) : State :=
  match rebuildDesigns mod fs tau with
  | .error reason => raise .buildFail reason s
  | .ok (h1, h2) =>
    (s.setMem ((s.mem.setBlock .dmH1 h1).setBlock .dmH2 h2)).setDm (rebuiltDemod mod fs tau s.dm)

/-! ## Detectors and the per-sample chain (R500, R501, R510, R511) -/

/-- The clamped tuned offset of `RETUNE` (R500). -/
def clampTune (tune fs : F32) : F32 := clamp tune (fneg (fmul fs half)) (fmul fs half)

/-- `RETUNE(tune)` (R500): the NCO runs at minus the tuned offset. -/
def retune (tune : F32) (d : Demod) : Demod :=
  { d with tuneAct := clampTune tune d.actFs, ncoInc := ncoSet (fneg (clampTune tune d.actFs)) d.actFs }

/-- `DISC(z)` (R510) against the previous sample `p`: an angle in `[-PI_F32, PI_F32]`, infinite products included, which is
`PI_F32` with the sign of `im` where `im` is zero and `re` negative, or NaN from a NaN. -/
def disc (z p : C32) : F32 :=
  let re := fadd (fmul z.i p.i) (fmul z.q p.q)
  let im := fsub (fmul z.q p.i) (fmul z.i p.q)
  if feq re posZero && feq im posZero then posZero else atan2 im re

/-- The envelope of `AM_DETECT(z)` (R511). -/
def envelope (z : C32) : F32 := fsqrt (fadd (fmul z.i z.i) (fmul z.q z.q))

/-- Step (6) of R501: the detector of the active kind, with the detector state it leaves. -/
def detect (z : C32) (d : Demod) : Demod × F32 :=
  if isFm d.actMod then ({ d with discPrev := z }, disc z d.discPrev)
  else
    let b := dcbStepR d.alphaAct d.amDcb (envelope z)
    ({ d with amDcb := b }, b.yp)

/-- Steps (8) and (9) of R501: de-emphasis for FM, then the volume. -/
def audioOut (o : F32) (d : Demod) : Demod × F32 :=
  if isFm d.actMod then
    let y := deemphStep d.deemphA d.deYp o
    ({ d with deYp := y }, fmul y d.volAct)
  else (d, fmul o d.volAct)

/-- One sample of `PROCESS` (R501) with coefficients `h1`, `h2`: the new engine state and the audio sample it produced, if
any. -/
def processSample (h1 h2 : List F32) (d : Demod) (x : C32) : Demod × Option F32 :=
  let y := rotate d.ncoPhase x
  let d1 := { d with ncoPhase := ncoAdvance d.ncoPhase d.ncoInc }
  match firPushC d.r1.toNat d.t1.toNat h1 d.fir1 y with
  | (f1, none) => ({ d1 with fir1 := f1 }, none)
  | (f1, some o1) =>
    let p := detect o1 { d1 with fir1 := f1 }
    match firPushR d.r2.toNat d.t2.toNat h2 d.fir2 p.2 with
    | (f2, none) => ({ p.1 with fir2 := f2 }, none)
    | (f2, some o2) =>
      let q := audioOut o2 { p.1 with fir2 := f2 }
      (q.1, some q.2)

/-- `PROCESS` over a list of samples, oldest first (R501): the engine state and the audio samples, oldest first. -/
def processAll (h1 h2 : List F32) : Demod → List C32 → Demod × List F32
  | d, [] => (d, [])
  | d, x :: xs =>
    let p := processSample h1 h2 d x
    let r := processAll h1 h2 p.1 xs
    (r.1, p.2.toList ++ r.2)

/-- The level meter of a run (R501, R505): `+0` for no sample; a NaN sample never reaches it. -/
def peakMeter (audio : List F32) : F32 := audio.foldl (fun pk out => pickMax (fabs out) pk) posZero

/-! ## Completion of `DM_RUN` (R205, R491) -/

/-- The reset a `DM_RUN` performs first when a `DM_RESET` was pending (R490, R491). -/
def dmRunReset (c : DmRun) (s : State) : State := if c.resetPend then s.setDm (dmClearAll s.dm) else s

/-- The rebuild condition of R491. -/
def needsRebuild (c : DmRun) (d : Demod) : Bool :=
  c.dirtyMod || c.dirtyFs || c.dirtyTau || !d.valid || c.mod != d.actMod

/-- The state after reset and rebuild check (R491). -/
def dmRunConfigured (c : DmRun) (s : State) : State :=
  let s1 := dmRunReset c s
  if needsRebuild c s1.dm then rebuild c.mod c.fs c.tau s1 else s1

/-- The engine when it starts on the samples: retuned, with the latched volume and pole (R491, R500). -/
def dmRunTuned (c : DmRun) (d : Demod) : Demod :=
  { retune c.tune d with volAct := c.vol, alphaAct := c.amAlpha }

/-- `PROCESS(n)` with the coefficients the RAMs hold (R497, R501), audio and meter written (R505). -/
def dmRunProcess (c : DmRun) (s : State) : State :=
  let d := dmRunTuned c s.dm
  let p := processAll (s.mem.block .dmH1 d.t1.toNat) (s.mem.block .dmH2 d.t2.toNat) d (iqSamples s.mem .dmIq c.n)
  (s.setMem (s.mem.setBlock .dmAud p.2)).setDm
    { p.1 with audCount := BitVec.ofNat 32 p.2.length, audPeak := peakMeter p.2 }

/-- The computation of a `DM_RUN` (R491). -/
def dmRunCompute (c : DmRun) (s : State) : State :=
  let s2 := dmRunConfigured c s
  if s2.dm.valid then dmRunProcess c s2
  else
    (raise .notConfigured (encode (.dmRun c.n)) s2).setDm { s2.dm with audCount := 0, audPeak := posZero }

/-- Completion (R205): busy falls and `DM_DONE` rises. -/
def finishDm (s : State) : State :=
  (s.setDm { s.dm with pending := none }).setDone true s.spDone s.frameNew

/-- The completion step of DEMOD (R205). An engine that is not busy has no step (R200, log 3). -/
def completeDemod (s : State) : State :=
  match s.dm.pending with
  | none => s
  | some c => finishDm (dmRunCompute c s)

/-! ## Acceptance (R201, R203, R204) and the meanings -/

/-- What `DM_RUN n` latches (R204). -/
def latchDmRun (n : Nat) (d : Demod) : DmRun where
  n := n
  mod := d.mod
  fs := d.fs
  tau := d.tau
  dirtyMod := d.dirtyMod
  dirtyFs := d.dirtyFs
  dirtyTau := d.dirtyTau
  resetPend := d.resetPend
  tune := d.tune
  vol := d.vol
  amAlpha := d.amAlpha

/-- `accept(DEMOD, DM_RUN n)` (R203, R204): busy, latched, the four flags cleared. -/
def acceptDmRun (n : Nat) (s : State) : State :=
  s.setDm { s.dm with
    pending := some (latchDmRun n s.dm), dirtyMod := false, dirtyFs := false, dirtyTau := false, resetPend := false }

/-- `DM_RESET` (R490). -/
def execDmReset (s : State) : Host.Outcome State Fault Refusal :=
  .next (s.setDm { s.dm with resetPend := true })

/-- `DM_RUN n` (R491) at the `CMD` write (R201). Its computation is `completeDemod`'s. -/
def execDmRun (n : Nat) (s : State) : Host.Outcome State Fault Refusal :=
  if s.dmBusy then .next (raise .engineBusy (encode (.dmRun n)) s)
  else if Config.iqDepth < n then .next (raise .countRange (encode (.dmRun n)) s)
  else .next (acceptDmRun n s)

end Sys2Proof.Machine
end

