-- ==== Sys2Proof/Machine/Global.lean ====
section
/-! DEFINITION. The global commands (spec/40_commands.md R210, R211). -/

namespace Sys2Proof.Machine

/-- `NOP` (R210). -/
def execNop (s : State) : Host.Outcome State Fault Refusal := .next s

/-- `SOFT_RESET` (R211): the reset of R700, with the aborts of R703. -/
def execSoftReset (s : State) : Host.Outcome State Fault Refusal := .next (resetBlock s)

end Sys2Proof.Machine
end

