-- ==== Sys2Proof/Machine/Statistics.lean ====
section
/-! DEFINITION. Signal statistics and the peak detector (spec/44_statistics.md): the computation of `SP_STATS`. -/

namespace Sys2Proof.Machine

/-! ## Median (R443) -/

/-- The order of the median's sort (R443): numbers by value, `-0` and `+0` equal, every NaN after every number. -/
def sortsBefore (a b : F32) : Bool := if isNaN a then false else isNaN b || flt a b

/-- Insertion in front of the first entry that does not sort before it: equal keys keep their order. -/
def insertSorted (x : F32) : List F32 → List F32
  | [] => [x]
  | y :: ys => if sortsBefore y x then y :: insertSorted x ys else x :: y :: ys

/-- `stable_sort_ascending` (R443). -/
def sortAscending : List F32 → List F32
  | [] => []
  | x :: xs => insertSorted x (sortAscending xs)

/-- `MEDIAN(D)` (R443): the upper of the two middle elements. -/
def median (d : List F32) : F32 := (sortAscending d).getD (d.length / 2) posZero

/-! ## Peaks (R444 to R446) -/

/-- `D[k]`. -/
def binAt (d : List F32) (k : Nat) : F32 := d.getD k posZero

/-- Bin `k` is a peak candidate (R444). -/
def candidate (d : List F32) (thr : F32) (k : Nat) : Bool :=
  decide (1 ≤ k ∧ k + 2 ≤ d.length) && flt thr (binAt d k) && flt (binAt d (k - 1)) (binAt d k) &&
    fle (binAt d (k + 1)) (binAt d k)

/-- The list with a peak put before the first weaker entry. -/
def insertDescending (p : Peak) : List Peak → List Peak
  | [] => [p]
  | q :: qs => if flt q.pwr p.pwr then p :: q :: qs else q :: insertDescending p qs

/-- `INSERT(k, v)` (R446): what lies past the capacity falls off, the new entry too when the list is full of peaks not
weaker. -/
def insertPeak (k : Nat) (v : F32) (ps : List Peak) : List Peak :=
  (insertDescending { bin := k, pwr := v } ps).take Config.peakCap

/-- The scan of R445 over the remaining bins, with the bin of the last candidate that passed the separation test. -/
def scanPeaks (d : List F32) (thr : F32) (sep : Nat) : List Nat → Option Nat → List Peak → List Peak
  | [], _, ps => ps
  | k :: ks, last, ps =>
    if !candidate d thr k || last.any (fun l => decide (k - l < sep)) then scanPeaks d thr sep ks last ps
    else scanPeaks d thr sep ks (some k) (insertPeak k (binAt d k) ps)

/-- `FIND_PEAKS(D, thr, sep)` (R445): left to right. -/
def findPeaks (d : List F32) (thr : F32) (sep : Nat) : List Peak :=
  scanPeaks d thr sep (List.range d.length) none []

/-! ## SFDR and SNR (R447, R448) -/

/-- SFDR (R447). -/
def sfdr : List Peak → F32
  | p0 :: p1 :: _ => fsub p0.pwr p1.pwr
  | _ => posZero

/-- The bins farther than `sep` from the top peak's (R448). -/
def farBins (n b0 sep : Nat) : List Nat :=
  (List.range n).filter fun k => decide (sep < k - b0 + (b0 - k))

/-- The powers of the far bins, summed in order (R448). -/
def farPower (d : List F32) (b0 sep : Nat) : F32 :=
  (farBins d.length b0 sep).foldl (fun acc k => fadd acc (pow10 (fdiv (binAt d k) ten))) posZero

/-- `SNR_DB` (R448). -/
def snrDb (d : List F32) (peaks : List Peak) (sep : Nat) : F32 :=
  match peaks with
  | [] => posZero
  | p :: _ =>
    if (farBins d.length p.bin sep).length = 0 then posZero
    else
      let mean := fdiv (farPower d p.bin sep) (f32OfNat (farBins d.length p.bin sep).length)
      if !flt posZero mean then posZero else fsub p.pwr (fmul ten (log10 mean))

/-! ## `SP_STATS` (R440, R441) -/

/-- The peaks of a frame (R440). -/
def framePeaks (d : List F32) (sep : Nat) : List Peak := findPeaks d (fadd (median d) pkMargin) sep

/-- The statistics registers of a frame `d` (R440, R451). -/
def statsOf (d : List F32) (e : Spec) : Spec :=
  { e with
    stNoise := median d, stPeaks := framePeaks d e.minSep.toNat,
    stSfdr := sfdr (framePeaks d e.minSep.toNat),
    stSnr := snrDb d (framePeaks d e.minSep.toNat) e.minSep.toNat }

/-- The computation of `SP_STATS` (R440): of the display array (R441). It writes no RAM. -/
def spStatsCompute (s : State) : State :=
  s.setSp (statsOf (s.mem.block .spDisp s.sp.actN.toNat) s.sp)

/-- `SP_STATS` (R440) at the `CMD` write (R201). -/
def execSpStats (s : State) : Host.Outcome State Fault Refusal :=
  if s.spBusy then .next (raise .engineBusy (encode .spStats) s)
  else if !s.sp.valid then .next (raise .notConfigured (encode .spStats) s)
  else .next (s.setSp { s.sp with pending := some .stats })

end Sys2Proof.Machine
end

