-- ==== Sys2Proof/Machine/Spectrum.lean ====
section
/-! DEFINITION. The SPEC engine (spec/43_spectrum.md): window look-up table, `SP_PREP`, `SP_POST` and the completion step of
SPEC, which also runs `SP_STATS`. -/

namespace Sys2Proof.Machine

/-! ## Windows (R373, R374, R376, R442) -/

def bh0 : F32 := 0x3EB7AE14
def bh1 : F32 := 0x3EFA0126
def bh2 : F32 := 0x3E10ABB4
def bh3 : F32 := 0x3C3F5D79
def ft0 : F32 := 0x3E5CC0BA
def ft1 : F32 := 0x3ED550BC
def ft2 : F32 := 0x3E8DF570
def ft3 : F32 := 0x3DAB2B70
def ft4 : F32 := 0x3BE3A6BF

/-- The harmonic cosine `c_h(n)` (R374). -/
def harmonic (h n size : Nat) : F32 :=
  cos32 (fdiv (fmul twoPiF32 (f32OfNat (h * n))) (f32OfNat (size - 1)))

/-- `w(n)` of a window type (R374), evaluated in the grouping given there. `SP_WIN` holds 0 to 4 only (R49, log 19). -/
def windowValue (win : Word) (size n : Nat) : F32 :=
  if win = 1 then fsub half (fmul half (harmonic 1 n size))
  else if win = 2 then fsub hamA (fmul hamB (harmonic 1 n size))
  else if win = 3 then
    fsub (fadd (fsub bh0 (fmul bh1 (harmonic 1 n size))) (fmul bh2 (harmonic 2 n size))) (fmul bh3 (harmonic 3 n size))
  else if win = 4 then
    fadd (fsub (fadd (fsub ft0 (fmul ft1 (harmonic 1 n size))) (fmul ft2 (harmonic 2 n size)))
      (fmul ft3 (harmonic 3 n size))) (fmul ft4 (harmonic 4 n size))
  else one

/-- `MINSEP(win)` (R373, R442). -/
def minSeparation (win : Word) : Nat :=
  if win = 1 then 2 else if win = 2 then 2 else if win = 3 then 4 else if win = 4 then 5 else 1

/-- The window look-up table of size `N` (R377). -/
def windowTable (win : Word) (size : Nat) : List F32 := (List.range size).map (windowValue win size)

/-- `CORR = 1 / (S * S)` (R377). -/
def coherentCorrection (table : List F32) : F32 := fdiv one (fmul (sumF table) (sumF table))

/-- `regenerate(N, win)` (R377, R378). -/
def regenerate (n win : Word) (s : State) : State :=
  (s.setMem (s.mem.setBlock .spWlut (windowTable win n.toNat))).setSp
    { s.sp with
      corr := coherentCorrection (windowTable win n.toNat), actN := n, actWin := win,
      minSep := BitVec.ofNat 32 (minSeparation win), valid := true }

/-! ## `SP_PREP` (R381) -/

/-- The clearing of averaging, peak hold and DC blocker (R380, R383). -/
def clearSpectrum (e : Spec) : Spec :=
  { e with emaInit := false, holdInit := false, dcb := dcbClearC }

/-- The DC blocker over the samples, oldest first (R331, R381): the state it leaves and the filtered samples. -/
def dcbAll (alpha : F32) : DcBlock C32 → List C32 → DcBlock C32 × List C32
  | b, [] => (b, [])
  | b, x :: xs =>
    let b1 := dcbStepC alpha b x
    let r := dcbAll alpha b1 xs
    (r.1, b1.yp :: r.2)

/-- One windowed sample as the two words of R102. -/
def windowed (x : C32) (w : F32) : List Word := [fmul x.i w, fmul x.q w]

/-- The words of `SP_WOUT` (R381). -/
def windowedWords (xs : List C32) (ws : List F32) : List Word :=
  (List.zipWith windowed xs ws).flatten

/-- The reconfiguration at the top of `SP_PREP` (R381, R382). -/
def spPrepConfigured (l : SpPrep) (s : State) : State :=
  let s1 := if l.resetPend || l.dirtyN then s.setSp (clearSpectrum s.sp) else s
  if l.dirtyN || l.dirtyWin then regenerate l.n l.win s1 else s1

/-- The samples of `SP_PREP` after the optional DC blocker, with the blocker's state (R381). -/
def spPrepSamples (l : SpPrep) (s : State) : DcBlock C32 × List C32 :=
  if l.dcbEn then dcbAll l.dcbAlpha s.sp.dcb (iqSamples s.mem .spIq s.sp.actN.toNat)
  else (s.sp.dcb, iqSamples s.mem .spIq s.sp.actN.toNat)

/-- The computation of `SP_PREP` (R381). -/
def spPrepCompute (l : SpPrep) (s : State) : State :=
  let s2 := spPrepConfigured l s
  let p := spPrepSamples l s2
  (s2.setMem (s2.mem.setBlock .spWout (windowedWords p.2 (s2.mem.block .spWlut s2.sp.actN.toNat)))).setSp
    { s2.sp with dcbEn := l.dcbEn, alphaAct := l.dcbAlpha, dcb := p.1 }

/-! ## `SP_POST` (R385 to R391) -/

/-- `DB(m)` (R385). -/
def magnitudeDb (corr m : F32) : F32 :=
  let p := fmul (fmul m m) corr
  if flt posZero p then pickMax (fmul ten (log10 p)) dbFloor else dbFloor

/-- The averaged value of a bin (R386). -/
def averaged (avg : Word) (emaInit : Bool) (d r : F32) : F32 :=
  if decide (1 < avg.toNat) && emaInit then fadd d (fmul (fdiv one (f32OfNat avg.toNat)) (fsub r d)) else r

/-- The peak-hold value of a bin (R387). -/
def held (phEn holdInit : Bool) (dec h d : F32) : F32 :=
  if phEn && holdInit then pickMax (fsub h dec) d else d

/-- `SP_RAW` of a frame (R390). -/
def rawFrame (corr : F32) (mags : List F32) : List F32 := mags.map (magnitudeDb corr)

/-- `SP_DISP` of a frame (R390). -/
def displayFrame (l : SpPost) (emaInit : Bool) (disp raw : List F32) : List F32 :=
  List.zipWith (averaged l.avg emaInit) disp raw

/-- `SP_HOLD` of a frame (R390); the decay is computed once (R387). -/
def holdFrame (l : SpPost) (holdInit : Bool) (hold disp : List F32) : List F32 :=
  List.zipWith (held l.phEn holdInit (fmul l.phRate l.phDt)) hold disp

/-- The computation of `SP_POST` (R390). -/
def spPostCompute (l : SpPost) (s : State) : State :=
  let n := s.sp.actN.toNat
  let raw := rawFrame s.sp.corr (s.mem.block .spMag n)
  let disp := displayFrame l s.sp.emaInit (s.mem.block .spDisp n) raw
  let hold := holdFrame l s.sp.holdInit (s.mem.block .spHold n) disp
  (s.setMem (((s.mem.setBlock .spRaw raw).setBlock .spDisp disp).setBlock .spHold hold)).setSp
    { s.sp with emaInit := true, holdInit := l.phEn, frameSeq := s.sp.frameSeq + 1 }

/-! ## Completion (R205) -/

/-- The computation of the command SPEC is executing. -/
def spCompute (c : SpCmd) (s : State) : State :=
  match c with
  | .prep l => spPrepCompute l s
  | .post l => spPostCompute l s
  | .stats => spStatsCompute s

/-- `SP_POST` also publishes a frame (R205). -/
def publishes (c : SpCmd) : Bool :=
  match c with
  | .prep _ => false
  | .post _ => true
  | .stats => false

/-- Completion (R205): busy falls, `SP_DONE` rises, and `FRAME_NEW` with an `SP_POST`. -/
def finishSp (c : SpCmd) (s : State) : State :=
  (s.setSp { s.sp with pending := none }).setDone s.dmDone true (s.frameNew || publishes c)

/-- The completion step of SPEC (R205). An engine that is not busy has no step (R200, log 3). -/
def completeSpec (s : State) : State :=
  match s.sp.pending with
  | none => s
  | some c => finishSp c (spCompute c s)

/-! ## Acceptance (R201, R203, R204) and the meanings -/

/-- What `SP_PREP` latches (R204, R381). -/
def latchSpPrep (e : Spec) : SpPrep where
  n := e.n
  win := e.win
  dirtyN := e.dirtyN
  dirtyWin := e.dirtyWin
  resetPend := e.resetPend
  dcbEn := dcbEnBit e.ctrl
  dcbAlpha := e.dcbAlpha

/-- What `SP_POST` latches (R204, R390). -/
def latchSpPost (e : Spec) : SpPost where
  avg := e.avg
  phEn := phEnBit e.ctrl
  phRate := e.phRate
  phDt := e.phDt

/-- `accept(SPEC, SP_PREP)` (R203, R204): busy, latched, the three flags cleared. -/
def acceptSpPrep (s : State) : State :=
  s.setSp { s.sp with
    pending := some (.prep (latchSpPrep s.sp)), dirtyN := false, dirtyWin := false, resetPend := false }

/-- `accept(SPEC, SP_POST)` (R203, R204). -/
def acceptSpPost (s : State) : State :=
  s.setSp { s.sp with pending := some (.post (latchSpPost s.sp)) }

/-- `SP_RESET` (R380). -/
def execSpReset (s : State) : Host.Outcome State Fault Refusal :=
  .next (s.setSp { s.sp with resetPend := true })

/-- `SP_PREP` (R381) at the `CMD` write (R201). Its computation is `completeSpec`'s. -/
def execSpPrep (s : State) : Host.Outcome State Fault Refusal :=
  if s.spBusy then .next (raise .engineBusy (encode .spPrep) s)
  else .next (acceptSpPrep s)

/-- `SP_POST` (R390) at the `CMD` write (R201). Its computation is `completeSpec`'s. -/
def execSpPost (s : State) : Host.Outcome State Fault Refusal :=
  if s.spBusy then .next (raise .engineBusy (encode .spPost) s)
  else if !s.sp.valid then .next (raise .notConfigured (encode .spPost) s)
  else .next (acceptSpPost s)

end Sys2Proof.Machine
end

