-- ==== Sys2Proof/Machine/Dispatch.lean ====
section
/-! DEFINITION. The meaning of each command: what its `CMD` write does (spec/40_commands.md R201). -/

namespace Sys2Proof.Machine

def exec (i : Instr) (s : State) : Host.Outcome State Fault Refusal :=
  match i with
  | .nop => Sys2Proof.Machine.execNop s
  | .softReset => Sys2Proof.Machine.execSoftReset s
  | .dmReset => Sys2Proof.Machine.execDmReset s
  | .dmRun n => Sys2Proof.Machine.execDmRun n s
  | .spReset => Sys2Proof.Machine.execSpReset s
  | .spPrep => Sys2Proof.Machine.execSpPrep s
  | .spPost => Sys2Proof.Machine.execSpPost s
  | .spStats => Sys2Proof.Machine.execSpStats s

end Sys2Proof.Machine
end

