-- ==== Sys2Proof/Machine/Submit.lean ====
section
/-! DEFINITION. The submission of a command word and the steps of the agents (spec/40_commands.md R200, R201). -/

namespace Sys2Proof.Machine

/-- The command word the next step submits, if its step is a write to `CMD`: the block's instruction fetch (R31, R34). -/
def fetch (s : State) : Option Word :=
  match s.schedule with
  | .write off w :: _ => if off = cmdOffset then some w else none
  | _ => none

/-- A write of `w` to `CMD` (R201): the decoded command's meaning, or `ILLEGAL_CMD` (R153). -/
def submit (w : Word) (s : State) : Host.Outcome State Fault Refusal :=
  match decode w with
  | .ok i => exec i s
  | .error _ => .next (raise .illegalCmd w s)

/-- The step of one agent (R200). -/
def takeStep (e : Event) (s : State) : Host.Outcome State Fault Refusal :=
  match e with
  | .read off => .next (hostRead off s)
  | .write off v => if off = cmdOffset then submit v s else .next (hostWrite off v s)
  | .demod => .next (completeDemod s)
  | .spec => .next (completeSpec s)
  | .reset => .next (resetBlock s)

/-- The step when no other is scheduled: a busy engine completes, DEMOD first; a block with nothing to do rests (R207,
R646, log 2). -/
def drain (s : State) : State :=
  if s.dmBusy then completeDemod s else if s.spBusy then completeSpec s else s

end Sys2Proof.Machine
end

