-- ==== Sys2Proof/Machine/Step.lean ====
section
/-! DEFINITION. One step of the machine: the next scheduled step of an agent (log 1), and the placing of a command word
where the next step fetches it. -/

namespace Sys2Proof.Machine

/-- One step (R200): the first scheduled step, or `drain` where none is scheduled. -/
def step (s : State) : Host.Outcome State Fault Refusal :=
  match s.schedule with
  | [] => .next (drain s)
  | e :: rest => takeStep e (s.setSchedule rest)

/-- `s` with the command word of an instruction of the opcode table about to be written to `CMD` (log 4). -/
def State.withFetchWord (s : State) (nbits w : Nat) : State :=
  s.setSchedule (.write cmdOffset (BitVec.ofNat 32 (w % 2 ^ nbits)) :: s.schedule)

end Sys2Proof.Machine
end

