-- ==== Sys2Proof/Safety.lean ====
section
/-! DEFINITION. What counts as a safe run, and the invariants and the vocabulary the claims are stated in. -/

namespace Sys2Proof.Machine

/-! ## Legal registers (spec/10_state.md R32 to R54, spec/60_exceptions.md R601) -/

/-- The DEMOD configuration shadows hold legal values (R40 to R45). -/
def Demod.configLegal (d : Demod) : Bool :=
  legalValue .dmMod d.mod && legalValue .dmFs d.fs && legalValue .dmTau d.tau && legalValue .dmTune d.tune &&
    legalValue .dmVol d.vol && legalValue .dmAmAlpha d.amAlpha

/-- The SPEC configuration shadows hold legal values, the reserved bits of `SP_CTRL` 0 (R48 to R54). -/
def Spec.configLegal (e : Spec) : Bool :=
  legalValue .spN e.n && legalValue .spWin e.win && legalValue .spAvg e.avg && (e.ctrl &&& ~~~ctrlMask == 0) &&
    legalValue .spPhRate e.phRate && legalValue .spPhDt e.phDt && legalValue .spDcbAlpha e.dcbAlpha

/-- A latched `DM_RUN` holds legal values and a count in range (R204, R491). -/
def DmRun.legal (c : DmRun) : Bool :=
  decide (c.n ≤ Config.iqDepth) && legalValue .dmMod c.mod && legalValue .dmFs c.fs && legalValue .dmTau c.tau &&
    legalValue .dmTune c.tune && legalValue .dmVol c.vol && legalValue .dmAmAlpha c.amAlpha

/-- A latched SPEC command holds legal values (R204, R381, R390). -/
def SpCmd.legal : SpCmd → Bool
  | .prep l => legalValue .spN l.n && legalValue .spWin l.win && legalValue .spDcbAlpha l.dcbAlpha
  | .post l => legalValue .spAvg l.avg && legalValue .spPhRate l.phRate && legalValue .spPhDt l.phDt
  | .stats => true

/-- The error record is empty while `STATUS.ERR` is 0 and holds a code of R601 while it is 1 (R37, R38, R601). -/
def State.errorRecordLegal (s : State) : Bool :=
  if s.err then decide (1 ≤ s.errCode.toNat ∧ s.errCode.toNat ≤ 9) else s.errCode == 0 && s.errInfo == 0

/-- Every register the HOST configures holds a legal value, and so does every latched copy of one. -/
structure RegistersLegal (s : State) : Prop where
  demod : s.dm.configLegal = true
  spec : s.sp.configLegal = true
  demodLatched : s.dm.pending.all DmRun.legal = true
  specLatched : s.sp.pending.all SpCmd.legal = true
  interrupt : s.irqEn &&& ~~~irqMask = 0
  error : s.errorRecordLegal = true

/-! ## Consistent engines (spec/42_filter_primitives.md R301, spec/43_spectrum.md R378, spec/45_demodulator.md R494) -/

/-- A FIR of decimation factor `r` and tap count `t` keeps its position, counter and delay line in range (R301). -/
def Fir.inRange {α : Type} (r t : Nat) (f : Fir α) : Bool :=
  decide (f.pos < t) && decide (f.cnt < r) && decide (f.line.length ≤ t)

/-- The active configuration is legal and small enough to build (R41, R42, R495). -/
def Demod.activeLegal (d : Demod) : Bool :=
  legalValue .dmMod d.actMod && legalValue .dmFs d.actFs && legalValue .dmTau d.actTau &&
    decide (tapCount (stage1Factor d.actMod d.actFs) ≤ Config.firTMax)

/-- The derived registers hold what R494 derives from the active configuration. -/
structure Demod.Derived (d : Demod) : Prop where
  r1 : d.r1.toNat = stage1Factor d.actMod d.actFs
  r2 : d.r2.toNat = stage2Factor d.actMod
  t1 : d.t1.toNat = tapCount (stage1Factor d.actMod d.actFs)
  t2 : d.t2.toNat = tapCount (stage2Factor d.actMod)
  fint : d.fint = actualFint d.actMod d.actFs
  faud : d.faud = actualFaud d.actMod d.actFs
  c1 : d.c1 = cutoff1 d.actMod
  c2 : d.c2 = cutoff2 d.actMod
  deemphA : d.deemphA = deemphFor d.actMod d.actFs d.actTau

/-- A configuration has been built, and registers and filters agree with it. -/
structure Demod.Configured (d : Demod) : Prop where
  legal : d.activeLegal = true
  derived : d.Derived
  fir1 : d.fir1.inRange d.r1.toNat d.t1.toNat = true
  fir2 : d.fir2.inRange d.r2.toNat d.t2.toNat = true

/-- Nothing has been built since reset (R47, R59). -/
structure Demod.Unbuilt (d : Demod) : Prop where
  taps : d.t1 = 0 ∧ d.t2 = 0
  factors : d.r1 = 0 ∧ d.r2 = 0
  fir1 : d.fir1 = Fir.cleared
  fir2 : d.fir2 = Fir.cleared

/-- The active spectrum configuration is legal, its separation the window's (R377, R442). -/
def Spec.activeLegal (e : Spec) : Bool :=
  legalFftSize e.actN && legalValue .spWin e.actWin && (e.minSep == BitVec.ofNat 32 (minSeparation e.actWin))

/-- The command SPEC executes needs a regenerated window (R201, R378). -/
def needsWindow : SpCmd → Bool
  | .prep _ => false
  | .post _ => true
  | .stats => true

/-- The `SP_PREP` SPEC executes will regenerate because of a new size (R381). -/
def regeneratesSize : SpCmd → Bool
  | .prep l => l.dirtyN
  | .post _ => false
  | .stats => false

/-- A peak list as R446 keeps it: at most `PEAK_CAP` entries, bins of a frame, no entry weaker than a later one. -/
structure PeakListOk (ps : List Peak) : Prop where
  capacity : ps.length ≤ Config.peakCap
  bins : ∀ p ∈ ps, 1 ≤ p.bin ∧ p.bin + 2 ≤ Config.nMax
  descending : ps.Pairwise (fun p q => fle q.pwr p.pwr = true)

/-- Both engines agree with their active configuration, and their results are in range. -/
structure EnginesConsistent (s : State) : Prop where
  configured : s.dm.valid = true → s.dm.Configured
  unbuilt : s.dm.valid = false → s.dm.Unbuilt
  audio : s.dm.audCount.toNat ≤ Config.iqDepth
  windowed : s.sp.valid = true → s.sp.activeLegal = true
  unwindowed : s.sp.valid = false → s.sp.actN = 0
  firstPrep : s.sp.valid = false → s.sp.dirtyN = true ∨ s.sp.pending.any regeneratesSize = true
  window : s.sp.pending.any needsWindow = true → s.sp.valid = true
  averaging : s.sp.emaInit = true → s.sp.valid = true
  holding : s.sp.holdInit = true → s.sp.emaInit = true
  peaks : PeakListOk s.sp.stPeaks

/-- The phase lies in `(-PI_F32, PI_F32]` and the increment in `[-PI_F32, PI_F32]` (R59, R320). -/
structure NcoInRange (s : State) : Prop where
  above : flt (fneg piF32) s.dm.ncoPhase = true
  notAbove : fle s.dm.ncoPhase piF32 = true
  incLow : fle (fneg piF32) s.dm.ncoInc = true
  incHigh : fle s.dm.ncoInc piF32 = true

/-- The invariant of the machine. -/
structure Inv (s : State) : Prop where
  memory : s.mem.wf = true
  registers : RegistersLegal s
  engines : EnginesConsistent s
  nco : NcoInRange s

/-! ## Runs -/

/-- A safe run of `k` steps: it ends in a state (no fault, no refusal) that meets the invariant. No error
ends a run (R600). -/
def SafeRun (k : Nat) (s : State) : Prop := ∃ t, Host.Core.run Sys2Proof.core k s = .next t ∧ Inv t

/-- The engine that gates an access class (R32). -/
def Access.gate : Access → Option Engine
  | .roGated e => some e
  | .rwGated e => some e
  | .ro => none
  | .wo => none
  | .w1c => none
  | .cfg => none
  | .rw => none

/-- Writes of the class are discarded with `READ_ONLY` (R107). -/
def Access.readOnly : Access → Bool
  | .ro => true
  | .roGated _ => true
  | .wo => false
  | .w1c => false
  | .cfg => false
  | .rw => false
  | .rwGated _ => false

/-- The engine that gates the access is busy. -/
def State.gated (s : State) (a : Access) : Bool := a.gate.any s.busy

/-! ## Frames -/

/-- Every byte of RAM reads as before. -/
def SameRam (s t : State) : Prop := ∀ a, t.mem.readByte a = s.mem.readByte a

/-- Every byte of RAM at an offset that meets `p` reads as before. -/
def SameRamWhere (p : Nat → Prop) (s t : State) : Prop := ∀ a, p a → t.mem.readByte a = s.mem.readByte a

/-- `STATUS.ERR`, `ERR_CODE` and `ERR_INFO` are as before. -/
def SameError (s t : State) : Prop := t.err = s.err ∧ t.errCode = s.errCode ∧ t.errInfo = s.errInfo

/-- The error record after `raise Error(code, info)` (R602). -/
def ErrorRaised (code : BitVec 8) (info : Word) (s t : State) : Prop :=
  t.err = true ∧ t.errCode = (if s.err then s.errCode else code) ∧ t.errInfo = (if s.err then s.errInfo else info)

/-- The three done bits are as before. -/
def SameDone (s t : State) : Prop := t.dmDone = s.dmDone ∧ t.spDone = s.spDone ∧ t.frameNew = s.frameNew

/-- The interrupt enables, the steps to come and the word last read are as before. -/
def SameHost (s t : State) : Prop := t.irqEn = s.irqEn ∧ t.schedule = s.schedule ∧ t.rdata = s.rdata

/-- Nothing but the error record differs: what a rejected command or access leaves. -/
def OnlyError (s t : State) : Prop :=
  t.dm = s.dm ∧ t.sp = s.sp ∧ t.mem = s.mem ∧ SameDone s t ∧ SameHost s t

/-- A window of the DEMOD engine holds the byte (R104). -/
def inDemodRam (a : Nat) : Bool := [Ram.dmIq, .dmAud, .dmH1, .dmH2].any (·.holds a)

/-- A window of the SPEC engine holds the byte (R104). -/
def inSpecRam (a : Nat) : Bool :=
  [Ram.spIq, .spWlut, .spWout, .spMag, .spRaw, .spDisp, .spHold].any (·.holds a)

/-- A word-aligned byte range: `n` words of a window from its word 0. -/
def inWords (w : Ram) (n : Nat) (a : Nat) : Prop := w.base ≤ a ∧ a < w.base + 4 * n

/-- The DEMOD engine without its configuration shadows and pending flags: what only the engine and resets change (R40 to
R47, R59). -/
def Demod.withoutShadows (d : Demod) : Demod :=
  { d with mod := 0, fs := 0, tau := 0, tune := 0, vol := 0, amAlpha := 0, dirtyMod := false, dirtyFs := false,
           dirtyTau := false, resetPend := false }

/-- The SPEC engine without its configuration shadows and pending flags (R48 to R58, R60). -/
def Spec.withoutShadows (e : Spec) : Spec :=
  { e with n := 0, win := 0, avg := 0, ctrl := 0, phRate := 0, phDt := 0, dcbAlpha := 0, dirtyN := false,
           dirtyWin := false, resetPend := false }

/-! ## Streams -/

/-- A component that takes one input and may give one output, run over a list of inputs: its last state and its outputs. -/
def runStream {σ α β : Type} (push : σ → α → σ × Option β) : σ → List α → σ × List β
  | f, [] => (f, [])
  | f, x :: xs =>
    let r := runStream push (push f x).1 xs
    (r.1, (push f x).2.toList ++ r.2)

/-! ## Rounding -/

/-- Units of 2^-149 from which a magnitude rounds to infinity: half way from the largest finite value to 2^128 (R254). -/
def overflowUnits : Nat := (2 ^ 25 - 1) * 2 ^ 252

/-- `r` is the rational `num / den` units of 2^-149 rounded to nearest, ties to even, overflowing to infinity (R251, R252,
R254). -/
def RoundsTo (num : Int) (den : Nat) (r : F32) : Prop :=
  if overflowUnits * den ≤ num.natAbs then r = (if num < 0 then fneg posInf else posInf)
  else
    isFinite r = true ∧
      ∀ f, isFinite f = true →
        (num - value r * den).natAbs ≤ (num - value f * den).natAbs ∧
          ((num - value r * den).natAbs = (num - value f * den).natAbs → value f = value r ∨ r.toNat % 2 = 0)

end Sys2Proof.Machine
end

