-- ==== Sys2Proof/Certificates/Slice0/Obligations.lean ====
section
/-! DEFINITION. The statements for the provers, one `def Obligations.<Name> : Prop` each. "Log n" is
notes/assumptions/<n>.md. -/

section

open Sys2Proof Sys2Proof.Machine

/-! ## Encoding (spec/30_encoding.md) -/

/-- Decoding the command word of a well-formed command gives it back (R150, R151, R152, R155). -/
def Obligations.DecodeEncodeRoundTrip : Prop :=
  ∀ i : Instr, i.wellFormed = true → decode (encode i) = .ok i

/-- R151, R152: which words are which command, the operand of `DM_RUN` being bits 31:16, not scaled. -/
def Obligations.CommandWordsOfTheMap : Prop :=
  ∀ w : Word,
    (decode w = .ok .nop ↔ w = 0x00000000) ∧
    (decode w = .ok .softReset ↔ w = 0x00000001) ∧
    (decode w = .ok .dmReset ↔ w = 0x00000010) ∧
    (∀ n, decode w = .ok (.dmRun n) ↔ w &&& 0x0000FFFF = 0x00000011 ∧ n = w.toNat / 65536) ∧
    (decode w = .ok .spReset ↔ w = 0x00000020) ∧
    (decode w = .ok .spPrep ↔ w = 0x00000021) ∧
    (decode w = .ok .spPost ↔ w = 0x00000022) ∧
    (decode w = .ok .spStats ↔ w = 0x00000023)

/-- R153: the illegal words are exactly those the rule lists, and a write of one to `CMD` records `ILLEGAL_CMD` with the
word and has no other effect. -/
def Obligations.IllegalWordsRejected : Prop :=
  ∀ w : Word,
    ((∃ e, decode w = .error e) ↔
      (w.extractLsb' 8 8 ≠ 0 ∨
        w.extractLsb' 0 8 ∉ [0x00#8, 0x01#8, 0x10#8, 0x11#8, 0x20#8, 0x21#8, 0x22#8, 0x23#8] ∨
        (w.extractLsb' 0 8 ≠ 0x11 ∧ w.extractLsb' 16 16 ≠ 0))) ∧
    ∀ s, (∃ e, decode w = .error e) →
      ∃ t, takeStep (.write cmdOffset w) s = .next t ∧ ErrorRaised 0x01 w s t ∧ OnlyError s t

/-- The worked encodings of R160 and the words of R152 that it leaves out. -/
def Obligations.WorkedEncodings : Prop :=
  decode 0x00080011 = .ok (.dmRun 8) ∧ decode 0x00000011 = .ok (.dmRun 0) ∧
  decode 0x40000011 = .ok (.dmRun 16384) ∧ decode 0x40010011 = .ok (.dmRun 16385) ∧
  decode 0x00000021 = .ok .spPrep ∧
  decode 0x00010021 = .error .argNotZero ∧ decode 0x00000121 = .error .reservedField ∧
  decode 0x00000030 = .error .unknownOpcode ∧
  decode 0x00000000 = .ok .nop ∧ decode 0x00000001 = .ok .softReset ∧ decode 0x00000010 = .ok .dmReset ∧
  decode 0x00000020 = .ok .spReset ∧ decode 0x00000022 = .ok .spPost ∧ decode 0x00000023 = .ok .spStats

/-! ## Steps (spec/40_commands.md R200 to R202) -/

/-- A step of the machine is the next scheduled agent's step, that step taken off the schedule (R200; the schedule is the
model's, log 1). When it writes a command word to `CMD` and the word decodes, it is `exec` of the decoded command (R201).
`withFetchWord` places such a step (log 4). -/
def Obligations.StepRunsDecodedCommand : Prop :=
  (∀ s e rest, s.schedule = e :: rest → step s = takeStep e (s.setSchedule rest)) ∧
  (∀ s w rest i, s.schedule = .write cmdOffset w :: rest → decode w = .ok i →
    i.wellFormed = true ∧ step s = exec i (s.setSchedule rest)) ∧
  (∀ (s : State) (w : Nat) i, w < 2 ^ 32 → decode (BitVec.ofNat 32 w) = .ok i →
    step (s.withFetchWord 32 w) = exec i s)

/-- Every step of every agent, every command and every step of the machine ends in a state: nothing stops the block
(R202, R600). -/
def Obligations.EveryStepAnswersNext : Prop :=
  (∀ s, ∃ t, step s = .next t) ∧ (∀ i s, ∃ t, exec i s = .next t) ∧ (∀ e s, ∃ t, takeStep e s = .next t)

/-! ## Commands: effect and acceptance -/

/-- R210: `NOP` is the word 0 only, changes nothing, raises nothing and sets no done bit, busy engines or not; its opcode
with another `ARG` or `RSV` is illegal. -/
def Obligations.NopChangesNothing : Prop :=
  (∀ s, exec .nop s = .next s) ∧ (∀ w, decode w = .ok .nop ↔ w = 0) ∧
  (∀ w : Word, w.extractLsb' 0 8 = 0 → w ≠ 0 → ∃ e, decode w = .error e)

/-- `SOFT_RESET` and the reset input have one effect (R211, R700): every register and hidden state at its reset value, the
error record and the interrupt cleared, RAM unchanged but for the output words of the commands it aborts, which become
free draws (R703; fresh by the abort count, log 7). The scheduled steps stay (log 1), and so does the last read word
(log 5). -/
def Obligations.SoftResetResets : Prop :=
  ∀ s, ∃ t, exec .softReset s = .next t ∧ takeStep .reset s = .next t ∧
    t.dm = Demod.reset ∧ t.sp = Spec.reset ∧
    statusWord t = 0 ∧ t.errCode = 0 ∧ t.errInfo = 0 ∧ t.irqEn = 0 ∧ irq t = false ∧
    dmPendWord t.dm = 0x7 ∧ spPendWord t.sp = 0x3 ∧ readReg t .dmFs = 0x49F42400 ∧
    t.schedule = s.schedule ∧ t.rdata = s.rdata ∧
    ∀ a,
      let aborted := (s.dm.pending.isSome = true ∧ dmRunOutputs.any (·.holds a) = true) ∨
        ((∃ l, s.sp.pending = some (.prep l)) ∧ spPrepOutputs.any (·.holds a) = true) ∨
        ((∃ l, s.sp.pending = some (.post l)) ∧ spPostOutputs.any (·.holds a) = true)
      (aborted → t.mem.readByte a = Config.ramDraw (s.mem.aborts a + 1) a) ∧
      (¬ aborted → t.mem.readByte a = s.mem.readByte a)

/-- The reset value of every register, as a HOST reads it (R33 to R58). -/
def Obligations.ResetRegisterValues : Prop :=
  (∀ p ∈ [(0x000, 0x52464E43), (0x004, 0x00070000), (0x01C, 16384), (0x020, 8192), (0x024, 4096), (0x028, 8),
      (0x104, 0x49F42400), (0x108, 0x389D4952), (0x110, 0x3F800000), (0x114, 0x3F7EB852), (0x118, 0x7),
      (0x200, 1024), (0x204, 1), (0x208, 1), (0x218, 0x3F7EB852), (0x21C, 0x3)],
    readOutcome (BitVec.ofNat 19 p.1) State.reset = .ok (BitVec.ofNat 32 p.2)) ∧
  (∀ off ∈ [0x008, 0x00C, 0x010, 0x014, 0x018, 0x100, 0x10C, 0x120, 0x124, 0x128, 0x12C, 0x130, 0x134, 0x138, 0x13C,
      0x140, 0x144, 0x148, 0x14C, 0x150, 0x154, 0x158, 0x15C, 0x160, 0x20C, 0x210, 0x214, 0x220, 0x224, 0x228, 0x22C,
      0x230, 0x234, 0x240, 0x244, 0x248, 0x24C, 0x280, 0x284, 0x288, 0x28C, 0x290, 0x294, 0x298, 0x29C, 0x2A0, 0x2A4,
      0x2A8, 0x2AC, 0x2B0, 0x2B4, 0x2B8, 0x2BC],
    readOutcome (BitVec.ofNat 19 off) State.reset = .ok 0)

/-- `DM_RESET` and `SP_RESET`, busy engines or not, set their pending flag and change nothing else (R490, R380, R702). -/
def Obligations.ResetCommandsMarkPending : Prop :=
  ∀ s,
    (∃ t, exec .dmReset s = .next t ∧ t.dm = { s.dm with resetPend := true } ∧ (dmPendWord t.dm).getLsbD 3 = true ∧
      t.sp = s.sp ∧ SameRam s t ∧ SameDone s t ∧ SameError s t ∧ SameHost s t) ∧
    (∃ t, exec .spReset s = .next t ∧ t.sp = { s.sp with resetPend := true } ∧ (spPendWord t.sp).getLsbD 2 = true ∧
      t.dm = s.dm ∧ SameRam s t ∧ SameDone s t ∧ SameError s t ∧ SameHost s t)

/-- `DM_RUN n` on an idle engine with `n` in range is accepted (R201, R203, R204): DEMOD is busy with a latched copy, the
four flags are cleared, nothing else changes. That the hidden `dm.vol_act` and `dm.alpha_act` do not change here, but at
the completion, is the model's reading (log 13). -/
def Obligations.DmRunAccepted : Prop :=
  ∀ s n, s.dm.pending = none → n ≤ 16384 → ∃ t, exec (.dmRun n) s = .next t ∧
    t.dm = { s.dm with
      pending := some
        { n := n, mod := s.dm.mod, fs := s.dm.fs, tau := s.dm.tau, dirtyMod := s.dm.dirtyMod, dirtyFs := s.dm.dirtyFs,
          dirtyTau := s.dm.dirtyTau, resetPend := s.dm.resetPend, tune := s.dm.tune, vol := s.dm.vol,
          amAlpha := s.dm.amAlpha },
      dirtyMod := false, dirtyFs := false, dirtyTau := false, resetPend := false } ∧
    (statusWord t).getLsbD 0 = true ∧
    t.sp = s.sp ∧ SameRam s t ∧ SameDone s t ∧ SameError s t ∧ SameHost s t

/-- `DM_RUN n` is rejected with `ENGINE_BUSY` while DEMOD is busy, else with `COUNT_RANGE` above `IQ_DEPTH` (R201, R601);
a rejected command has no other effect. -/
def Obligations.DmRunRejected : Prop :=
  ∀ s n, n < 2 ^ 16 →
    (s.dm.pending.isSome = true → ∃ t, exec (.dmRun n) s = .next t ∧
      ErrorRaised 0x02 (BitVec.ofNat 32 (n * 65536 + 0x11)) s t ∧ OnlyError s t) ∧
    (s.dm.pending = none → 16384 < n → ∃ t, exec (.dmRun n) s = .next t ∧
      ErrorRaised 0x07 (BitVec.ofNat 32 (n * 65536 + 0x11)) s t ∧ OnlyError s t)

/-- `DM_RUN n` that finds a built, unchanged configuration (R491, R492, R500, R501, R505): accepted, and completed by the
step of DEMOD scheduled next (the schedule is the model's form, log 1; that the working copies of volume and pole change at
this step is the model's reading, log 13). A pending reset clears the datapath and the phase first; the engine is retuned; the audio of
the samples is in `DM_AUD`, its length and peak in the registers; every other byte of RAM and everything else is as
before. -/
def Obligations.DmRunResult : Prop :=
  ∀ s n rest, s.dm.pending = none → n ≤ 16384 → s.dm.valid = true → s.dm.mod = s.dm.actMod →
    s.dm.dirtyMod = false → s.dm.dirtyFs = false → s.dm.dirtyTau = false → s.schedule = .demod :: rest →
    ∃ u t, exec (.dmRun n) s = .next u ∧ step u = .next t ∧
      let start := if s.dm.resetPend then
          { s.dm with fir1 := Fir.cleared, fir2 := Fir.cleared, discPrev := C32.zero, amDcb := { xp := 0, yp := 0 },
                      deYp := 0, ncoPhase := 0 }
        else s.dm
      let limit := fmul s.dm.actFs half
      let tuned := clamp s.dm.tune (fneg limit) limit
      let p := processAll (s.mem.block .dmH1 s.dm.t1.toNat) (s.mem.block .dmH2 s.dm.t2.toNat)
        { start with tuneAct := tuned, ncoInc := ncoSet (fneg tuned) s.dm.actFs, volAct := s.dm.vol,
                     alphaAct := s.dm.amAlpha }
        (iqSamples s.mem .dmIq n)
      t.dm = { p.1 with
        resetPend := false, pending := none, audCount := BitVec.ofNat 32 p.2.length,
        audPeak := p.2.foldl (fun pk out => pickMax (fabs out) pk) posZero } ∧
      (∀ i, i < p.2.length → t.mem.get .dmAud i = p.2.getD i 0) ∧
      SameRamWhere (fun a => ¬ inWords .dmAud p.2.length a) s t ∧
      t.dmDone = true ∧ t.spDone = s.spDone ∧ t.frameNew = s.frameNew ∧
      t.sp = s.sp ∧ SameError s t ∧ t.irqEn = s.irqEn ∧ t.schedule = rest ∧ t.rdata = s.rdata

/-- `DM_RUN n` that finds a changed or no configuration (R491, R492, R494, R495, R496, R500, R501, R505): it completes.
Where every check of R495 passes, the new configuration, the derived values and the coefficients stand, filters,
discriminator, DC blocker and de-emphasis are cleared, the phase is kept (unless a reset was pending), and the samples run
through the new configuration. Where one fails, `BUILD_FAIL` is raised with its reason and configuration and coefficients
stay: the samples run through the old configuration, or, with none, the run ends without audio. Which case holds depends
on the parameter functions (free values, log 9). The schedule is the model's form (log 1); that the working copies of
volume and pole change at completion is its reading (log 13). -/
def Obligations.DmRunReconfigures : Prop :=
  ∀ s n rest, s.dm.pending = none → n ≤ 16384 → s.schedule = .demod :: rest →
    (s.dm.dirtyMod = true ∨ s.dm.dirtyFs = true ∨ s.dm.dirtyTau = true ∨ s.dm.valid = false ∨ s.dm.mod ≠ s.dm.actMod) →
    ∃ u t, exec (.dmRun n) s = .next u ∧ step u = .next t ∧ t.dmDone = true ∧ t.dm.pending = none ∧
      t.dm.mod = s.dm.mod ∧ t.dm.fs = s.dm.fs ∧ t.dm.tau = s.dm.tau ∧ t.dm.tune = s.dm.tune ∧ t.dm.vol = s.dm.vol ∧
      t.dm.amAlpha = s.dm.amAlpha ∧ dmPendWord t.dm = 0 ∧
      t.sp = s.sp ∧ t.spDone = s.spDone ∧ t.frameNew = s.frameNew ∧ t.irqEn = s.irqEn ∧ t.schedule = rest ∧
      t.rdata = s.rdata ∧
      let start := if s.dm.resetPend then
          { s.dm with fir1 := Fir.cleared, fir2 := Fir.cleared, discPrev := C32.zero, amDcb := { xp := 0, yp := 0 },
                      deYp := 0, ncoPhase := 0 }
        else s.dm
      let processed := fun (d : Demod) (h1 h2 : List F32) =>
        let limit := fmul d.actFs half
        let tuned := clamp s.dm.tune (fneg limit) limit
        processAll h1 h2
          { d with tuneAct := tuned, ncoInc := ncoSet (fneg tuned) d.actFs, volAct := s.dm.vol, alphaAct := s.dm.amAlpha }
          (iqSamples s.mem .dmIq n)
      let finished := fun (d : Demod) (audio : List F32) =>
        { d with dirtyMod := false, dirtyFs := false, dirtyTau := false, resetPend := false, pending := none,
                 audCount := BitVec.ofNat 32 audio.length,
                 audPeak := audio.foldl (fun pk out => pickMax (fabs out) pk) posZero }
      match rebuildDesigns s.dm.mod s.dm.fs s.dm.tau with
      | .ok (h1, h2) =>
        SameError s t ∧ t.dm.valid = true ∧
        t.dm.actMod = s.dm.mod ∧ t.dm.actFs = s.dm.fs ∧ t.dm.actTau = s.dm.tau ∧ t.dm.Derived ∧
        h1.length = t.dm.t1.toNat ∧ h2.length = t.dm.t2.toNat ∧
        (∀ k, k < h1.length → t.mem.get .dmH1 k = h1.getD k 0) ∧
        (∀ k, k < h2.length → t.mem.get .dmH2 k = h2.getD k 0) ∧
        let p := processed
          { start with
            actMod := s.dm.mod, actFs := s.dm.fs, actTau := s.dm.tau, r1 := t.dm.r1, r2 := t.dm.r2, t1 := t.dm.t1,
            t2 := t.dm.t2, fint := t.dm.fint, faud := t.dm.faud, c1 := t.dm.c1, c2 := t.dm.c2, deemphA := t.dm.deemphA,
            fir1 := Fir.cleared, fir2 := Fir.cleared, discPrev := C32.zero, amDcb := { xp := 0, yp := 0 }, deYp := 0,
            valid := true }
          h1 h2
        t.dm = finished p.1 p.2 ∧
        (∀ i, i < p.2.length → t.mem.get .dmAud i = p.2.getD i 0) ∧
        SameRamWhere (fun a => ¬ inWords .dmH1 h1.length a ∧ ¬ inWords .dmH2 h2.length a ∧
          ¬ inWords .dmAud p.2.length a) s t
      | .error reason =>
        ErrorRaised 0x06 reason s t ∧ t.dm.valid = s.dm.valid ∧
        t.dm.actMod = s.dm.actMod ∧ t.dm.actFs = s.dm.actFs ∧ t.dm.actTau = s.dm.actTau ∧
        t.dm.r1 = s.dm.r1 ∧ t.dm.r2 = s.dm.r2 ∧ t.dm.t1 = s.dm.t1 ∧ t.dm.t2 = s.dm.t2 ∧
        t.dm.fint = s.dm.fint ∧ t.dm.faud = s.dm.faud ∧ t.dm.c1 = s.dm.c1 ∧ t.dm.c2 = s.dm.c2 ∧
        t.dm.deemphA = s.dm.deemphA ∧
        (s.dm.valid = true →
          let p := processed start (s.mem.block .dmH1 s.dm.t1.toNat) (s.mem.block .dmH2 s.dm.t2.toNat)
          t.dm = finished p.1 p.2 ∧
          (∀ i, i < p.2.length → t.mem.get .dmAud i = p.2.getD i 0) ∧
          SameRamWhere (fun a => ¬ inWords .dmAud p.2.length a) s t) ∧
        (s.dm.valid = false → t.dm = finished start [] ∧ t.dm.audCount = 0 ∧ t.dm.audPeak = 0 ∧ SameRam s t)

/-- The tap counts a build uses, and the build check they decide (R302, R303, R494, R495): odd and at least 15; above
`FIR_TMAX` exactly from `R1 = 1024` on, where the build fails with reason 1; 33 and 15 taps for the second stage. -/
def Obligations.TapCountsAndLimit : Prop :=
  (∀ r, tapCount r % 2 = 1 ∧ 15 ≤ tapCount r ∧ (4096 < tapCount r ↔ 1024 ≤ r)) ∧
  tapCount 1 = 15 ∧ tapCount 4 = 17 ∧ tapCount 62 = 249 ∧ tapCount 1023 = 4093 ∧
  tapCount (stage2Factor 0) = 33 ∧ tapCount (stage2Factor 1) = 15 ∧
  (∀ mod fs tau, 1 ≤ stage1Factor mod fs ∧ (1024 ≤ stage1Factor mod fs → rebuildDesigns mod fs tau = .error 1))

/-- The SPEC commands on an idle engine are accepted (R201, R203, R204), `SP_POST` and `SP_STATS` where a window has been
generated: SPEC is busy with what the command latches, `SP_PREP` clears the three flags, nothing else changes. That the
hidden `sp.dcb_en` and `sp.alpha_act` do not change at the acceptance of `SP_PREP`, but at its completion, is the model's
reading (log 13). -/
def Obligations.SpecCommandsAccepted : Prop :=
  ∀ s, s.sp.pending = none →
    (∃ t, exec .spPrep s = .next t ∧
      t.sp = { s.sp with
        pending := some (.prep
          { n := s.sp.n, win := s.sp.win, dirtyN := s.sp.dirtyN, dirtyWin := s.sp.dirtyWin, resetPend := s.sp.resetPend,
            dcbEn := s.sp.ctrl.getLsbD 0, dcbAlpha := s.sp.dcbAlpha }),
        dirtyN := false, dirtyWin := false, resetPend := false } ∧
      (statusWord t).getLsbD 1 = true ∧
      t.dm = s.dm ∧ SameRam s t ∧ SameDone s t ∧ SameError s t ∧ SameHost s t) ∧
    (s.sp.valid = true →
      (∃ t, exec .spPost s = .next t ∧
        t.sp = { s.sp with
          pending := some (.post
            { avg := s.sp.avg, phEn := s.sp.ctrl.getLsbD 1, phRate := s.sp.phRate, phDt := s.sp.phDt }) } ∧
        (statusWord t).getLsbD 1 = true ∧
        t.dm = s.dm ∧ SameRam s t ∧ SameDone s t ∧ SameError s t ∧ SameHost s t) ∧
      (∃ t, exec .spStats s = .next t ∧ t.sp = { s.sp with pending := some .stats } ∧
        (statusWord t).getLsbD 1 = true ∧
        t.dm = s.dm ∧ SameRam s t ∧ SameDone s t ∧ SameError s t ∧ SameHost s t))

/-- The SPEC commands are rejected with `ENGINE_BUSY` while SPEC is busy, and `SP_POST` and `SP_STATS` with
`NOT_CONFIGURED` before the first window generation (R201, R378, R601); a rejected command has no other effect. -/
def Obligations.SpecCommandsRejected : Prop :=
  ∀ s,
    (s.sp.pending.isSome = true → ∀ p ∈ [(Instr.spPrep, 0x21#32), (.spPost, 0x22#32), (.spStats, 0x23#32)],
      ∃ t, exec p.1 s = .next t ∧ ErrorRaised 0x02 p.2 s t ∧ OnlyError s t) ∧
    (s.sp.pending = none → s.sp.valid = false → ∀ p ∈ [(Instr.spPost, 0x22#32), (.spStats, 0x23#32)],
      ∃ t, exec p.1 s = .next t ∧ ErrorRaised 0x08 p.2 s t ∧ OnlyError s t)

/-- `SP_PREP` (R381, R377, R383), accepted and completed by the step of SPEC scheduled next (the schedule is the model's
form, log 1; when `sp.dcb_en` and `sp.alpha_act` change is its reading, log 13): averaging, hold and DC blocker
cleared on a reset or a size change; the window, its correction and separation regenerated on a size or window change; the
first `N` samples, DC-blocked where enabled, times the window in `SP_WOUT`; every other byte and everything else as
before. -/
def Obligations.SpPrepResult : Prop :=
  ∀ s rest, s.sp.pending = none → legalFftSize s.sp.n = true → s.sp.actN.toNat ≤ 8192 → s.schedule = .spec :: rest →
    ∃ u t, exec .spPrep s = .next u ∧ step u = .next t ∧
      let clear := s.sp.resetPend || s.sp.dirtyN
      let regen := s.sp.dirtyN || s.sp.dirtyWin
      let size := (if regen then s.sp.n else s.sp.actN).toNat
      let table := if regen then windowTable s.sp.win size else s.mem.block .spWlut size
      let dcb := if clear then { xp := C32.zero, yp := C32.zero } else s.sp.dcb
      let samples := iqSamples s.mem .spIq size
      let p := if s.sp.ctrl.getLsbD 0 then dcbAll s.sp.dcbAlpha dcb samples else (dcb, samples)
      t.sp = { s.sp with
        dirtyN := false, dirtyWin := false, resetPend := false,
        emaInit := if clear then false else s.sp.emaInit, holdInit := if clear then false else s.sp.holdInit,
        dcb := p.1, dcbEn := s.sp.ctrl.getLsbD 0, alphaAct := s.sp.dcbAlpha,
        corr := if regen then fdiv one (fmul (table.foldl fadd posZero) (table.foldl fadd posZero)) else s.sp.corr,
        actN := if regen then s.sp.n else s.sp.actN, actWin := if regen then s.sp.win else s.sp.actWin,
        minSep := if regen then BitVec.ofNat 32 (minSeparation s.sp.win) else s.sp.minSep,
        valid := s.sp.valid || regen } ∧
      (∀ i, i < size → t.mem.get .spWout (2 * i) = fmul (p.2.getD i C32.zero).i (table.getD i 0) ∧
        t.mem.get .spWout (2 * i + 1) = fmul (p.2.getD i C32.zero).q (table.getD i 0)) ∧
      (regen = true → ∀ i, i < size → t.mem.get .spWlut i = windowValue s.sp.win size i) ∧
      SameRamWhere (fun a => ¬ inWords .spWout (2 * size) a ∧ ¬ (regen = true ∧ inWords .spWlut size a)) s t ∧
      t.spDone = true ∧ t.dmDone = s.dmDone ∧ t.frameNew = s.frameNew ∧
      t.dm = s.dm ∧ SameError s t ∧ t.irqEn = s.irqEn ∧ t.schedule = rest ∧ t.rdata = s.rdata

/-- `SP_POST` (R385, R386, R387, R390, R391), accepted and completed by the step of SPEC scheduled next (the schedule is the
model's form, log 1): the raw, display and
hold values of every bin, the frame counted and published; every other byte and everything else as before. -/
def Obligations.SpPostResult : Prop :=
  ∀ s rest, s.sp.pending = none → s.sp.valid = true → s.sp.actN.toNat ≤ 8192 → s.schedule = .spec :: rest →
    ∃ u t, exec .spPost s = .next u ∧ step u = .next t ∧
      (∀ k, k < s.sp.actN.toNat →
        let power := fmul (fmul (s.mem.get .spMag k) (s.mem.get .spMag k)) s.sp.corr
        let raw := if flt posZero power then pickMax (fmul ten (log10 power)) dbFloor else dbFloor
        let old := s.mem.get .spDisp k
        let disp := if 1 < s.sp.avg.toNat ∧ s.sp.emaInit = true then
            fadd old (fmul (fdiv one (f32OfNat s.sp.avg.toNat)) (fsub raw old)) else raw
        let hold := if s.sp.ctrl.getLsbD 1 = true ∧ s.sp.holdInit = true then
            pickMax (fsub (s.mem.get .spHold k) (fmul s.sp.phRate s.sp.phDt)) disp else disp
        t.mem.get .spRaw k = raw ∧ t.mem.get .spDisp k = disp ∧ t.mem.get .spHold k = hold) ∧
      SameRamWhere (fun a => ¬ inWords .spRaw s.sp.actN.toNat a ∧ ¬ inWords .spDisp s.sp.actN.toNat a ∧
        ¬ inWords .spHold s.sp.actN.toNat a) s t ∧
      t.sp = { s.sp with
        emaInit := true, holdInit := s.sp.ctrl.getLsbD 1,
        frameSeq := BitVec.ofNat 32 ((s.sp.frameSeq.toNat + 1) % 2 ^ 32) } ∧
      t.spDone = true ∧ t.frameNew = true ∧ t.dmDone = s.dmDone ∧
      t.dm = s.dm ∧ SameError s t ∧ t.irqEn = s.irqEn ∧ t.schedule = rest ∧ t.rdata = s.rdata

/-- `SP_STATS` (R440, R441, R447), accepted and completed by the step of SPEC scheduled next (the schedule is the model's
form, log 1): the statistics of the display
array in the result registers; no RAM and nothing else changes. -/
def Obligations.SpStatsResult : Prop :=
  ∀ s rest, s.sp.pending = none → s.sp.valid = true → s.schedule = .spec :: rest →
    ∃ u t, exec .spStats s = .next u ∧ step u = .next t ∧
      let d := s.mem.block .spDisp s.sp.actN.toNat
      let sep := s.sp.minSep.toNat
      let peaks := findPeaks d (fadd (median d) pkMargin) sep
      t.sp = { s.sp with
        stNoise := median d, stPeaks := peaks, stSnr := snrDb d peaks sep,
        stSfdr := if 2 ≤ peaks.length then
            fsub (peaks.getD 0 { bin := 0, pwr := 0 }).pwr (peaks.getD 1 { bin := 0, pwr := 0 }).pwr else posZero } ∧
      readReg t .stNpeaks = BitVec.ofNat 32 peaks.length ∧
      (∀ i, i < 8 → readReg t (.stPkBin i) = (if h : i < peaks.length then BitVec.ofNat 32 peaks[i].bin else 0) ∧
        readReg t (.stPkPwr i) = (if h : i < peaks.length then peaks[i].pwr else 0)) ∧
      SameRam s t ∧ t.spDone = true ∧ t.dmDone = s.dmDone ∧ t.frameNew = s.frameNew ∧
      t.dm = s.dm ∧ SameError s t ∧ t.irqEn = s.irqEn ∧ t.schedule = rest ∧ t.rdata = s.rdata

/-! ## The bus (spec/20_memory.md, spec/10_state.md) -/

/-- A HOST read (R103, R105, R106): the first check that applies decides; otherwise the value is returned. It changes
nothing but the error record. -/
def Obligations.HostReadOrder : Prop :=
  ∀ s off, ∃ t, takeStep (.read off) s = .next t ∧
    t.dm = s.dm ∧ t.sp = s.sp ∧ t.mem = s.mem ∧ SameDone s t ∧ t.irqEn = s.irqEn ∧ t.schedule = s.schedule ∧
    if off.toNat % 4 ≠ 0 then ErrorRaised 0x04 (off.setWidth 32) s t ∧ t.rdata = 0
    else
      match locate off.toNat with
      | none => ErrorRaised 0x03 (off.setWidth 32) s t ∧ t.rdata = 0
      | some place =>
        if accessOf place = .wo then SameError s t ∧ t.rdata = 0
        else if s.gated (accessOf place) = true then ErrorRaised 0x02 (off.setWidth 32) s t ∧ t.rdata = 0
        else SameError s t ∧ t.rdata = readTarget s place

/-- A HOST write at an offset other than `CMD`'s (R103, R105, R107): the first check that applies decides and discards the
write; otherwise the place's write rule is performed, and nothing else. -/
def Obligations.HostWriteOrder : Prop :=
  ∀ s off v, off ≠ 0x008 → ∃ t, takeStep (.write off v) s = .next t ∧
    if off.toNat % 4 ≠ 0 then ErrorRaised 0x04 (off.setWidth 32) s t ∧ OnlyError s t
    else
      match locate off.toNat with
      | none => ErrorRaised 0x03 (off.setWidth 32) s t ∧ OnlyError s t
      | some place =>
        if (accessOf place).readOnly = true then ErrorRaised 0x09 (off.setWidth 32) s t ∧ OnlyError s t
        else if s.gated (accessOf place) = true then ErrorRaised 0x02 (off.setWidth 32) s t ∧ OnlyError s t
        else if accessOf place = .cfg ∧ legalAt place v = false then
          ErrorRaised 0x05 (off.setWidth 32) s t ∧ OnlyError s t
        else t = writeTarget place v s

/-- The unmapped aligned offsets are the gaps of R104 and of the register map (R39, R47, R55, R57, R58). -/
def Obligations.UnmappedOffsets : Prop :=
  ∀ off, off < 2 ^ 19 → off % 4 = 0 →
    (locate off = none ↔ ∃ g ∈ [(0x02C, 0x0FF), (0x11C, 0x11F), (0x164, 0x1FF), (0x238, 0x23F), (0x250, 0x27F),
      (0x2C0, 0xFFFF), (0x18000, 0x1FFFF), (0x38000, 0x3FFFF), (0x4C000, 0x4FFFF)], g.1 ≤ off ∧ off ≤ g.2)

/-- A legal value written to a configuration register is stored, and read back (but for the reserved bits of `SP_CTRL`);
a rebuild register sets its own dirty flag, also when the value is unchanged (R32, R40 to R54). The two transactions
follow each other in the schedule (the model's form, log 1). -/
def Obligations.ConfigWriteReadsBack : Prop :=
  ∀ s off r v rest, locate off.toNat = some (.reg r) → off.toNat % 4 = 0 → regAccess r = .cfg → legalValue r v = true →
    s.schedule = .write off v :: .read off :: rest →
    ∃ u t, step s = .next u ∧ step u = .next t ∧ t.rdata = (if r = .spCtrl then v &&& 0x3 else v) ∧
      SameError s t ∧ SameDone s t ∧ t.mem = s.mem ∧ t.irqEn = s.irqEn ∧ t.schedule = rest ∧
      t.dm.withoutShadows = s.dm.withoutShadows ∧ t.sp.withoutShadows = s.sp.withoutShadows ∧
      t.dm.resetPend = s.dm.resetPend ∧ t.sp.resetPend = s.sp.resetPend ∧
      t.dm.dirtyMod = (s.dm.dirtyMod || decide (r = .dmMod)) ∧ t.dm.dirtyFs = (s.dm.dirtyFs || decide (r = .dmFs)) ∧
      t.dm.dirtyTau = (s.dm.dirtyTau || decide (r = .dmTau)) ∧ t.sp.dirtyN = (s.sp.dirtyN || decide (r = .spN)) ∧
      t.sp.dirtyWin = (s.sp.dirtyWin || decide (r = .spWin)) ∧
      ∀ q, q ≠ r → q ≠ .dmPend → q ≠ .spPend → readReg t q = readReg s q

/-- A word written to a RAM window the HOST may write, its engine idle, is read back, and every other byte is as before
(R104, R107, R117); so is a word written to `SP_CORR`, SPEC idle, whatever its value, and nothing else changes (R56). The
two transactions follow each other in the schedule (the model's form, log 1). -/
def Obligations.RamWriteReadsBack : Prop :=
  (∀ s off w a e v rest, locate off.toNat = some (.ram w a) → off.toNat % 4 = 0 → ramAccess w = .rwGated e →
    s.busy e = false → s.schedule = .write off v :: .read off :: rest →
    ∃ u t, step s = .next u ∧ step u = .next t ∧ t.rdata = v ∧ SameError s t ∧
      SameRamWhere (fun b => b < off.toNat ∨ off.toNat + 4 ≤ b) s t ∧
      t.dm = s.dm ∧ t.sp = s.sp ∧ SameDone s t ∧ t.irqEn = s.irqEn ∧ t.schedule = rest) ∧
  (∀ s v rest, s.sp.pending = none → s.schedule = .write 0x220 v :: .read 0x220 :: rest →
    ∃ u t, step s = .next u ∧ step u = .next t ∧ t.rdata = v ∧ t.sp = { s.sp with corr := v } ∧
      t.dm = s.dm ∧ t.mem = s.mem ∧ SameDone s t ∧ SameError s t ∧ t.irqEn = s.irqEn ∧ t.schedule = rest)

/-- R603: a `STATUS` write with bit 8 set clears the error record; reset clears it; no other step does. The done bits are
cleared by ones, the other bits are ignored (R35). -/
def Obligations.StatusWriteClears : Prop :=
  (∀ s v, ∃ t, takeStep (.write 0x00C v) s = .next t ∧
    t.dmDone = (s.dmDone && !v.getLsbD 4) ∧ t.spDone = (s.spDone && !v.getLsbD 5) ∧
    t.frameNew = (s.frameNew && !v.getLsbD 6) ∧
    (if v.getLsbD 8 = true then t.err = false ∧ t.errCode = 0 ∧ t.errInfo = 0 else SameError s t) ∧
    t.dm = s.dm ∧ t.sp = s.sp ∧ t.mem = s.mem ∧ SameHost s t) ∧
  (∀ s t, takeStep .reset s = .next t → t.err = false ∧ t.errCode = 0 ∧ t.errInfo = 0) ∧
  (∀ e s t, takeStep e s = .next t → s.err = true →
    SameError s t ∨ e = .reset ∨ e = .write cmdOffset 0x00000001 ∨
      ∃ v : Word, e = .write 0x00C v ∧ v.getLsbD 8 = true)

/-- R610: the interrupt is 1 exactly while some source is pending in `STATUS` and enabled in `IRQ_EN`; a write of 1 to its
`STATUS` bit clears a source, and a write of `IRQ_EN` stores the four enables and changes nothing else. -/
def Obligations.InterruptLevel : Prop :=
  (∀ s, irq s = true ↔
    ∃ i ∈ [4, 5, 6, 8], (readReg s .status).getLsbD i = true ∧ (readReg s .irqEn).getLsbD i = true) ∧
  irq State.reset = false ∧
  (∀ s v, ∃ t, takeStep (.write 0x00C v) s = .next t ∧ ∀ i ∈ [4, 5, 6, 8], v.getLsbD i = true →
    (readReg t .status).getLsbD i = false) ∧
  (∀ s v, ∃ t, takeStep (.write 0x010 v) s = .next t ∧ readReg t .irqEn = v &&& 0x00000170 ∧
    readReg t .status = readReg s .status ∧ t.dm = s.dm ∧ t.sp = s.sp ∧ t.mem = s.mem ∧ SameDone s t ∧ SameError s t ∧
    t.schedule = s.schedule ∧ t.rdata = s.rdata)

/-- R602: `raise Error(code, info)` keeps the first error since the last clear and changes nothing else. -/
def Obligations.FirstErrorKept : Prop :=
  ∀ c i s, ErrorRaised (errNumber c) i s (raise c i s) ∧ OnlyError s (raise c i s) ∧
    ∀ d j, raise d j (raise c i s) = raise c i s

/-! ## The engines together (spec/40_commands.md R205 to R208, spec/20_memory.md R111, R113) -/

/-- What a step of DEMOD may change (R111, R205, R208): its own registers and output windows, its done bit and the error
record; not the shadows, not the inputs, nothing of SPEC. An idle DEMOD has no step: it changes nothing (log 3). -/
def Obligations.DemodCompletionFrame : Prop :=
  ∀ s, RegistersLegal s → EnginesConsistent s → ∃ t, takeStep .demod s = .next t ∧
    (s.dm.pending = none → t = s) ∧
    (s.dm.pending.isSome = true → t.dmDone = true) ∧ t.dm.pending = none ∧
    t.dm.mod = s.dm.mod ∧ t.dm.fs = s.dm.fs ∧ t.dm.tau = s.dm.tau ∧ t.dm.tune = s.dm.tune ∧ t.dm.vol = s.dm.vol ∧
    t.dm.amAlpha = s.dm.amAlpha ∧ t.dm.dirtyMod = s.dm.dirtyMod ∧ t.dm.dirtyFs = s.dm.dirtyFs ∧
    t.dm.dirtyTau = s.dm.dirtyTau ∧ t.dm.resetPend = s.dm.resetPend ∧
    t.sp = s.sp ∧ t.spDone = s.spDone ∧ t.frameNew = s.frameNew ∧ SameHost s t ∧
    (SameError s t ∨ ∃ reason, ErrorRaised 0x06 reason s t) ∧
    SameRamWhere (fun a => dmRunOutputs.any (·.holds a) = false) s t

/-- What a step of SPEC may change (R111, R205, R208): its own registers, the output windows of its command and its done
bits; never the error record, the shadows, the inputs or anything of DEMOD. An idle SPEC has no step (log 3). -/
def Obligations.SpecCompletionFrame : Prop :=
  ∀ s, RegistersLegal s → EnginesConsistent s → ∃ t, takeStep .spec s = .next t ∧
    (s.sp.pending = none → t = s) ∧
    (s.sp.pending.isSome = true → t.spDone = true) ∧ t.sp.pending = none ∧
    t.frameNew = (s.frameNew || s.sp.pending.any publishes) ∧
    t.sp.n = s.sp.n ∧ t.sp.win = s.sp.win ∧ t.sp.avg = s.sp.avg ∧ t.sp.ctrl = s.sp.ctrl ∧ t.sp.phRate = s.sp.phRate ∧
    t.sp.phDt = s.sp.phDt ∧ t.sp.dcbAlpha = s.sp.dcbAlpha ∧ t.sp.dirtyN = s.sp.dirtyN ∧
    t.sp.dirtyWin = s.sp.dirtyWin ∧ t.sp.resetPend = s.sp.resetPend ∧
    t.dm = s.dm ∧ t.dmDone = s.dmDone ∧ SameHost s t ∧ SameError s t ∧
    SameRamWhere (fun a => ∀ c, s.sp.pending = some c →
      (match c with
        | .prep _ => spPrepOutputs
        | .post _ => spPostOutputs
        | .stats => []).any (·.holds a) = false) s t

/-- The completions of the two engines commute: every register, every hidden state and every byte is the same in either
order (R208). -/
def Obligations.CompletionsCommute : Prop :=
  ∀ s, RegistersLegal s → EnginesConsistent s → ∃ t1 t2 u1 u2,
    takeStep .demod s = .next t1 ∧ takeStep .spec t1 = .next u1 ∧
    takeStep .spec s = .next t2 ∧ takeStep .demod t2 = .next u2 ∧
    u1.dm = u2.dm ∧ u1.sp = u2.sp ∧ SameRam u1 u2 ∧ SameDone u1 u2 ∧ SameError u1 u2 ∧ SameHost u1 u2

/-- While DEMOD is busy no HOST transaction but a soft reset, and no step of SPEC, changes what its command reads or
writes, so the command's results are the same before and after such a step (R113, R206). -/
def Obligations.BusyDemodUndisturbed : Prop :=
  ∀ s t e, RegistersLegal s → EnginesConsistent s → s.dm.pending.isSome = true →
    e ≠ .demod → e ≠ .reset → e ≠ .write cmdOffset 0x00000001 → takeStep e s = .next t →
    t.dm.withoutShadows = s.dm.withoutShadows ∧ SameRamWhere (fun a => inDemodRam a = true) s t ∧
    ∃ s' t', takeStep .demod s = .next s' ∧ takeStep .demod t = .next t' ∧
      t'.dm.withoutShadows = s'.dm.withoutShadows ∧ SameRamWhere (fun a => inDemodRam a = true) s' t'

/-- The same of SPEC, whose inputs include the busy-gated `SP_CORR` (R113, R206). -/
def Obligations.BusySpecUndisturbed : Prop :=
  ∀ s t e, RegistersLegal s → EnginesConsistent s → s.sp.pending.isSome = true →
    e ≠ .spec → e ≠ .reset → e ≠ .write cmdOffset 0x00000001 → takeStep e s = .next t →
    t.sp.withoutShadows = s.sp.withoutShadows ∧ SameRamWhere (fun a => inSpecRam a = true) s t ∧
    ∃ s' t', takeStep .spec s = .next s' ∧ takeStep .spec t = .next t' ∧
      t'.sp.withoutShadows = s'.sp.withoutShadows ∧ SameRamWhere (fun a => inSpecRam a = true) s' t'

/-- Every accepted command completes after finitely many steps (R207, R712): the machine takes its scheduled steps, then
the completions of busy engines (the model's choice, log 2 and log 17), and rests with both engines idle. -/
def Obligations.EnginesComplete : Prop :=
  ∀ s, ∃ k t, k ≤ s.schedule.length + 2 ∧ Host.Core.run Sys2Proof.core k s = .next t ∧
    t.schedule = [] ∧ t.dm.pending = none ∧ t.sp.pending = none ∧ step t = .next t

/-! ## Filters (spec/42_filter_primitives.md) -/

/-- R308: `n` inputs to a decimating FIR from counter `c` give exactly `(c + n) / R` outputs and leave the counter
`(c + n) mod R`, real and complex. -/
def Obligations.FirOutputCount : Prop :=
  (∀ r t h (f : Fir F32) xs, f.cnt < r →
    (runStream (firPushR r t h) f xs).2.length = (f.cnt + xs.length) / r ∧
    (runStream (firPushR r t h) f xs).1.cnt = (f.cnt + xs.length) % r) ∧
  (∀ r t h (f : Fir C32) xs, f.cnt < r →
    (runStream (firPushC r t h) f xs).2.length = (f.cnt + xs.length) / r ∧
    (runStream (firPushC r t h) f xs).1.cnt = (f.cnt + xs.length) % r)

/-- From a cleared FIR of `T` taps and factor `R`, every `R`-th input gives the inner product of the coefficients with the
last `T` inputs, the newest first, zero before the first input; the other inputs give nothing; the complex form does so
for each component (R305, R306, R307). -/
def Obligations.FirOutputIsInnerProduct : Prop :=
  (∀ r t h xs x, 0 < r → 0 < t →
    (firPushR r t h (runStream (firPushR r t h) Fir.cleared xs).1 x).2 =
      if (xs.length + 1) % r = 0 then
        some (innerProduct h ((List.range t).map fun k => (x :: xs.reverse).getD k posZero))
      else none) ∧
  (∀ r t h xs x, 0 < r → 0 < t →
    (firPushC r t h (runStream (firPushC r t h) Fir.cleared xs).1 x).2 =
      if (xs.length + 1) % r = 0 then
        some { i := innerProduct h ((List.range t).map fun k => ((x :: xs.reverse).getD k C32.zero).i),
               q := innerProduct h ((List.range t).map fun k => ((x :: xs.reverse).getD k C32.zero).q) }
      else none)

/-- R501, R502: how many audio samples a run of `n` samples gives from given filter counters, and that a stream split into
two runs gives the audio of one run over the whole. -/
def Obligations.AudioStream : Prop :=
  ∀ h1 h2 d xs, d.fir1.cnt < d.r1.toNat → d.fir2.cnt < d.r2.toNat →
    (processAll h1 h2 d xs).2.length =
      (d.fir2.cnt + (d.fir1.cnt + xs.length) / d.r1.toNat) / d.r2.toNat ∧
    (processAll h1 h2 d xs).1.fir1.cnt = (d.fir1.cnt + xs.length) % d.r1.toNat ∧
    (processAll h1 h2 d xs).1.fir2.cnt = (d.fir2.cnt + (d.fir1.cnt + xs.length) / d.r1.toNat) % d.r2.toNat ∧
    ∀ ys, processAll h1 h2 d (xs ++ ys) =
      ((processAll h1 h2 (processAll h1 h2 d xs).1 ys).1,
       (processAll h1 h2 d xs).2 ++ (processAll h1 h2 (processAll h1 h2 d xs).1 ys).2)

/-- R325, for finite components: at phase `+0` and increment `±0` the mixer returns its input bit for bit, no component
being `-0`, and the phase stays `+0`. (An infinite component gives NaN, R322.) -/
def Obligations.NcoIdentity : Prop :=
  ∀ x : C32, isFinite x.i = true → isFinite x.q = true → x.i ≠ negZero → x.q ≠ negZero →
    rotate posZero x = x ∧ ncoAdvance posZero posZero = posZero ∧ ncoAdvance posZero negZero = posZero

/-- R323: from a phase in `(-PI_F32, PI_F32]` and an increment of at most `PI_F32`, the sum lies within `TWO_PI_F32`, each
wrap is exact and lands where the rule says, and the new phase is in `(-PI_F32, PI_F32]`. -/
def Obligations.PhaseStaysWrapped : Prop :=
  ∀ phase inc, flt (fneg piF32) phase = true → fle phase piF32 = true →
    fle (fneg piF32) inc = true → fle inc piF32 = true →
    let p := fadd phase inc
    fle (fneg twoPiF32) p = true ∧ fle p twoPiF32 = true ∧
    (flt piF32 p = true → value (fsub p twoPiF32) = value p - value twoPiF32 ∧
      flt (fneg piF32) (fsub p twoPiF32) = true ∧ fle (fsub p twoPiF32) posZero = true) ∧
    (fle p (fneg piF32) = true → value (fadd p twoPiF32) = value p + value twoPiF32 ∧
      fle posZero (fadd p twoPiF32) = true ∧ fle (fadd p twoPiF32) piF32 = true) ∧
    flt (fneg piF32) (ncoAdvance phase inc) = true ∧ fle (ncoAdvance phase inc) piF32 = true

/-- The de-emphasis coefficient of a positive finite rate and time constant is in `[+0, 1]` (R326), for every instance of
`EXP32` (log 9). -/
def Obligations.DeemphasisCoefficientRange : Prop :=
  ∀ rate tau, finitePositive rate = true → finitePositive tau = true →
    fle posZero (deemphCoef rate tau) = true ∧ fle (deemphCoef rate tau) one = true ∧
    signBit (deemphCoef rate tau) = false

/-- The discriminator (R510): `+0` against a cleared previous sample, for a finite sample; an angle in
`[-PI_F32, PI_F32]` whenever neither component of the product is NaN, infinite ones included (but for a step of exactly
pi, the value in that range is then free, log 10); the canonical NaN when one is; and for a step of exactly pi, `im` zero
and `re` negative, infinite too, `PI_F32` with the sign of `im`. -/
def Obligations.DiscriminatorRange : Prop :=
  (∀ z : C32, isFinite z.i = true → isFinite z.q = true → disc z C32.zero = posZero) ∧
  (∀ z p : C32, isNaN (fadd (fmul z.i p.i) (fmul z.q p.q)) = false →
    isNaN (fsub (fmul z.q p.i) (fmul z.i p.q)) = false →
    fle (fneg piF32) (disc z p) = true ∧ fle (disc z p) piF32 = true) ∧
  (∀ z p : C32,
    (isNaN (fadd (fmul z.i p.i) (fmul z.q p.q)) = true ∨ isNaN (fsub (fmul z.q p.i) (fmul z.i p.q)) = true) →
    disc z p = qNaN) ∧
  (∀ z p : C32, flt (fadd (fmul z.i p.i) (fmul z.q p.q)) posZero = true →
    isZero (fsub (fmul z.q p.i) (fmul z.i p.q)) = true →
    disc z p = if signBit (fsub (fmul z.q p.i) (fmul z.i p.q)) then fneg piF32 else piF32)

/-- R505: the level meter is `+0` or the magnitude of a sample, and no number among the samples is larger in magnitude; a
NaN sample never reaches it. -/
def Obligations.MeterIsLargest : Prop :=
  ∀ audio : List F32,
    (peakMeter audio = posZero ∨ ∃ v ∈ audio, peakMeter audio = fabs v) ∧
    isNaN (peakMeter audio) = false ∧
    (∀ v ∈ audio, isNaN v = false → fle (fabs v) (peakMeter audio) = true)

/-! ## Spectrum (spec/43_spectrum.md) -/

/-- With window `none` (R300, R374, R377, R381): the table is ones, the correction is exactly `1 / N^2`, and the windowed
words of an IQ8 sample are exactly `(i/128, q/128)`. -/
def Obligations.NoneWindowIsExact : Prop :=
  (∀ n, legalFftSize n = true →
    windowTable 0 n.toNat = List.replicate n.toNat one ∧
    isFinite (coherentCorrection (windowTable 0 n.toNat)) = true ∧
    value (coherentCorrection (windowTable 0 n.toNat)) * (n.toNat * n.toNat : Nat) = 2 ^ 149) ∧
  (∀ i q : Byte, windowed (norm i q) one = [(norm i q).i, (norm i q).q] ∧
    isFinite (norm i q).i = true ∧ value (norm i q).i * 128 = i.toInt * 2 ^ 149 ∧
    isFinite (norm i q).q = true ∧ value (norm i q).q * 128 = q.toInt * 2 ^ 149 ∧
    (norm i q).i ≠ negZero ∧ (norm i q).q ≠ negZero)

/-- The dB of a bin (R385) is a number not below -120; and at a positive finite correction it does not fall when the
magnitude rises, for every instance of `LOG10_32` (R265, log 9). -/
def Obligations.DecibelFloorAndOrder : Prop :=
  (∀ corr m, fle dbFloor (magnitudeDb corr m) = true) ∧
  (∀ corr m1 m2, finitePositive corr = true → fle posZero m1 = true → fle m1 m2 = true →
    fle (magnitudeDb corr m1) (magnitudeDb corr m2) = true)

/-- R396: averaging a bin with its own finite value, and holding it with no decay, leaves the value. -/
def Obligations.AverageAndHoldSettle : Prop :=
  ∀ r, isFinite r = true →
    (∀ avg ema, feq (averaged avg ema r r) r = true) ∧
    (∀ phEn hold dec, feq dec posZero = true → held phEn hold dec r r = r)

/-! ## Statistics (spec/44_statistics.md) -/

/-- R443: the sort keeps the values, orders numbers by value with every NaN after them, keeps equal keys in order, and the
median is its entry at `N / 2`, a value of the frame. -/
def Obligations.MedianIsUpperMiddle : Prop :=
  ∀ d : List F32, d ≠ [] →
    (sortAscending d).Perm d ∧
    (sortAscending d).Pairwise (fun a b => isNaN b = true ∨ fle a b = true) ∧
    (∀ x, (sortAscending d).filter (fun y => !sortsBefore x y && !sortsBefore y x) =
      d.filter (fun y => !sortsBefore x y && !sortsBefore y x)) ∧
    (sortAscending d)[d.length / 2]? = some (median d) ∧ median d ∈ d

/-- Every peak found (R444, R445, R446) is a bin above the threshold, above its left neighbour and not below its right one,
with its power; at most 8, none weaker than a later one; any two at least `sep` bins apart. -/
def Obligations.PeaksAreSeparatedMaxima : Prop :=
  ∀ d thr sep,
    (∀ p ∈ findPeaks d thr sep, 1 ≤ p.bin ∧ p.bin + 2 ≤ d.length ∧ p.pwr = d.getD p.bin 0 ∧ flt thr p.pwr = true ∧
      flt (d.getD (p.bin - 1) 0) p.pwr = true ∧ fle (d.getD (p.bin + 1) 0) p.pwr = true) ∧
    (findPeaks d thr sep).length ≤ 8 ∧
    (findPeaks d thr sep).Pairwise (fun p q => fle q.pwr p.pwr = true ∧
      (p.bin + sep ≤ q.bin ∨ q.bin + sep ≤ p.bin) ∧ p.bin ≠ q.bin)

/-- The left-to-right scan of R445 accepts a candidate of R444 exactly when every bin it has accepted before is at least
`sep` bins away. Every accepted bin is listed with its power, or lost to 8 peaks that are each not weaker (R446); only
accepted bins are listed; among equal powers the earlier bin comes first. With `sep` at most 2 every candidate is
accepted. -/
def Obligations.StrongestPeaksKept : Prop :=
  ∀ d thr sep,
    let peaks := findPeaks d thr sep
    let candidates := fun k => 1 ≤ k ∧ k + 2 ≤ d.length ∧ flt thr (d.getD k 0) = true ∧
      flt (d.getD (k - 1) 0) (d.getD k 0) = true ∧ fle (d.getD (k + 1) 0) (d.getD k 0) = true
    (∃ accepted : List Nat,
      (∀ k, k ∈ accepted ↔ candidates k ∧ ∀ l ∈ accepted, l < k → l + sep ≤ k) ∧
      (∀ k ∈ accepted, { bin := k, pwr := d.getD k 0 } ∈ peaks ∨
        peaks.length = 8 ∧ ∀ p ∈ peaks, fle (d.getD k 0) p.pwr = true) ∧
      (∀ p ∈ peaks, p.bin ∈ accepted) ∧
      (sep ≤ 2 → ∀ k, candidates k → k ∈ accepted)) ∧
    peaks.Pairwise (fun p q => flt q.pwr p.pwr = true ∨ p.bin < q.bin)

/-- R450: a flat spectrum with one peak 20 dB above it, for every instance of the parameter functions. -/
def Obligations.FlatSpectrumOnePeak : Prop :=
  ∀ d : List F32, d = List.replicate 10 0x00000000 ++ 0x41A00000 :: List.replicate 53 0x00000000 →
    median d = 0 ∧ fadd (median d) pkMargin = 0x40C00000 ∧
    findPeaks d 0x40C00000 1 = [{ bin := 10, pwr := 0x41A00000 }] ∧
    sfdr [{ bin := 10, pwr := 0x41A00000 }] = 0 ∧
    (farBins d.length 10 1).length = 61 ∧ farPower d 10 1 = 0x42740000 ∧
    snrDb d [{ bin := 10, pwr := 0x41A00000 }] 1 = 0x41A00000

/-! ## Numerics (spec/41_numerics.md) -/

/-- Addition, subtraction, multiplication and division of finite values are the exact results rounded to nearest, ties to
even, subnormals included, overflowing to infinity (R251, R252, R254); a zero sum is `-0` only as a sum of two `-0`, and a
product or quotient that is no NaN has the XOR of the signs, zero and infinite ones too (R254, R255); a non-zero value
over a zero is infinite, and an infinite operand gives an infinity, or a zero as divisor, where it gives no NaN (R251). -/
def Obligations.ArithmeticRoundsToNearest : Prop :=
  (∀ a b, isFinite a = true → isFinite b = true →
    RoundsTo (value a + value b) 1 (fadd a b) ∧
    RoundsTo (value a - value b) 1 (fsub a b) ∧
    RoundsTo (value a * value b) (2 ^ 149) (fmul a b) ∧
    (isZero b = false →
      RoundsTo (if signBit b then -(value a * 2 ^ 149) else value a * 2 ^ 149) (units b) (fdiv a b)) ∧
    (isZero a = false → isZero b = true → isInf (fdiv a b) = true) ∧
    (isZero (fadd a b) = true → signBit (fadd a b) = (signBit a && signBit b)) ∧
    (isZero (fsub a b) = true → signBit (fsub a b) = (signBit a && !signBit b))) ∧
  (∀ a b,
    (isNaN (fmul a b) = false → signBit (fmul a b) = (signBit a != signBit b)) ∧
    (isNaN (fdiv a b) = false → signBit (fdiv a b) = (signBit a != signBit b))) ∧
  (∀ a b, isInf a = true →
    fadd a a = a ∧ fsub a (fneg a) = a ∧
    (isFinite b = true → fadd a b = a ∧ fadd b a = a ∧ fsub a b = a ∧ fsub b a = fneg a ∧
      isInf (fdiv a b) = true ∧ isZero (fdiv b a) = true) ∧
    (isNaN b = false → isZero b = false → isInf (fmul a b) = true ∧ isInf (fmul b a) = true))

/-- The square root of a positive finite value is finite and no finite value is nearer to the exact root (R251, R260); the
roots of the zeros and of infinity are themselves. -/
def Obligations.SquareRootRoundsToNearest : Prop :=
  (∀ a, isFinite a = true → flt posZero a = true →
    isFinite (fsqrt a) = true ∧ fle posZero (fsqrt a) = true ∧
    ∀ f, isFinite f = true → fle posZero f = true →
      (value (fsqrt a) < value f → 4 * (value a * 2 ^ 149) ≤ (value (fsqrt a) + value f) ^ 2) ∧
      (value f < value (fsqrt a) → (value (fsqrt a) + value f) ^ 2 ≤ 4 * (value a * 2 ^ 149))) ∧
  fsqrt posZero = posZero ∧ fsqrt negZero = negZero ∧ fsqrt posInf = posInf

/-- R253: every NaN an operation produces is the canonical one, and the operations produce it where the rule says. -/
def Obligations.NanIsCanonical : Prop :=
  (∀ a b, (isNaN a = true ∨ isNaN b = true) →
    fadd a b = qNaN ∧ fsub a b = qNaN ∧ fmul a b = qNaN ∧ fdiv a b = qNaN ∧ atan2 a b = qNaN) ∧
  (∀ a, isNaN a = true →
    fsqrt a = qNaN ∧ sin32 a = qNaN ∧ cos32 a = qNaN ∧ exp32 a = qNaN ∧ log10 a = qNaN ∧ pow10 a = qNaN) ∧
  (∀ a b, (isNaN (fadd a b) = true → fadd a b = qNaN) ∧ (isNaN (fsub a b) = true → fsub a b = qNaN) ∧
    (isNaN (fmul a b) = true → fmul a b = qNaN) ∧ (isNaN (fdiv a b) = true → fdiv a b = qNaN) ∧
    (isNaN (atan2 a b) = true → atan2 a b = qNaN)) ∧
  (∀ a, (isNaN (fsqrt a) = true → fsqrt a = qNaN) ∧ (isNaN (sin32 a) = true → sin32 a = qNaN) ∧
    (isNaN (cos32 a) = true → cos32 a = qNaN) ∧ (isNaN (exp32 a) = true → exp32 a = qNaN) ∧
    (isNaN (log10 a) = true → log10 a = qNaN) ∧ (isNaN (pow10 a) = true → pow10 a = qNaN)) ∧
  (∀ a b, isZero a = true → isZero b = true → fdiv a b = qNaN) ∧
  (∀ a, isInf a = true → fsub a a = qNaN ∧ fadd a (fneg a) = qNaN) ∧
  (∀ a b, isZero a = true → isInf b = true → fmul a b = qNaN ∧ fmul b a = qNaN) ∧
  (∀ a, signBit a = true → isZero a = false → fsqrt a = qNaN)

/-- The required properties R262 and R263, whatever instance the free constants choose. -/
def Obligations.AngleFunctionProperties : Prop :=
  (sin32 posZero = posZero ∧ sin32 negZero = negZero ∧ cos32 posZero = one ∧ cos32 negZero = one) ∧
  (∀ x, isFinite x = true → fle (fneg one) (sin32 x) = true ∧ fle (sin32 x) one = true ∧
    fle (fneg one) (cos32 x) = true ∧ fle (cos32 x) one = true ∧
    sin32 (fneg x) = fneg (sin32 x) ∧ cos32 (fneg x) = cos32 x) ∧
  (∀ x, isFinite x = false → sin32 x = qNaN ∧ cos32 x = qNaN) ∧
  (∀ x, finitePositive x = true → atan2 posZero x = posZero ∧ atan2 negZero x = negZero ∧
    atan2 posZero (fneg x) = piF32 ∧ atan2 negZero (fneg x) = fneg piF32 ∧
    atan2 x posZero = 0x3FC90FDB ∧ atan2 x negZero = 0x3FC90FDB ∧
    atan2 (fneg x) posZero = 0xBFC90FDB ∧ atan2 (fneg x) negZero = 0xBFC90FDB ∧ atan2 x x = 0x3F490FDB) ∧
  (∀ y x, isFinite y = true → isFinite x = true → (isZero y = false ∨ isZero x = false) →
    fle (fneg piF32) (atan2 y x) = true ∧ fle (atan2 y x) piF32 = true ∧ atan2 (fneg y) x = fneg (atan2 y x)) ∧
  (∀ y x, (isNaN y = true ∨ isNaN x = true) → atan2 y x = qNaN)

/-- The required properties R264, R265 and R266, whatever instance the free constants choose. R265's "exactly when" is
read as the exact value at each power `10^0` to `10^10`, and not as its converse: the model's choice (log 9). -/
def Obligations.MonotoneFunctionProperties : Prop :=
  (exp32 posZero = one ∧ exp32 negZero = one ∧ exp32 (fneg posInf) = posZero ∧ exp32 posInf = posInf ∧
    (∀ x, isNaN x = true → exp32 x = qNaN) ∧
    (∀ x, isFinite x = true → fle x posZero = true → fle posZero (exp32 x) = true ∧ fle (exp32 x) one = true) ∧
    (∀ x y, fle x y = true → fle (exp32 x) (exp32 y) = true)) ∧
  ((∀ k, k ≤ 10 → log10 (f32OfNat (10 ^ k)) = f32OfNat k) ∧ log10 posInf = posInf ∧
    (∀ x, finitePositive x = true → isFinite (log10 x) = true) ∧
    (∀ x y, flt posZero x = true → fle x y = true → fle (log10 x) (log10 y) = true)) ∧
  (pow10 posZero = one ∧ pow10 negZero = one ∧ (∀ k, 1 ≤ k → k ≤ 10 → pow10 (f32OfNat k) = f32OfNat (10 ^ k)) ∧
    pow10 (fneg posInf) = posZero ∧ pow10 posInf = posInf ∧ (∀ x, isNaN x = true → pow10 x = qNaN) ∧
    (∀ x, isNaN x = false → fle posZero (pow10 x) = true) ∧
    (∀ x y, fle x y = true → fle (pow10 x) (pow10 y) = true))

/-! ## Invariants -/

/-- The invariant holds right after reset. -/
def Obligations.InvariantHoldsAtReset : Prop := Inv State.reset

/-- Every step keeps the memory's canonical form (log 6). -/
def Obligations.MemoryStaysCanonical : Prop :=
  ∀ s t, s.mem.wf = true → step s = .next t → t.mem.wf = true

/-- Every step keeps every configuration register, every latched copy, the interrupt enables and the error record legal
(R32, R36, R37, R40 to R54, R204, R601). -/
def Obligations.RegistersStayLegal : Prop :=
  ∀ s t, RegistersLegal s → step s = .next t → RegistersLegal t

/-- Every step keeps both engines in agreement with their active configuration (R301, R377, R378, R446, R494, R502). -/
def Obligations.EnginesStayConsistent : Prop :=
  ∀ s t, RegistersLegal s → EnginesConsistent s → step s = .next t → EnginesConsistent t

/-- Every step keeps the phase in `(-PI_F32, PI_F32]` and the increment in `[-PI_F32, PI_F32]` (R59, R320, R321, R500). -/
def Obligations.NcoStaysInRange : Prop :=
  ∀ s t, RegistersLegal s → EnginesConsistent s → NcoInRange s → step s = .next t → NcoInRange t

/-! ## The chain of one sample (spec/45_demodulator.md R501) -/

/-- One sample through the chain of R501, for both kinds: mixer and phase advance (R322), stage 1 (R307), discriminator
(R510) or envelope and DC blocker (R511, R330), stage 2 (R306), de-emphasis for FM only (R327), volume. It writes what
these steps write and nothing else. A run takes its samples one after another, oldest first. -/
def Obligations.SampleChain : Prop :=
  (∀ h1 h2 d x, d.actMod = 0 ∨ d.actMod = 1 →
    let c := cos32 d.ncoPhase
    let s := sin32 d.ncoPhase
    let mixed : C32 := { i := fsub (fmul x.i c) (fmul x.q s), q := fadd (fmul x.i s) (fmul x.q c) }
    let sum := fadd d.ncoPhase d.ncoInc
    let stage1 := firPushC d.r1.toNat d.t1.toNat h1 d.fir1 mixed
    let d1 := { d with
      ncoPhase := if flt piF32 sum then fsub sum twoPiF32
        else if fle sum (fneg piF32) then fadd sum twoPiF32 else sum,
      fir1 := stage1.1 }
    (stage1.2 = none → processSample h1 h2 d x = (d1, none)) ∧
    ∀ z, stage1.2 = some z →
      let re := fadd (fmul z.i d.discPrev.i) (fmul z.q d.discPrev.q)
      let im := fsub (fmul z.q d.discPrev.i) (fmul z.i d.discPrev.q)
      let angle := if feq re posZero = true ∧ feq im posZero = true then posZero else atan2 im re
      let e := fsqrt (fadd (fmul z.i z.i) (fmul z.q z.q))
      let blocked := fadd (fsub e d.amDcb.xp) (fmul d.alphaAct d.amDcb.yp)
      let stage2 := firPushR d.r2.toNat d.t2.toNat h2 d.fir2 (if d.actMod = 0 then angle else blocked)
      let d2 := if d.actMod = 0 then { d1 with discPrev := z, fir2 := stage2.1 }
        else { d1 with amDcb := { xp := e, yp := blocked }, fir2 := stage2.1 }
      (stage2.2 = none → processSample h1 h2 d x = (d2, none)) ∧
      ∀ v, stage2.2 = some v →
        let y := fadd d.deYp (fmul d.deemphA (fsub v d.deYp))
        processSample h1 h2 d x =
          if d.actMod = 0 then ({ d2 with deYp := y }, some (fmul y d.volAct)) else (d2, some (fmul v d.volAct))) ∧
  (∀ h1 h2 d, processAll h1 h2 d [] = (d, [])) ∧
  (∀ h1 h2 d x xs,
    let p := processSample h1 h2 d x
    let r := processAll h1 h2 p.1 xs
    processAll h1 h2 d (x :: xs) = (r.1, p.2.toList ++ r.2))

end
end

