-- ==== Sys2Proof/Laws/State.lean ====
section
/-! SUPPORT. One lemma per field per update of a state, so that no proof unfolds a record update. -/

namespace Sys2Proof.Machine

variable (s : State)

@[simp] theorem setSchedule_schedule (l : List Event) : (s.setSchedule l).schedule = l := rfl
@[simp] theorem setSchedule_rdata (l : List Event) : (s.setSchedule l).rdata = s.rdata := rfl
@[simp] theorem setSchedule_mem (l : List Event) : (s.setSchedule l).mem = s.mem := rfl
@[simp] theorem setSchedule_dm (l : List Event) : (s.setSchedule l).dm = s.dm := rfl
@[simp] theorem setSchedule_sp (l : List Event) : (s.setSchedule l).sp = s.sp := rfl
@[simp] theorem setSchedule_dmDone (l : List Event) : (s.setSchedule l).dmDone = s.dmDone := rfl
@[simp] theorem setSchedule_spDone (l : List Event) : (s.setSchedule l).spDone = s.spDone := rfl
@[simp] theorem setSchedule_frameNew (l : List Event) : (s.setSchedule l).frameNew = s.frameNew := rfl
@[simp] theorem setSchedule_err (l : List Event) : (s.setSchedule l).err = s.err := rfl
@[simp] theorem setSchedule_errCode (l : List Event) : (s.setSchedule l).errCode = s.errCode := rfl
@[simp] theorem setSchedule_errInfo (l : List Event) : (s.setSchedule l).errInfo = s.errInfo := rfl
@[simp] theorem setSchedule_irqEn (l : List Event) : (s.setSchedule l).irqEn = s.irqEn := rfl

@[simp] theorem setRdata_schedule (v : Word) : (s.setRdata v).schedule = s.schedule := rfl
@[simp] theorem setRdata_rdata (v : Word) : (s.setRdata v).rdata = v := rfl
@[simp] theorem setRdata_mem (v : Word) : (s.setRdata v).mem = s.mem := rfl
@[simp] theorem setRdata_dm (v : Word) : (s.setRdata v).dm = s.dm := rfl
@[simp] theorem setRdata_sp (v : Word) : (s.setRdata v).sp = s.sp := rfl
@[simp] theorem setRdata_dmDone (v : Word) : (s.setRdata v).dmDone = s.dmDone := rfl
@[simp] theorem setRdata_spDone (v : Word) : (s.setRdata v).spDone = s.spDone := rfl
@[simp] theorem setRdata_frameNew (v : Word) : (s.setRdata v).frameNew = s.frameNew := rfl
@[simp] theorem setRdata_err (v : Word) : (s.setRdata v).err = s.err := rfl
@[simp] theorem setRdata_errCode (v : Word) : (s.setRdata v).errCode = s.errCode := rfl
@[simp] theorem setRdata_errInfo (v : Word) : (s.setRdata v).errInfo = s.errInfo := rfl
@[simp] theorem setRdata_irqEn (v : Word) : (s.setRdata v).irqEn = s.irqEn := rfl

@[simp] theorem setMem_schedule (m : Memory) : (s.setMem m).schedule = s.schedule := rfl
@[simp] theorem setMem_rdata (m : Memory) : (s.setMem m).rdata = s.rdata := rfl
@[simp] theorem setMem_mem (m : Memory) : (s.setMem m).mem = m := rfl
@[simp] theorem setMem_dm (m : Memory) : (s.setMem m).dm = s.dm := rfl
@[simp] theorem setMem_sp (m : Memory) : (s.setMem m).sp = s.sp := rfl
@[simp] theorem setMem_dmDone (m : Memory) : (s.setMem m).dmDone = s.dmDone := rfl
@[simp] theorem setMem_spDone (m : Memory) : (s.setMem m).spDone = s.spDone := rfl
@[simp] theorem setMem_frameNew (m : Memory) : (s.setMem m).frameNew = s.frameNew := rfl
@[simp] theorem setMem_err (m : Memory) : (s.setMem m).err = s.err := rfl
@[simp] theorem setMem_errCode (m : Memory) : (s.setMem m).errCode = s.errCode := rfl
@[simp] theorem setMem_errInfo (m : Memory) : (s.setMem m).errInfo = s.errInfo := rfl
@[simp] theorem setMem_irqEn (m : Memory) : (s.setMem m).irqEn = s.irqEn := rfl

@[simp] theorem setDm_schedule (d : Demod) : (s.setDm d).schedule = s.schedule := rfl
@[simp] theorem setDm_rdata (d : Demod) : (s.setDm d).rdata = s.rdata := rfl
@[simp] theorem setDm_mem (d : Demod) : (s.setDm d).mem = s.mem := rfl
@[simp] theorem setDm_dm (d : Demod) : (s.setDm d).dm = d := rfl
@[simp] theorem setDm_sp (d : Demod) : (s.setDm d).sp = s.sp := rfl
@[simp] theorem setDm_dmDone (d : Demod) : (s.setDm d).dmDone = s.dmDone := rfl
@[simp] theorem setDm_spDone (d : Demod) : (s.setDm d).spDone = s.spDone := rfl
@[simp] theorem setDm_frameNew (d : Demod) : (s.setDm d).frameNew = s.frameNew := rfl
@[simp] theorem setDm_err (d : Demod) : (s.setDm d).err = s.err := rfl
@[simp] theorem setDm_errCode (d : Demod) : (s.setDm d).errCode = s.errCode := rfl
@[simp] theorem setDm_errInfo (d : Demod) : (s.setDm d).errInfo = s.errInfo := rfl
@[simp] theorem setDm_irqEn (d : Demod) : (s.setDm d).irqEn = s.irqEn := rfl

@[simp] theorem setSp_schedule (e : Spec) : (s.setSp e).schedule = s.schedule := rfl
@[simp] theorem setSp_rdata (e : Spec) : (s.setSp e).rdata = s.rdata := rfl
@[simp] theorem setSp_mem (e : Spec) : (s.setSp e).mem = s.mem := rfl
@[simp] theorem setSp_dm (e : Spec) : (s.setSp e).dm = s.dm := rfl
@[simp] theorem setSp_sp (e : Spec) : (s.setSp e).sp = e := rfl
@[simp] theorem setSp_dmDone (e : Spec) : (s.setSp e).dmDone = s.dmDone := rfl
@[simp] theorem setSp_spDone (e : Spec) : (s.setSp e).spDone = s.spDone := rfl
@[simp] theorem setSp_frameNew (e : Spec) : (s.setSp e).frameNew = s.frameNew := rfl
@[simp] theorem setSp_err (e : Spec) : (s.setSp e).err = s.err := rfl
@[simp] theorem setSp_errCode (e : Spec) : (s.setSp e).errCode = s.errCode := rfl
@[simp] theorem setSp_errInfo (e : Spec) : (s.setSp e).errInfo = s.errInfo := rfl
@[simp] theorem setSp_irqEn (e : Spec) : (s.setSp e).irqEn = s.irqEn := rfl

@[simp] theorem setErr_schedule (e : Bool) (c : BitVec 8) (i : Word) : (s.setErr e c i).schedule = s.schedule := rfl
@[simp] theorem setErr_rdata (e : Bool) (c : BitVec 8) (i : Word) : (s.setErr e c i).rdata = s.rdata := rfl
@[simp] theorem setErr_mem (e : Bool) (c : BitVec 8) (i : Word) : (s.setErr e c i).mem = s.mem := rfl
@[simp] theorem setErr_dm (e : Bool) (c : BitVec 8) (i : Word) : (s.setErr e c i).dm = s.dm := rfl
@[simp] theorem setErr_sp (e : Bool) (c : BitVec 8) (i : Word) : (s.setErr e c i).sp = s.sp := rfl
@[simp] theorem setErr_dmDone (e : Bool) (c : BitVec 8) (i : Word) : (s.setErr e c i).dmDone = s.dmDone := rfl
@[simp] theorem setErr_spDone (e : Bool) (c : BitVec 8) (i : Word) : (s.setErr e c i).spDone = s.spDone := rfl
@[simp] theorem setErr_frameNew (e : Bool) (c : BitVec 8) (i : Word) : (s.setErr e c i).frameNew = s.frameNew := rfl
@[simp] theorem setErr_err (e : Bool) (c : BitVec 8) (i : Word) : (s.setErr e c i).err = e := rfl
@[simp] theorem setErr_errCode (e : Bool) (c : BitVec 8) (i : Word) : (s.setErr e c i).errCode = c := rfl
@[simp] theorem setErr_errInfo (e : Bool) (c : BitVec 8) (i : Word) : (s.setErr e c i).errInfo = i := rfl
@[simp] theorem setErr_irqEn (e : Bool) (c : BitVec 8) (i : Word) : (s.setErr e c i).irqEn = s.irqEn := rfl

@[simp] theorem setDone_schedule (d p f : Bool) : (s.setDone d p f).schedule = s.schedule := rfl
@[simp] theorem setDone_rdata (d p f : Bool) : (s.setDone d p f).rdata = s.rdata := rfl
@[simp] theorem setDone_mem (d p f : Bool) : (s.setDone d p f).mem = s.mem := rfl
@[simp] theorem setDone_dm (d p f : Bool) : (s.setDone d p f).dm = s.dm := rfl
@[simp] theorem setDone_sp (d p f : Bool) : (s.setDone d p f).sp = s.sp := rfl
@[simp] theorem setDone_dmDone (d p f : Bool) : (s.setDone d p f).dmDone = d := rfl
@[simp] theorem setDone_spDone (d p f : Bool) : (s.setDone d p f).spDone = p := rfl
@[simp] theorem setDone_frameNew (d p f : Bool) : (s.setDone d p f).frameNew = f := rfl
@[simp] theorem setDone_err (d p f : Bool) : (s.setDone d p f).err = s.err := rfl
@[simp] theorem setDone_errCode (d p f : Bool) : (s.setDone d p f).errCode = s.errCode := rfl
@[simp] theorem setDone_errInfo (d p f : Bool) : (s.setDone d p f).errInfo = s.errInfo := rfl
@[simp] theorem setDone_irqEn (d p f : Bool) : (s.setDone d p f).irqEn = s.irqEn := rfl

@[simp] theorem setIrqEn_schedule (v : Word) : (s.setIrqEn v).schedule = s.schedule := rfl
@[simp] theorem setIrqEn_rdata (v : Word) : (s.setIrqEn v).rdata = s.rdata := rfl
@[simp] theorem setIrqEn_mem (v : Word) : (s.setIrqEn v).mem = s.mem := rfl
@[simp] theorem setIrqEn_dm (v : Word) : (s.setIrqEn v).dm = s.dm := rfl
@[simp] theorem setIrqEn_sp (v : Word) : (s.setIrqEn v).sp = s.sp := rfl
@[simp] theorem setIrqEn_dmDone (v : Word) : (s.setIrqEn v).dmDone = s.dmDone := rfl
@[simp] theorem setIrqEn_spDone (v : Word) : (s.setIrqEn v).spDone = s.spDone := rfl
@[simp] theorem setIrqEn_frameNew (v : Word) : (s.setIrqEn v).frameNew = s.frameNew := rfl
@[simp] theorem setIrqEn_err (v : Word) : (s.setIrqEn v).err = s.err := rfl
@[simp] theorem setIrqEn_errCode (v : Word) : (s.setIrqEn v).errCode = s.errCode := rfl
@[simp] theorem setIrqEn_errInfo (v : Word) : (s.setIrqEn v).errInfo = s.errInfo := rfl
@[simp] theorem setIrqEn_irqEn (v : Word) : (s.setIrqEn v).irqEn = v := rfl

@[simp] theorem raise_schedule (c : ErrCode) (i : Word) : (raise c i s).schedule = s.schedule := by
  unfold raise; split <;> rfl

@[simp] theorem raise_rdata (c : ErrCode) (i : Word) : (raise c i s).rdata = s.rdata := by
  unfold raise; split <;> rfl

@[simp] theorem raise_mem (c : ErrCode) (i : Word) : (raise c i s).mem = s.mem := by
  unfold raise; split <;> rfl

@[simp] theorem raise_dm (c : ErrCode) (i : Word) : (raise c i s).dm = s.dm := by
  unfold raise; split <;> rfl

@[simp] theorem raise_sp (c : ErrCode) (i : Word) : (raise c i s).sp = s.sp := by
  unfold raise; split <;> rfl

@[simp] theorem raise_dmDone (c : ErrCode) (i : Word) : (raise c i s).dmDone = s.dmDone := by
  unfold raise; split <;> rfl

@[simp] theorem raise_spDone (c : ErrCode) (i : Word) : (raise c i s).spDone = s.spDone := by
  unfold raise; split <;> rfl

@[simp] theorem raise_frameNew (c : ErrCode) (i : Word) : (raise c i s).frameNew = s.frameNew := by
  unfold raise; split <;> rfl

@[simp] theorem raise_irqEn (c : ErrCode) (i : Word) : (raise c i s).irqEn = s.irqEn := by
  unfold raise; split <;> rfl

@[simp] theorem raise_err (c : ErrCode) (i : Word) : (raise c i s).err = true := by
  unfold raise; split
  · assumption
  · rfl

/-- Everything `raise` can do (R602). -/
theorem raise_cases (c : ErrCode) (i : Word) :
    (s.err = true ∧ raise c i s = s) ∨
      (s.err = false ∧ raise c i s = s.setErr true (errNumber c) i) := by
  unfold raise; cases h : s.err <;> simp

/-- A second error is not recorded (R602). -/
theorem raise_raise (c d : ErrCode) (i j : Word) : raise d j (raise c i s) = raise c i s := by
  exact if_pos (raise_err s c i)

end Sys2Proof.Machine
end

