-- ==== Sys2Proof/Laws/Bus.lean ====
section
/-! SUPPORT. Everything a HOST transaction other than a `CMD` write can do, and what a reset leaves. -/

namespace Sys2Proof.Machine

/-- Everything `hostRead` can do (R106). -/
theorem hostRead_cases (off : Offset) (s : State) :
    (∃ v, readOutcome off s = .ok v ∧ hostRead off s = s.setRdata v) ∨
    (∃ e, readOutcome off s = .error e ∧ hostRead off s = (raise e (offsetInfo off) s).setRdata 0) := by
  unfold hostRead
  cases readOutcome off s with
  | ok v => exact Or.inl ⟨v, rfl, rfl⟩
  | error e => exact Or.inr ⟨e, rfl, rfl⟩

/-- Everything `hostWrite` can do (R107). -/
theorem hostWrite_cases (off : Offset) (v : Word) (s : State) :
    (∃ t, writeOutcome off v s = .ok t ∧ hostWrite off v s = writeTarget t v s) ∨
    (∃ e, writeOutcome off v s = .error e ∧ hostWrite off v s = raise e (offsetInfo off) s) := by
  unfold hostWrite
  cases writeOutcome off v s with
  | ok t => exact Or.inl ⟨t, rfl, rfl⟩
  | error e => exact Or.inr ⟨e, rfl, rfl⟩

/-- A write that is performed passed every check (R107). -/
theorem writeOutcome_ok {off : Offset} {v : Word} {s : State} {t : Target} (h : writeOutcome off v s = .ok t) :
    off.toNat % 4 = 0 ∧ locate off.toNat = some t ∧
      ((∃ e, accessOf t = .rwGated e ∧ s.busy e = false) ∨ (accessOf t = .cfg ∧ legalAt t v = true) ∨
        accessOf t = .wo ∨ accessOf t = .w1c ∨ accessOf t = .rw) := by
  unfold writeOutcome at h
  split at h
  · cases h
  · rename_i ha
    cases hl : locate off.toNat with
    | none => rw [hl] at h; cases h
    | some u =>
      rw [hl] at h
      dsimp only at h
      refine ⟨by omega, ?_⟩
      cases hc : accessOf u with
      | ro => rw [hc] at h; cases h
      | roGated e => rw [hc] at h; cases h
      | wo => rw [hc] at h; cases h; exact ⟨rfl, by simp [hc]⟩
      | w1c => rw [hc] at h; cases h; exact ⟨rfl, by simp [hc]⟩
      | rw => rw [hc] at h; cases h; exact ⟨rfl, by simp [hc]⟩
      | cfg =>
        rw [hc] at h
        dsimp only at h
        split at h
        · cases h; exact ⟨rfl, by simp [hc]; assumption⟩
        · cases h
      | rwGated e =>
        rw [hc] at h
        dsimp only at h
        split at h
        · cases h
        · cases h; exact ⟨rfl, by simp [hc]; simpa using ‹¬ s.busy e = true›⟩

/-! ## Reset -/

@[simp] theorem resetBlock_schedule (s : State) : (resetBlock s).schedule = s.schedule := rfl
@[simp] theorem resetBlock_rdata (s : State) : (resetBlock s).rdata = s.rdata := rfl
@[simp] theorem resetBlock_mem (s : State) : (resetBlock s).mem = memAfterReset s := rfl
@[simp] theorem resetBlock_dm (s : State) : (resetBlock s).dm = Demod.reset := rfl
@[simp] theorem resetBlock_sp (s : State) : (resetBlock s).sp = Spec.reset := rfl
@[simp] theorem resetBlock_dmDone (s : State) : (resetBlock s).dmDone = false := rfl
@[simp] theorem resetBlock_spDone (s : State) : (resetBlock s).spDone = false := rfl
@[simp] theorem resetBlock_frameNew (s : State) : (resetBlock s).frameNew = false := rfl
@[simp] theorem resetBlock_err (s : State) : (resetBlock s).err = false := rfl
@[simp] theorem resetBlock_errCode (s : State) : (resetBlock s).errCode = 0 := rfl
@[simp] theorem resetBlock_errInfo (s : State) : (resetBlock s).errInfo = 0 := rfl
@[simp] theorem resetBlock_irqEn (s : State) : (resetBlock s).irqEn = 0 := rfl

end Sys2Proof.Machine
end

