-- ==== Sys2Proof/Laws/Filters.lean ====
section
/-! SUPPORT. Lengths of the lists the engines compute, and what a sample of a `DM_RUN` leaves unchanged. -/

namespace Sys2Proof.Machine

/-! ## Lengths -/

theorem iqSamples_length (m : Memory) (w : Ram) (n : Nat) : (iqSamples m w n).length = n := by
  simp [iqSamples]

theorem rawTaps_length (t : Nat) (fc : F32) : (rawTaps t fc).length = t := by
  simp [rawTaps]

/-- `FIR_DESIGN(T, fc)` gives `T` coefficients (R304). -/
theorem firDesign_length {t : Nat} {fc : F32} {h : List F32} (e : firDesign t fc = some h) : h.length = t := by
  unfold firDesign at e
  dsimp only at e
  split at e
  · cases e
  · cases e
    simp [rawTaps_length]

theorem windowTable_length (win : Word) (n : Nat) : (windowTable win n).length = n := by
  simp [windowTable]

theorem windowTable_getD (win : Word) (n i : Nat) (h : i < n) (z : F32) :
    (windowTable win n).getD i z = windowValue win n i := by
  simp [windowTable, List.getD_eq_getElem?_getD, h]

theorem dcbAll_length (alpha : F32) (b : DcBlock C32) (xs : List C32) : (dcbAll alpha b xs).2.length = xs.length := by
  induction xs generalizing b with
  | nil => rfl
  | cons x xs ih => simp [dcbAll, ih]

theorem windowedWords_nil (ws : List F32) : windowedWords [] ws = [] := rfl

theorem windowedWords_cons (x : C32) (xs : List C32) (w : F32) (ws : List F32) :
    windowedWords (x :: xs) (w :: ws) = fmul x.i w :: fmul x.q w :: windowedWords xs ws := rfl

theorem windowedWords_length (xs : List C32) (ws : List F32) (h : ws.length = xs.length) :
    (windowedWords xs ws).length = 2 * xs.length := by
  induction xs generalizing ws with
  | nil => rfl
  | cons x xs ih =>
    cases ws with
    | nil => cases h
    | cons w ws => simp only [windowedWords_cons, List.length_cons, ih ws (by simpa using h)]; omega

/-- Word `2n` is the `I` of windowed sample `n`, word `2n + 1` its `Q` (R102, R381). -/
theorem windowedWords_getD (xs : List C32) (ws : List F32) (h : ws.length = xs.length) (i : Nat) (hi : i < xs.length) :
    (windowedWords xs ws).getD (2 * i) 0 = fmul (xs.getD i C32.zero).i (ws.getD i 0) ∧
      (windowedWords xs ws).getD (2 * i + 1) 0 = fmul (xs.getD i C32.zero).q (ws.getD i 0) := by
  induction xs generalizing ws i with
  | nil => cases hi
  | cons x xs ih =>
    cases ws with
    | nil => cases h
    | cons w ws =>
      cases i with
      | zero => exact ⟨rfl, rfl⟩
      | succ i =>
        have := ih ws (by simpa using h) i (by simpa using hi)
        rw [windowedWords_cons, show 2 * (i + 1) = 2 * i + 1 + 1 by omega]
        simpa using this

theorem frames_length (l : SpPost) (b : Bool) (xs ys : List F32) (h : ys.length = xs.length) :
    (displayFrame l b xs ys).length = xs.length ∧ (holdFrame l b xs ys).length = xs.length := by
  simp [displayFrame, holdFrame, h]

/-! ## The per-sample chain (R501) -/

theorem firPushR_none {r t : Nat} {h : List F32} {f g : Fir F32} {x : F32} (e : firPushR r t h f x = (g, none)) :
    g = firShift posZero t f x ∧ (firShift posZero t f x).cnt ≠ r := by
  unfold firPushR at e
  dsimp only at e
  split at e
  · cases e
  · cases e
    exact ⟨rfl, by assumption⟩

theorem detect_frame (z : C32) (d : Demod) :
    (detect z d).1 = { d with discPrev := (detect z d).1.discPrev, amDcb := (detect z d).1.amDcb } := by
  unfold detect
  split <;> rfl

theorem audioOut_frame (o : F32) (d : Demod) : (audioOut o d).1 = { d with deYp := (audioOut o d).1.deYp } := by
  unfold audioOut
  split <;> rfl

/-- What a sample writes of the engine: phase, filters and detector states; everything else is as before. -/
theorem processSample_frame (h1 h2 : List F32) (d : Demod) (x : C32) :
    (processSample h1 h2 d x).1 =
      { d with
        ncoPhase := (processSample h1 h2 d x).1.ncoPhase, fir1 := (processSample h1 h2 d x).1.fir1,
        fir2 := (processSample h1 h2 d x).1.fir2, discPrev := (processSample h1 h2 d x).1.discPrev,
        amDcb := (processSample h1 h2 d x).1.amDcb, deYp := (processSample h1 h2 d x).1.deYp } := by
  unfold processSample
  dsimp only
  cases hp : firPushC d.r1.toNat d.t1.toNat h1 d.fir1 (rotate d.ncoPhase x) with
  | mk f1 o =>
    cases o with
    | none => rfl
    | some o1 =>
      dsimp only
      have hd := detect_frame o1 { d with ncoPhase := ncoAdvance d.ncoPhase d.ncoInc, fir1 := f1 }
      generalize detect o1 { d with ncoPhase := ncoAdvance d.ncoPhase d.ncoInc, fir1 := f1 } = p at *
      obtain ⟨d', o'⟩ := p
      dsimp only at hd ⊢
      rw [hd]
      dsimp only
      generalize firPushR d.r2.toNat d.t2.toNat h2 d.fir2 o' = q
      obtain ⟨f2, _ | o2⟩ := q
      · rfl
      · dsimp only
        have ha := audioOut_frame o2
          { d with ncoPhase := ncoAdvance d.ncoPhase d.ncoInc, fir1 := f1, discPrev := d'.discPrev, amDcb := d'.amDcb,
                   fir2 := f2 }
        rw [ha]

/-- The same of a whole run of samples. -/
theorem processAll_frame (h1 h2 : List F32) (d : Demod) (xs : List C32) :
    (processAll h1 h2 d xs).1 =
      { d with
        ncoPhase := (processAll h1 h2 d xs).1.ncoPhase, fir1 := (processAll h1 h2 d xs).1.fir1,
        fir2 := (processAll h1 h2 d xs).1.fir2, discPrev := (processAll h1 h2 d xs).1.discPrev,
        amDcb := (processAll h1 h2 d xs).1.amDcb, deYp := (processAll h1 h2 d xs).1.deYp } := by
  induction xs generalizing d with
  | nil => rfl
  | cons x xs ih =>
    have h := ih (processSample h1 h2 d x).1
    have hs := processSample_frame h1 h2 d x
    simp only [processAll]
    generalize (processAll h1 h2 (processSample h1 h2 d x).1 xs).1 = e at *
    generalize (processSample h1 h2 d x).1 = d' at *
    rw [h, hs]

/-- The engine `e` with the datapath of `d`: the fields `PROCESS` reads and writes (R501). -/
def Demod.withDatapath (e d : Demod) : Demod :=
  { e with
    actMod := d.actMod, r1 := d.r1, r2 := d.r2, t1 := d.t1, t2 := d.t2, deemphA := d.deemphA, volAct := d.volAct,
    alphaAct := d.alphaAct, ncoInc := d.ncoInc, ncoPhase := d.ncoPhase, fir1 := d.fir1, fir2 := d.fir2,
    discPrev := d.discPrev, amDcb := d.amDcb, deYp := d.deYp }

theorem detect_datapath (z : C32) (e d : Demod) :
    detect z (e.withDatapath d) = (e.withDatapath (detect z d).1, (detect z d).2) := by
  unfold detect
  have h : (e.withDatapath d).actMod = d.actMod := rfl
  rw [h]
  split <;> rfl

theorem audioOut_datapath (o : F32) (e d : Demod) :
    audioOut o (e.withDatapath d) = (e.withDatapath (audioOut o d).1, (audioOut o d).2) := by
  unfold audioOut
  have h : (e.withDatapath d).actMod = d.actMod := rfl
  rw [h]
  split <;> rfl

/-- What a sample does depends on the datapath only. -/
theorem processSample_datapath (h1 h2 : List F32) (e d : Demod) (x : C32) :
    processSample h1 h2 (e.withDatapath d) x =
      (e.withDatapath (processSample h1 h2 d x).1, (processSample h1 h2 d x).2) := by
  unfold processSample
  have hp : firPushC (e.withDatapath d).r1.toNat (e.withDatapath d).t1.toNat h1 (e.withDatapath d).fir1
      (rotate (e.withDatapath d).ncoPhase x) = firPushC d.r1.toNat d.t1.toNat h1 d.fir1 (rotate d.ncoPhase x) := rfl
  dsimp only
  rw [hp]
  generalize firPushC d.r1.toNat d.t1.toNat h1 d.fir1 (rotate d.ncoPhase x) = p
  obtain ⟨f1, _ | o1⟩ := p
  · rfl
  · dsimp only
    have hd := detect_datapath o1 e { d with ncoPhase := ncoAdvance d.ncoPhase d.ncoInc, fir1 := f1 }
    have he : ({ e.withDatapath d with ncoPhase := ncoAdvance (e.withDatapath d).ncoPhase (e.withDatapath d).ncoInc, fir1 := f1 } : Demod) =
        e.withDatapath { d with ncoPhase := ncoAdvance d.ncoPhase d.ncoInc, fir1 := f1 } := rfl
    rw [he, hd]
    generalize detect o1 { d with ncoPhase := ncoAdvance d.ncoPhase d.ncoInc, fir1 := f1 } = q
    obtain ⟨d', o'⟩ := q
    dsimp only
    have hr : firPushR (e.withDatapath d).r2.toNat (e.withDatapath d).t2.toNat h2 (e.withDatapath d).fir2 o' =
        firPushR d.r2.toNat d.t2.toNat h2 d.fir2 o' := rfl
    rw [hr]
    generalize firPushR d.r2.toNat d.t2.toNat h2 d.fir2 o' = g
    obtain ⟨f2, _ | o2⟩ := g
    · rfl
    · dsimp only
      have ha := audioOut_datapath o2 e { d' with fir2 := f2 }
      have he : ({ e.withDatapath d' with fir2 := f2 } : Demod) = e.withDatapath { d' with fir2 := f2 } := rfl
      rw [he, ha]

/-- What a run of samples does depends on the datapath only. -/
theorem processAll_datapath (h1 h2 : List F32) (e d : Demod) (xs : List C32) :
    processAll h1 h2 (e.withDatapath d) xs =
      (e.withDatapath (processAll h1 h2 d xs).1, (processAll h1 h2 d xs).2) := by
  induction xs generalizing d with
  | nil => rfl
  | cons x xs ih => simp only [processAll, processSample_datapath, ih]

/-- No more audio samples than samples (R502). -/
theorem processAll_length_le (h1 h2 : List F32) (d : Demod) (xs : List C32) :
    (processAll h1 h2 d xs).2.length ≤ xs.length := by
  induction xs generalizing d with
  | nil => exact Nat.le_refl _
  | cons x xs ih =>
    simp only [processAll, List.length_append, List.length_cons]
    have h := ih (processSample h1 h2 d x).1
    have : (processSample h1 h2 d x).2.toList.length ≤ 1 := by
      cases (processSample h1 h2 d x).2 <;> simp
    omega

end Sys2Proof.Machine
end

