-- ==== Sys2Proof/Laws/Memory.lean ====
section
/-! SUPPORT. RAM: what a write does to every byte and word, and that every operation keeps the canonical form. -/

namespace Sys2Proof.Machine

/-! ## Byte cells -/

theorem cellsFrom_length (a : Nat) (bs : List Byte) : (cellsFrom a bs).length = bs.length := by
  induction bs generalizing a with
  | nil => rfl
  | cons b bs ih => simp [cellsFrom, ih]

theorem mem_cellsFrom {a : Nat} {bs : List Byte} {c : Host.Cell} (h : c ∈ cellsFrom a bs) :
    a ≤ c.1 ∧ c.1 < a + bs.length := by
  induction bs generalizing a with
  | nil => cases h
  | cons b bs ih =>
    rcases List.mem_cons.mp h with rfl | h
    · simp
    · have := ih h
      simp only [List.length_cons]
      omega

theorem cellsFrom_lookup (a : Nat) (bs : List Byte) (x : Nat) :
    (cellsFrom a bs).lookup x = if a ≤ x then bs[x - a]? else none := by
  induction bs generalizing a with
  | nil => simp [cellsFrom]
  | cons b bs ih =>
    rw [cellsFrom, List.lookup_cons, ih]
    by_cases h : x = a
    · subst h; simp
    · have hb : (x == a) = false := by simpa using h
      rw [hb]
      by_cases hx : a ≤ x
      · have h1 : a + 1 ≤ x := by omega
        have h2 : x - a = (x - (a + 1)) + 1 := by omega
        simp [hx, h1, h2]
      · have h1 : ¬ a + 1 ≤ x := by omega
        simp [hx, h1]

theorem lookup_filter_of_pos (p : Nat → Bool) (l : List Host.Cell) (x : Nat) (h : p x = true) :
    (l.filter (fun c => p c.1)).lookup x = l.lookup x := by
  induction l with
  | nil => rfl
  | cons c l ih =>
    obtain ⟨k, v⟩ := c
    by_cases hk : x = k
    · subst hk
      rw [List.filter_cons]
      simp [h]
    · have hb : (x == k) = false := by simpa using hk
      rw [List.filter_cons]
      split <;> simp [List.lookup_cons, hb, ih]

theorem lookup_filter_of_neg (p : Nat → Bool) (l : List Host.Cell) (x : Nat) (h : p x = false) :
    (l.filter (fun c => p c.1)).lookup x = none := by
  induction l with
  | nil => rfl
  | cons c l ih =>
    obtain ⟨k, v⟩ := c
    rw [List.filter_cons]
    by_cases hk : x = k
    · subst hk
      simp [h, ih]
    · have hb : (x == k) = false := by simpa using hk
      split
      · rw [List.lookup_cons, hb]
        exact ih
      · exact ih

theorem lookup_writeBytes (m : Memory) (a : Nat) (bs : List Byte) (x : Nat) :
    (m.writeBytes a bs).cells.lookup x =
      if a ≤ x ∧ x < a + bs.length then bs[x - a]? else m.cells.lookup x := by
  have hlo := lookup_filter_of_pos (fun k => decide (k < a)) m.cells x
  have hlo' := lookup_filter_of_neg (fun k => decide (k < a)) m.cells x
  have hhi := lookup_filter_of_pos (fun k => decide (a + bs.length ≤ k)) m.cells x
  have hhi' := lookup_filter_of_neg (fun k => decide (a + bs.length ≤ k)) m.cells x
  simp only [decide_eq_true_eq, decide_eq_false_iff_not] at hlo hlo' hhi hhi'
  simp only [Memory.writeBytes, List.lookup_append, cellsFrom_lookup]
  by_cases h1 : x < a
  · have h2 : ¬ a ≤ x := by omega
    have h3 : ¬ a + bs.length ≤ x := by omega
    simp [hlo h1, hhi' h3, h2]
  · have h2 : a ≤ x := by omega
    by_cases h3 : x < a + bs.length
    · have h4 : x - a < bs.length := by omega
      simp [hlo' h1, h2, h3, h4]
    · have h4 : bs.length ≤ x - a := by omega
      simp [hlo' h1, h2, hhi (by omega : a + bs.length ≤ x), h3, h4]

/-- A byte outside the written block reads as before. -/
theorem readByte_writeBytes_of_outside (m : Memory) (a : Nat) (bs : List Byte) (x : Nat)
    (h : x < a ∨ a + bs.length ≤ x) : (m.writeBytes a bs).readByte x = m.readByte x := by
  have hn : ¬ (a ≤ x ∧ x < a + bs.length) := by omega
  simp only [Memory.readByte, lookup_writeBytes, if_neg hn]
  rfl

/-- A byte inside the written block reads what was written. -/
theorem readByte_writeBytes_of_inside (m : Memory) (a : Nat) (bs : List Byte) (k : Nat) (h : k < bs.length) :
    (m.writeBytes a bs).readByte (a + k) = bs[k] := by
  have hc : a ≤ a + k ∧ a + k < a + bs.length := by omega
  simp only [Memory.readByte, lookup_writeBytes, if_pos hc]
  simp [h]

/-! ## Words -/

theorem wordBytes_length (v : Word) : (wordBytes v).length = 4 := rfl

theorem wordBytes_append (v : Word) :
    v.extractLsb' 24 8 ++ v.extractLsb' 16 8 ++ v.extractLsb' 8 8 ++ v.extractLsb' 0 8 = v := by
  ext i hi
  simp only [BitVec.getElem_append, BitVec.getElem_extractLsb']
  have h1 : i < 8 ∨ (8 ≤ i ∧ i < 16) ∨ (16 ≤ i ∧ i < 24) ∨ 24 ≤ i := by omega
  rcases h1 with h | ⟨h, h'⟩ | ⟨h, h'⟩ | h
  · simp [h, BitVec.getLsbD_eq_getElem hi]
  · simp [show ¬ i < 8 by omega, show i - 8 < 8 by omega, show 8 + (i - 8) = i by omega, BitVec.getLsbD_eq_getElem hi]
  · simp [show ¬ i < 8 by omega, show ¬ i - 8 < 8 by omega, show i - 8 - 8 < 8 by omega,
      show 16 + (i - 8 - 8) = i by omega, BitVec.getLsbD_eq_getElem hi]
  · simp [show ¬ i < 8 by omega, show ¬ i - 8 < 8 by omega, show ¬ i - 8 - 8 < 8 by omega,
      show 24 + (i - 8 - 8 - 8) = i by omega, BitVec.getLsbD_eq_getElem hi]

/-- A word reads what its four bytes read. -/
theorem readWord_congr {m n : Memory} {a b : Nat} (h : ∀ k < 4, m.readByte (a + k) = n.readByte (b + k)) :
    m.readWord a = n.readWord b := by
  have h0 := h 0 (by omega)
  have h1 := h 1 (by omega)
  have h2 := h 2 (by omega)
  have h3 := h 3 (by omega)
  simp only [Nat.add_zero] at h0
  simp only [Memory.readWord, h0, h1, h2, h3]

theorem readWord_of_bytes {m : Memory} {a : Nat} {v : Word}
    (h : ∀ k (hk : k < 4), m.readByte (a + k) = (wordBytes v)[k]'(by simpa [wordBytes] using hk)) :
    m.readWord a = v := by
  have h0 := h 0 (by omega)
  have h1 := h 1 (by omega)
  have h2 := h 2 (by omega)
  have h3 := h 3 (by omega)
  simp only [wordBytes, List.getElem_cons_zero, List.getElem_cons_succ, Nat.add_zero] at h0 h1 h2 h3
  simp only [Memory.readWord, h0, h1, h2, h3]
  exact wordBytes_append v

theorem readWord_writeWord (m : Memory) (a : Nat) (v : Word) : (m.writeWord a v).readWord a = v :=
  readWord_of_bytes fun k hk => readByte_writeBytes_of_inside m a (wordBytes v) k hk

theorem readByte_writeWord_of_outside (m : Memory) (a : Nat) (v : Word) (x : Nat) (h : x < a ∨ a + 4 ≤ x) :
    (m.writeWord a v).readByte x = m.readByte x :=
  readByte_writeBytes_of_outside m a _ x h

/-! ## Blocks -/

theorem flatMap_wordBytes_length (vs : List Word) : (vs.flatMap wordBytes).length = 4 * vs.length := by
  induction vs with
  | nil => rfl
  | cons v vs ih => simp only [List.flatMap_cons, List.length_append, ih, wordBytes_length, List.length_cons]; omega

theorem flatMap_wordBytes_getElem (vs : List Word) (i k : Nat) (hi : i < vs.length) (hk : k < 4)
    (h : 4 * i + k < (vs.flatMap wordBytes).length) :
    (vs.flatMap wordBytes)[4 * i + k] = (wordBytes vs[i])[k]'(by simpa [wordBytes] using hk) := by
  induction vs generalizing i with
  | nil => cases hi
  | cons v vs ih =>
    cases i with
    | zero =>
      simp only [List.flatMap_cons]
      rw [List.getElem_append_left (by simpa [wordBytes] using hk)]
      simp
    | succ i =>
      simp only [List.flatMap_cons]
      rw [List.getElem_append_right (by simp [wordBytes]; omega)]
      have e : 4 * (i + 1) + k - (wordBytes v).length = 4 * i + k := by simp [wordBytes]; omega
      simp only [e, List.getElem_cons_succ]
      exact ih i (by simpa using hi) (by rw [flatMap_wordBytes_length]; simp at hi; omega)

/-- `RAM[i]` of a written block. -/
theorem get_setBlock (m : Memory) (w : Ram) (vs : List Word) (i : Nat) (hi : i < vs.length) :
    (m.setBlock w vs).get w i = vs[i] := by
  apply readWord_of_bytes
  intro k hk
  have hl : 4 * i + k < (vs.flatMap wordBytes).length := by rw [flatMap_wordBytes_length]; omega
  rw [Memory.setBlock, Nat.add_assoc, readByte_writeBytes_of_inside _ _ _ _ hl]
  exact flatMap_wordBytes_getElem vs i k hi hk hl

theorem readByte_setBlock_of_outside (m : Memory) (w : Ram) (vs : List Word) (x : Nat)
    (h : x < w.base ∨ w.base + 4 * vs.length ≤ x) : (m.setBlock w vs).readByte x = m.readByte x := by
  apply readByte_writeBytes_of_outside
  rw [flatMap_wordBytes_length]
  exact h

/-- A word that a written block does not reach reads as before. -/
theorem get_setBlock_of_outside (m : Memory) (w u : Ram) (vs : List Word) (i : Nat)
    (h : u.base + 4 * i + 4 ≤ w.base ∨ w.base + 4 * vs.length ≤ u.base + 4 * i) :
    (m.setBlock w vs).get u i = m.get u i := by
  apply readWord_congr
  intro k hk
  apply readByte_setBlock_of_outside
  omega

theorem block_length (m : Memory) (w : Ram) (n : Nat) : (m.block w n).length = n := by
  simp [Memory.block]

theorem block_getElem (m : Memory) (w : Ram) (n i : Nat) (h : i < (m.block w n).length) :
    (m.block w n)[i] = m.get w i := by
  simp [Memory.block]

/-- A block read back where it was written. -/
theorem block_setBlock (m : Memory) (w : Ram) (vs : List Word) : (m.setBlock w vs).block w vs.length = vs := by
  apply List.ext_getElem
  · simp [Memory.block]
  · intro i h1 h2
    rw [block_getElem, get_setBlock _ _ _ _ h2]

/-- A block of another place reads as before. -/
theorem block_setBlock_of_outside (m : Memory) (w u : Ram) (vs : List Word) (n : Nat)
    (h : u.base + 4 * n ≤ w.base ∨ w.base + 4 * vs.length ≤ u.base) :
    (m.setBlock w vs).block u n = m.block u n := by
  apply List.map_congr_left
  intro i hi
  rw [List.mem_range] at hi
  apply get_setBlock_of_outside
  omega

/-! ## Windows -/

theorem holds_iff (w : Ram) (a : Nat) : w.holds a = true ↔ w.base ≤ a ∧ a < w.base + 4 * w.words := by
  simp [Ram.holds]

theorem not_holds_iff (w : Ram) (a : Nat) : w.holds a = false ↔ a < w.base ∨ w.base + 4 * w.words ≤ a := by
  rw [← Bool.not_eq_true, holds_iff]
  omega

/-! ## The canonical form -/

theorem wf_iff (m : Memory) : m.wf = true ↔ m.cells.Pairwise (fun c d => c.1 < d.1) := by
  simp [Memory.wf]

theorem cellsFrom_pairwise (a : Nat) (bs : List Byte) : (cellsFrom a bs).Pairwise (fun c d => c.1 < d.1) := by
  induction bs generalizing a with
  | nil => exact List.Pairwise.nil
  | cons b bs ih =>
    rw [cellsFrom, List.pairwise_cons]
    exact ⟨fun c hc => by have := mem_cellsFrom hc; simp only; omega, ih (a + 1)⟩

theorem writeBytes_wf (m : Memory) (a : Nat) (bs : List Byte) (h : m.wf = true) :
    (m.writeBytes a bs).wf = true := by
  rw [wf_iff] at h ⊢
  simp only [Memory.writeBytes]
  rw [List.pairwise_append, List.pairwise_append]
  refine ⟨⟨h.filter _, cellsFrom_pairwise a bs, ?_⟩, h.filter _, ?_⟩
  · intro c hc d hd
    have hc := (List.mem_filter.mp hc).2
    have hd := mem_cellsFrom hd
    simp only [decide_eq_true_eq] at hc
    omega
  · intro c hc d hd
    have hd := (List.mem_filter.mp hd).2
    simp only [decide_eq_true_eq] at hd
    rcases List.mem_append.mp hc with hc | hc
    · have hc := (List.mem_filter.mp hc).2
      simp only [decide_eq_true_eq] at hc
      omega
    · have hc := mem_cellsFrom hc
      omega

theorem writeWord_wf (m : Memory) (a : Nat) (v : Word) (h : m.wf = true) : (m.writeWord a v).wf = true :=
  writeBytes_wf m a _ h

theorem setBlock_wf (m : Memory) (w : Ram) (vs : List Word) (h : m.wf = true) : (m.setBlock w vs).wf = true :=
  writeBytes_wf m w.base _ h

theorem forget_pairwise (ws : List Ram) (l : List Host.Cell) (h : l.Pairwise (fun c d => c.1 < d.1)) :
    (forget ws l).Pairwise (fun c d => c.1 < d.1) := h.filter _

theorem abortDm_wf (m : Memory) (h : m.wf = true) : (abortDm m).wf = true := by
  rw [wf_iff] at h ⊢
  exact forget_pairwise _ _ h

theorem abortSp_wf (c : SpCmd) (m : Memory) (h : m.wf = true) : (abortSp c m).wf = true := by
  cases c with
  | prep l => rw [wf_iff] at h ⊢; exact forget_pairwise _ _ h
  | post l => rw [wf_iff] at h ⊢; exact forget_pairwise _ _ h
  | stats => exact h

theorem memAfterReset_wf (s : State) (h : s.mem.wf = true) : (memAfterReset s).wf = true := by
  unfold memAfterReset
  have h1 : (if s.dm.pending.isSome then abortDm s.mem else s.mem).wf = true := by
    split
    · exact abortDm_wf _ h
    · exact h
  cases s.sp.pending with
  | none => exact h1
  | some c => exact abortSp_wf c _ h1

theorem powerOn_wf : Memory.powerOn.wf = true := by decide

end Sys2Proof.Machine
end

