-- ==== Sys2Proof/Laws/Engines.lean ====
section
/-! SUPPORT. Once and for all, what a rebuild and the computations of the engines can do. -/

namespace Sys2Proof.Machine

/-! ## Rebuild (R494 to R496) -/

/-- Everything `rebuild` can do. -/
theorem rebuild_cases (mod : Word) (fs tau : F32) (s : State) :
    (∃ reason, rebuildDesigns mod fs tau = .error reason ∧ rebuild mod fs tau s = raise .buildFail reason s) ∨
    (∃ h1 h2, rebuildDesigns mod fs tau = .ok (h1, h2) ∧
      rebuild mod fs tau s =
        (s.setMem ((s.mem.setBlock .dmH1 h1).setBlock .dmH2 h2)).setDm (rebuiltDemod mod fs tau s.dm)) := by
  unfold rebuild
  cases rebuildDesigns mod fs tau with
  | error r => exact Or.inl ⟨r, rfl, rfl⟩
  | ok p => exact Or.inr ⟨p.1, p.2, rfl, rfl⟩

/-- Designs that pass every check fit the coefficient RAMs (R495). -/
theorem rebuildDesigns_ok {mod : Word} {fs tau : F32} {h1 h2 : List F32}
    (e : rebuildDesigns mod fs tau = .ok (h1, h2)) :
    tapCount (stage1Factor mod fs) ≤ Config.firTMax ∧ h1.length = tapCount (stage1Factor mod fs) ∧
      h2.length = tapCount (stage2Factor mod) ∧
      (isFm mod = true → flt posZero (deemphFor mod fs tau) = true ∧ fle (deemphFor mod fs tau) one = true) := by
  unfold rebuildDesigns at e
  split at e
  · cases e
  · rename_i ht
    cases e1 : firDesign (tapCount (stage1Factor mod fs)) (normCutoff1 mod fs) with
    | none => rw [e1] at e; cases e
    | some k1 =>
      cases e2 : firDesign (tapCount (stage2Factor mod)) (normCutoff2 mod fs) with
      | none => rw [e1] at e; simp only [e2] at e; cases e
      | some k2 =>
        rw [e1] at e
        simp only [e2] at e
        split at e
        · cases e
        · rename_i hc
          cases e
          refine ⟨Nat.le_of_not_lt ht, firDesign_length e1, firDesign_length e2, fun hf => ?_⟩
          simpa [hf] using hc

theorem tapCount_stage2 (mod : Word) : tapCount (stage2Factor mod) ≤ 33 := by
  unfold stage2Factor
  split <;> decide

/-! ## DEMOD -/

/-- The state after the reset and rebuild of a `DM_RUN`: only RAM, engine and error record differ, of the engine neither
the shadows nor the pending command, of RAM only coefficients. -/
theorem dmRunConfigured_frame (c : DmRun) (s : State) :
    dmRunConfigured c s =
      { s with
        mem := (dmRunConfigured c s).mem, dm := (dmRunConfigured c s).dm, err := (dmRunConfigured c s).err,
        errCode := (dmRunConfigured c s).errCode, errInfo := (dmRunConfigured c s).errInfo } ∧
    (dmRunConfigured c s).dm =
      { (dmRunConfigured c s).dm with
        mod := s.dm.mod, fs := s.dm.fs, tau := s.dm.tau, tune := s.dm.tune, vol := s.dm.vol, amAlpha := s.dm.amAlpha,
        dirtyMod := s.dm.dirtyMod, dirtyFs := s.dm.dirtyFs, dirtyTau := s.dm.dirtyTau, resetPend := s.dm.resetPend,
        pending := s.dm.pending } ∧
    (∀ a, Ram.dmH1.holds a = false → Ram.dmH2.holds a = false →
      (dmRunConfigured c s).mem.readByte a = s.mem.readByte a) := by
  have hr : dmRunReset c s = s.setDm (dmRunReset c s).dm ∧
      (dmRunReset c s).dm =
        { (dmRunReset c s).dm with
          mod := s.dm.mod, fs := s.dm.fs, tau := s.dm.tau, tune := s.dm.tune, vol := s.dm.vol, amAlpha := s.dm.amAlpha,
          dirtyMod := s.dm.dirtyMod, dirtyFs := s.dm.dirtyFs, dirtyTau := s.dm.dirtyTau, resetPend := s.dm.resetPend,
          pending := s.dm.pending } := by
    unfold dmRunReset
    split <;> exact ⟨rfl, rfl⟩
  obtain ⟨h1, h2⟩ := hr
  unfold dmRunConfigured
  generalize dmRunReset c s = s1 at *
  dsimp only
  split
  · rcases rebuild_cases c.mod c.fs c.tau s1 with ⟨r, -, e⟩ | ⟨k1, k2, e1, e⟩
    · rw [e]
      rw [h1]
      refine ⟨?_, ?_, ?_⟩
      · unfold raise; split <;> rfl
      · simp only [raise_dm, setDm_dm]; exact h2
      · intro a _ _; simp
    · rw [e]
      obtain ⟨ht, l1, l2, -⟩ := rebuildDesigns_ok e1
      refine ⟨by rw [h1]; rfl, ?_, ?_⟩
      · simp only [setDm_dm, rebuiltDemod, clearFilters]
        rw [h2]
      · intro a ha1 ha2
        have ht2 := tapCount_stage2 c.mod
        rw [not_holds_iff] at ha1 ha2
        simp only [Ram.base, Ram.words, Config.firTMax] at ha1 ha2 ht
        simp only [setDm_mem, setMem_mem]
        rw [readByte_setBlock_of_outside, readByte_setBlock_of_outside]
        · rw [h1]; rfl
        · simp only [Ram.base]; omega
        · simp only [Ram.base]; omega
  · exact ⟨by rw [h1]; rfl, h2, fun a _ _ => by rw [h1]; rfl⟩

/-- The engine with other pending flags and another command: what `PROCESS` neither reads nor writes. -/
def Demod.withPending (d e : Demod) : Demod :=
  { d with
    dirtyMod := e.dirtyMod, dirtyFs := e.dirtyFs, dirtyTau := e.dirtyTau, resetPend := e.resetPend, pending := e.pending }

theorem withPending_datapath (d e : Demod) : d.withPending e = (d.withPending e).withDatapath d := rfl

theorem dmRunTuned_withPending (c : DmRun) (d e : Demod) :
    dmRunTuned c (d.withPending e) = (dmRunTuned c d).withPending e := by
  simp only [dmRunTuned, retune, Demod.withPending]

/-- A run of samples leaves the pending flags and the command alone and does not depend on them. -/
theorem processAll_withPending (h1 h2 : List F32) (d e : Demod) (xs : List C32) :
    processAll h1 h2 (d.withPending e) xs =
      ((processAll h1 h2 d xs).1.withPending e, (processAll h1 h2 d xs).2) := by
  have hf := processAll_frame h1 h2 d xs
  rw [withPending_datapath, processAll_datapath]
  generalize processAll h1 h2 d xs = p at *
  rw [hf]
  rfl

/-- What `PROCESS` leaves (R500, R501, R505), from an engine that is `d` but for its pending flags and command: the engine
that the run leaves from `d` retuned, those fields kept, the count and the meter of the audio; the audio in its window. -/
theorem dmRunProcess_eq (c : DmRun) (s : State) (d e : Demod) (h : s.dm = d.withPending e) :
    dmRunProcess c s =
      let p := processAll (s.mem.block .dmH1 d.t1.toNat) (s.mem.block .dmH2 d.t2.toNat) (dmRunTuned c d)
        (iqSamples s.mem .dmIq c.n)
      (s.setMem (s.mem.setBlock .dmAud p.2)).setDm
        { p.1.withPending e with audCount := BitVec.ofNat 32 p.2.length, audPeak := peakMeter p.2 } := by
  have t1 : ((dmRunTuned c d).withPending e).t1 = d.t1 := by simp only [dmRunTuned, retune, Demod.withPending]
  have t2 : ((dmRunTuned c d).withPending e).t2 = d.t2 := by simp only [dmRunTuned, retune, Demod.withPending]
  simp only [dmRunProcess, h, dmRunTuned_withPending, t1, t2, processAll_withPending]

/-- The samples read after the coefficients are written are the samples read before. -/
theorem iqSamples_setBlock (m : Memory) (w : Ram) (vs : List Word) (n : Nat)
    (h : Ram.dmIq.base + 2 * (n + 1) ≤ w.base) : iqSamples (m.setBlock w vs) .dmIq n = iqSamples m .dmIq n := by
  unfold iqSamples
  apply List.map_congr_left
  intro j hj
  rw [List.mem_range] at hj
  unfold iqSample
  rw [get_setBlock_of_outside]
  omega

/-- What the computation of a `DM_RUN` can change: RAM, engine and error record, of the engine neither the shadows nor the
pending command, of RAM only its output windows (R111). -/
theorem dmRunCompute_frame (c : DmRun) (s : State) :
    dmRunCompute c s =
      { s with
        mem := (dmRunCompute c s).mem, dm := (dmRunCompute c s).dm, err := (dmRunCompute c s).err,
        errCode := (dmRunCompute c s).errCode, errInfo := (dmRunCompute c s).errInfo } ∧
    (dmRunCompute c s).dm =
      { (dmRunCompute c s).dm with
        mod := s.dm.mod, fs := s.dm.fs, tau := s.dm.tau, tune := s.dm.tune, vol := s.dm.vol, amAlpha := s.dm.amAlpha,
        dirtyMod := s.dm.dirtyMod, dirtyFs := s.dm.dirtyFs, dirtyTau := s.dm.dirtyTau, resetPend := s.dm.resetPend,
        pending := s.dm.pending } ∧
    (c.n ≤ Config.iqDepth → ∀ a, dmRunOutputs.any (·.holds a) = false →
      (dmRunCompute c s).mem.readByte a = s.mem.readByte a) := by
  obtain ⟨h1, h2, h3⟩ := dmRunConfigured_frame c s
  unfold dmRunCompute
  dsimp only
  generalize dmRunConfigured c s = s1 at *
  split
  · unfold dmRunProcess
    dsimp only
    generalize hp : processAll (s1.mem.block .dmH1 (dmRunTuned c s1.dm).t1.toNat)
      (s1.mem.block .dmH2 (dmRunTuned c s1.dm).t2.toNat) (dmRunTuned c s1.dm) (iqSamples s1.mem .dmIq c.n) = p
    have hf := processAll_frame (s1.mem.block .dmH1 (dmRunTuned c s1.dm).t1.toNat)
      (s1.mem.block .dmH2 (dmRunTuned c s1.dm).t2.toNat) (dmRunTuned c s1.dm) (iqSamples s1.mem .dmIq c.n)
    have hl := processAll_length_le (s1.mem.block .dmH1 (dmRunTuned c s1.dm).t1.toNat)
      (s1.mem.block .dmH2 (dmRunTuned c s1.dm).t2.toNat) (dmRunTuned c s1.dm) (iqSamples s1.mem .dmIq c.n)
    rw [hp] at hf hl
    rw [iqSamples_length] at hl
    refine ⟨by rw [h1]; rfl, ?_, ?_⟩
    · simp only [setDm_dm]
      rw [hf]
      simp only [dmRunTuned, retune]
      rw [h2]
    · intro hn a ha
      simp only [dmRunOutputs, List.any_cons, List.any_nil, Bool.or_false, Bool.or_eq_false_iff] at ha
      obtain ⟨ha, ha1, ha2⟩ := ha
      simp only [setDm_mem, setMem_mem]
      rw [readByte_setBlock_of_outside]
      · exact h3 a ha1 ha2
      · rw [not_holds_iff] at ha
        simp only [Ram.base, Ram.words] at ha ⊢
        omega
  · refine ⟨?_, ?_, ?_⟩
    · rw [h1]
      unfold raise
      split <;> rfl
    · simp only [setDm_dm]
      rw [h2]
    · intro _ a ha
      simp only [dmRunOutputs, List.any_cons, List.any_nil, Bool.or_false, Bool.or_eq_false_iff] at ha
      simp only [setDm_mem, raise_mem]
      exact h3 a ha.2.1 ha.2.2

/-- An idle DEMOD has no step. -/
theorem completeDemod_idle {s : State} (h : s.dm.pending = none) : completeDemod s = s := by
  unfold completeDemod
  rw [h]

theorem completeDemod_busy {s : State} {c : DmRun} (h : s.dm.pending = some c) :
    completeDemod s = finishDm (dmRunCompute c s) := by
  unfold completeDemod
  rw [h]

/-! ## SPEC -/

/-- What the computation of a SPEC command can change: RAM and engine, of the engine neither the shadows nor the pending
command. -/
theorem spCompute_frame (c : SpCmd) (s : State) :
    spCompute c s = { s with mem := (spCompute c s).mem, sp := (spCompute c s).sp } ∧
    (spCompute c s).sp =
      { (spCompute c s).sp with
        n := s.sp.n, win := s.sp.win, avg := s.sp.avg, ctrl := s.sp.ctrl, phRate := s.sp.phRate, phDt := s.sp.phDt,
        dcbAlpha := s.sp.dcbAlpha, dirtyN := s.sp.dirtyN, dirtyWin := s.sp.dirtyWin, resetPend := s.sp.resetPend,
        pending := s.sp.pending } := by
  cases c with
  | prep l =>
    simp only [spCompute, spPrepCompute, spPrepConfigured]
    cases (l.resetPend || l.dirtyN) <;> cases (l.dirtyN || l.dirtyWin) <;> exact ⟨rfl, rfl⟩
  | post l => exact ⟨rfl, rfl⟩
  | stats => exact ⟨rfl, rfl⟩

/-- The size an `SP_PREP` works at (R381). -/
theorem spPrepConfigured_actN (l : SpPrep) (s : State) :
    (spPrepConfigured l s).sp.actN = if l.dirtyN || l.dirtyWin then l.n else s.sp.actN := by
  unfold spPrepConfigured
  cases (l.resetPend || l.dirtyN) <;> cases (l.dirtyN || l.dirtyWin) <;> rfl

theorem spPrepConfigured_mem (l : SpPrep) (s : State) :
    (spPrepConfigured l s).mem =
      if l.dirtyN || l.dirtyWin then s.mem.setBlock .spWlut (windowTable l.win l.n.toNat) else s.mem := by
  unfold spPrepConfigured
  cases (l.resetPend || l.dirtyN) <;> cases (l.dirtyN || l.dirtyWin) <;> rfl

/-- The engine after the clearing and regeneration of an `SP_PREP` (R377, R381). -/
theorem spPrepConfigured_sp (l : SpPrep) (s : State) :
    (spPrepConfigured l s).sp =
      { s.sp with
        emaInit := if l.resetPend || l.dirtyN then false else s.sp.emaInit,
        holdInit := if l.resetPend || l.dirtyN then false else s.sp.holdInit,
        dcb := if l.resetPend || l.dirtyN then dcbClearC else s.sp.dcb,
        corr := if l.dirtyN || l.dirtyWin then coherentCorrection (windowTable l.win l.n.toNat) else s.sp.corr,
        actN := if l.dirtyN || l.dirtyWin then l.n else s.sp.actN,
        actWin := if l.dirtyN || l.dirtyWin then l.win else s.sp.actWin,
        minSep := if l.dirtyN || l.dirtyWin then BitVec.ofNat 32 (minSeparation l.win) else s.sp.minSep,
        valid := s.sp.valid || (l.dirtyN || l.dirtyWin) } := by
  unfold spPrepConfigured
  cases (l.resetPend || l.dirtyN) <;> cases (l.dirtyN || l.dirtyWin) <;>
    simp [clearSpectrum, regenerate]

/-- The rest of the state is not touched. -/
theorem spPrepConfigured_frame (l : SpPrep) (s : State) :
    spPrepConfigured l s = (s.setMem (spPrepConfigured l s).mem).setSp (spPrepConfigured l s).sp := by
  unfold spPrepConfigured
  cases (l.resetPend || l.dirtyN) <;> cases (l.dirtyN || l.dirtyWin) <;> rfl

theorem spPrepSamples_length (l : SpPrep) (s : State) : (spPrepSamples l s).2.length = s.sp.actN.toNat := by
  unfold spPrepSamples
  split
  · rw [dcbAll_length, iqSamples_length]
  · rw [iqSamples_length]

/-- An `SP_PREP` writes its windows only (R111). -/
theorem spPrepCompute_ram (l : SpPrep) (s : State) (h1 : l.n.toNat ≤ Config.nMax) (h2 : s.sp.actN.toNat ≤ Config.nMax)
    (a : Nat) (ha : spPrepOutputs.any (·.holds a) = false) :
    (spPrepCompute l s).mem.readByte a = s.mem.readByte a := by
  simp only [spPrepOutputs, List.any_cons, List.any_nil, Bool.or_false, Bool.or_eq_false_iff, not_holds_iff] at ha
  have hN : (spPrepConfigured l s).sp.actN.toNat ≤ Config.nMax := by
    rw [spPrepConfigured_actN]
    split <;> assumption
  unfold spPrepCompute
  dsimp only [setSp_mem, setMem_mem]
  rw [readByte_setBlock_of_outside]
  · rw [spPrepConfigured_mem]
    split
    · apply readByte_setBlock_of_outside
      rw [windowTable_length]
      simp only [Ram.base, Ram.words, Config.nMax] at ha h1 ⊢
      omega
    · rfl
  · rw [windowedWords_length _ _ (by rw [block_length, spPrepSamples_length]), spPrepSamples_length]
    simp only [Ram.base, Ram.words, Config.nMax] at ha hN ⊢
    omega

/-- An `SP_POST` writes its windows only (R111). -/
theorem spPostCompute_ram (l : SpPost) (s : State) (h : s.sp.actN.toNat ≤ Config.nMax)
    (a : Nat) (ha : spPostOutputs.any (·.holds a) = false) :
    (spPostCompute l s).mem.readByte a = s.mem.readByte a := by
  simp only [spPostOutputs, List.any_cons, List.any_nil, Bool.or_false, Bool.or_eq_false_iff, not_holds_iff] at ha
  unfold spPostCompute
  dsimp only [setSp_mem, setMem_mem]
  simp only [Ram.base, Ram.words, Config.nMax] at ha h
  rw [readByte_setBlock_of_outside, readByte_setBlock_of_outside, readByte_setBlock_of_outside]
  · simp only [rawFrame, List.length_map, block_length, Ram.base]; omega
  · simp only [displayFrame, rawFrame, List.length_zipWith, List.length_map, block_length, Ram.base]; omega
  · simp only [holdFrame, displayFrame, rawFrame, List.length_zipWith, List.length_map, block_length, Ram.base]; omega

/-- An idle SPEC has no step. -/
theorem completeSpec_idle {s : State} (h : s.sp.pending = none) : completeSpec s = s := by
  unfold completeSpec
  rw [h]

theorem completeSpec_busy {s : State} {c : SpCmd} (h : s.sp.pending = some c) :
    completeSpec s = finishSp c (spCompute c s) := by
  unfold completeSpec
  rw [h]

end Sys2Proof.Machine
end

