-- ==== Sys2Proof/Laws/Float.lean ====
section
/-! SUPPORT. The laws of rounding: a representable value rounds to itself, rounding is monotone, and the fields of a
packed pattern. -/

namespace Sys2Proof.Machine

/-! ## Fields of a packed pattern -/

theorem magBits_lt (a : F32) : magBits a < 2 ^ 31 := Nat.mod_lt _ (by decide)

/-- Every pattern is of exactly one class: finite, infinite, NaN (R250). -/
theorem class_cases (a : F32) :
    (isFinite a = true ∧ isInf a = false ∧ isNaN a = false) ∨ (isFinite a = false ∧ isInf a = true ∧ isNaN a = false) ∨
      (isFinite a = false ∧ isInf a = false ∧ isNaN a = true) := by
  unfold isFinite isInf isNaN
  simp only [decide_eq_true_eq, decide_eq_false_iff_not]
  omega

@[simp] theorem magBits_fabs (a : F32) : magBits (fabs a) = magBits a := by
  unfold magBits fabs
  rw [BitVec.toNat_and, show (0x7FFFFFFF : F32).toNat = 2 ^ 31 - 1 from rfl, Nat.and_two_pow_sub_one_eq_mod, Nat.mod_mod]

theorem pack_toNat (neg : Bool) (m : Nat) :
    (pack neg m).toNat = (if neg then 2 ^ 31 else 0) + min m 0x7F800000 := by
  unfold pack
  rw [BitVec.toNat_ofNat, Nat.mod_eq_of_lt]
  cases neg <;> simp <;> omega

@[simp] theorem magBits_pack (neg : Bool) (m : Nat) : magBits (pack neg m) = min m 0x7F800000 := by
  unfold magBits
  rw [pack_toNat]
  cases neg <;> simp

@[simp] theorem signBit_pack (neg : Bool) (m : Nat) : signBit (pack neg m) = neg := by
  unfold signBit
  rw [BitVec.msb_eq_decide, pack_toNat]
  cases neg <;> simp

/-- A non-NaN pattern is its sign and magnitude packed. -/
theorem pack_signBit_magBits (a : F32) (h : isNaN a = false) : pack (signBit a) (magBits a) = a := by
  apply BitVec.eq_of_toNat_eq
  rw [pack_toNat]
  simp only [isNaN, decide_eq_false_iff_not, not_lt] at h
  rw [Nat.min_eq_left h]
  have hs : signBit a = decide (2 ^ 31 ≤ a.toNat) := by
    unfold signBit; rw [BitVec.msb_eq_decide]
  have ha := a.isLt
  unfold magBits
  by_cases h2 : 2 ^ 31 ≤ a.toNat
  · simp only [hs, h2, decide_true, if_true]; omega
  · simp only [hs, h2, decide_false]; simp; omega

/-! ## Units and magnitude bits -/

theorem unitsOfMag_small {m : Nat} (h : m < 2 ^ 24) : unitsOfMag m = m := by
  unfold unitsOfMag
  split
  · omega
  · have : m / 2 ^ 23 = 1 := by omega
    rw [this]; simp; omega

/-- The magnitude bits of a significand at a shift. -/
theorem unitsOfMag_shift (e m : Nat) (hm : m ≤ 2 ^ 24) (h : e = 0 ∨ 2 ^ 23 ≤ m) :
    unitsOfMag (e * 2 ^ 23 + m) = m * 2 ^ e := by
  by_cases he : e = 0
  · subst he
    rcases Nat.lt_or_ge m (2 ^ 24) with h1 | h1
    · simp [unitsOfMag_small h1]
    · have : m = 2 ^ 24 := by omega
      subst this; decide
  · have h2 : 2 ^ 23 ≤ m := by omega
    rcases Nat.lt_or_ge m (2 ^ 24) with h1 | h1
    · unfold unitsOfMag
      have hd : (e * 2 ^ 23 + m) / 2 ^ 23 = e + 1 := by omega
      have hr : (e * 2 ^ 23 + m) % 2 ^ 23 = m - 2 ^ 23 := by omega
      rw [hd, hr, if_neg (by omega), Nat.sub_add_cancel h2]
      rfl
    · have : m = 2 ^ 24 := by omega
      subst this
      unfold unitsOfMag
      have hd : (e * 2 ^ 23 + 2 ^ 24) / 2 ^ 23 = e + 2 := by omega
      have hr : (e * 2 ^ 23 + 2 ^ 24) % 2 ^ 23 = 0 := by omega
      rw [hd, hr, if_neg (by omega)]
      rw [show e + 2 - 1 = e + 1 by omega, pow_succ]; ring

/-- Every magnitude is a significand at a shift. -/
theorem magnitude_cases (m : Nat) :
    ∃ e k, m = e * 2 ^ 23 + k ∧ k < 2 ^ 24 ∧ (e = 0 ∨ 2 ^ 23 ≤ k) ∧ unitsOfMag m = k * 2 ^ e := by
  by_cases h : m < 2 ^ 24
  · exact ⟨0, m, by omega, h, Or.inl rfl, by rw [unitsOfMag_small h]; simp⟩
  · refine ⟨m / 2 ^ 23 - 1, m % 2 ^ 23 + 2 ^ 23, by omega, by omega, Or.inr (by omega), ?_⟩
    rw [unitsOfMag, if_neg (by omega)]

/-! ## Rounding -/

theorem nearestEven_mul (k d : Nat) (hd : 0 < d) : nearestEven (k * d) d = k := by
  unfold nearestEven
  rw [Nat.mul_mod_left, Nat.mul_div_cancel _ hd, if_pos (Or.inl (by omega))]

theorem nearestEven_le (n d : Nat) : nearestEven n d ≤ n / d + 1 := by
  unfold nearestEven; split <;> omega

theorem le_nearestEven (n d : Nat) : n / d ≤ nearestEven n d := by
  unfold nearestEven; split <;> omega

/-- Rounding to an integer is monotone in the rational. -/
theorem nearestEven_mono (n₁ d₁ n₂ d₂ : Nat) (h₁ : 0 < d₁) (h₂ : 0 < d₂) (h : n₁ * d₂ ≤ n₂ * d₁) :
    nearestEven n₁ d₁ ≤ nearestEven n₂ d₂ := by
  have e₁ := Nat.div_add_mod n₁ d₁
  have e₂ := Nat.div_add_mod n₂ d₂
  have l₁ := Nat.mod_lt n₁ h₁
  have l₂ := Nat.mod_lt n₂ h₂
  have hq : n₁ / d₁ ≤ n₂ / d₂ := by
    rw [Nat.le_div_iff_mul_le h₂]
    have : n₁ / d₁ * d₁ ≤ n₁ := Nat.div_mul_le_self _ _
    nlinarith
  rcases Nat.lt_or_ge (n₁ / d₁) (n₂ / d₂) with hlt | hge
  · have := nearestEven_le n₁ d₁
    have := le_nearestEven n₂ d₂
    omega
  · have hq' : n₁ / d₁ = n₂ / d₂ := le_antisymm hq hge
    generalize hr₁ : n₁ % d₁ = r₁ at *
    generalize hr₂ : n₂ % d₂ = r₂ at *
    generalize hqq : n₂ / d₂ = q at *
    rw [hq'] at e₁
    have hr : r₁ * d₂ ≤ r₂ * d₁ := by
      have : (d₁ * q + r₁) * d₂ ≤ (d₂ * q + r₂) * d₁ := by rw [e₁, e₂]; exact h
      nlinarith
    unfold nearestEven
    rw [hr₁, hr₂, hq', hqq]
    by_cases c₂ : 2 * r₂ < d₂ ∨ 2 * r₂ = d₂ ∧ q % 2 = 0
    · have c₁ : 2 * r₁ < d₁ ∨ 2 * r₁ = d₁ ∧ q % 2 = 0 := by
        rcases c₂ with c | ⟨c, ce⟩
        · left
          by_contra hc
          push Not at hc
          have : d₁ * d₂ ≤ 2 * r₁ * d₂ := Nat.mul_le_mul_right _ hc
          have : 2 * r₂ * d₁ < d₂ * d₁ := Nat.mul_lt_mul_of_pos_right c h₁
          nlinarith
        · rcases Nat.lt_or_ge (2 * r₁) d₁ with hl | hg
          · exact Or.inl hl
          · right
            refine ⟨?_, ce⟩
            by_contra hne
            have hgt : d₁ < 2 * r₁ := by omega
            have : d₁ * d₂ < 2 * r₁ * d₂ := Nat.mul_lt_mul_of_pos_right hgt h₂
            nlinarith
      rw [if_pos c₁, if_pos c₂]
    · rw [if_neg c₂]
      split <;> omega

theorem shiftOf_spec (num den : Nat) (h : 0 < shiftOf num den) :
    2 ^ 23 * 2 ^ shiftOf num den ≤ num / den ∧ num / den < 2 ^ 24 * 2 ^ shiftOf num den := by
  unfold shiftOf at *
  generalize num / den = q at *
  have hq : q ≠ 0 := by rintro rfl; simp [Nat.log2_zero] at h
  have hl := Nat.log2_self_le hq
  have hu := (Nat.log2_lt hq).mp (Nat.lt_succ_self q.log2)
  rw [← pow_add, ← pow_add]
  have e1 : 23 + (q.log2 - 23) = q.log2 := by omega
  have e2 : 24 + (q.log2 - 23) = q.log2 + 1 := by omega
  rw [e1, e2]
  exact ⟨hl, hu⟩

theorem shiftOf_zero (num den : Nat) (h : shiftOf num den = 0) : num / den < 2 ^ 24 := by
  unfold shiftOf at h
  generalize num / den = q at *
  rcases Nat.eq_zero_or_pos q with rfl | hq
  · decide
  · have hq : q ≠ 0 := by omega
    have hu := (Nat.log2_lt hq).mp (Nat.lt_succ_self q.log2)
    exact lt_of_lt_of_le hu (Nat.pow_le_pow_right (by decide) (by omega))

/-- The significand that rounding leaves is in its binade, or carried to the next. -/
theorem significand_bounds (num den : Nat) (_hd : 0 < den) :
    nearestEven num (den * 2 ^ shiftOf num den) ≤ 2 ^ 24 ∧
      (shiftOf num den = 0 ∨ 2 ^ 23 ≤ nearestEven num (den * 2 ^ shiftOf num den)) := by
  have hp : 0 < 2 ^ shiftOf num den := Nat.two_pow_pos _
  have hdd : num / (den * 2 ^ shiftOf num den) = num / den / 2 ^ shiftOf num den := (Nat.div_div_eq_div_mul _ _ _).symm
  have hu := nearestEven_le num (den * 2 ^ shiftOf num den)
  have hl := le_nearestEven num (den * 2 ^ shiftOf num den)
  rw [hdd] at hu hl
  rcases Nat.eq_zero_or_pos (shiftOf num den) with h0 | h0
  · have := shiftOf_zero num den h0
    rw [h0] at hu ⊢
    simp only [pow_zero, Nat.div_one, Nat.mul_one] at hu ⊢
    exact ⟨by omega, Or.inl trivial⟩
  · obtain ⟨h1, h2⟩ := shiftOf_spec num den h0
    have h3 : num / den / 2 ^ shiftOf num den < 2 ^ 24 := (Nat.div_lt_iff_lt_mul hp).mpr h2
    have h4 : 2 ^ 23 ≤ num / den / 2 ^ shiftOf num den := (Nat.le_div_iff_mul_le hp).mpr h1
    exact ⟨by omega, Or.inr (by omega)⟩

/-- The units of a rounded magnitude: a significand shifted. -/
theorem unitsOfMag_roundMag (num den : Nat) (hd : 0 < den) :
    unitsOfMag (roundMag num den) = nearestEven num (den * 2 ^ shiftOf num den) * 2 ^ shiftOf num den := by
  obtain ⟨h1, h2⟩ := significand_bounds num den hd
  exact unitsOfMag_shift _ _ h1 h2

/-- A representable magnitude rounds to itself. -/
theorem roundMag_exact (m den : Nat) (hd : 0 < den) : roundMag (unitsOfMag m * den) den = m := by
  obtain ⟨e, k, hm, hk, hn, hu⟩ := magnitude_cases m
  have hq : unitsOfMag m * den / den = unitsOfMag m := Nat.mul_div_cancel _ hd
  have hs : shiftOf (unitsOfMag m * den) den = e := by
    unfold shiftOf
    rw [hq, hu]
    rcases hn with rfl | hn
    · rcases Nat.eq_zero_or_pos k with rfl | hk0
      · simp [Nat.log2_zero]
      · have : (k * 2 ^ 0).log2 < 24 := (Nat.log2_lt (by omega)).mpr (by simpa using hk)
        omega
    · have hk0 : k * 2 ^ e ≠ 0 := by
        have := Nat.two_pow_pos e
        exact Nat.mul_ne_zero (by omega) (by omega)
      have h1 : (k * 2 ^ e).log2 < 24 + e := (Nat.log2_lt hk0).mpr (by
        rw [pow_add]; exact Nat.mul_lt_mul_of_pos_right hk (Nat.two_pow_pos e))
      have h2 : 23 + e ≤ (k * 2 ^ e).log2 := (Nat.le_log2 hk0).mpr (by
        rw [pow_add]; exact Nat.mul_le_mul_right _ hn)
      omega
  unfold roundMag
  rw [hs, hu, show k * 2 ^ e * den = k * (den * 2 ^ e) by ring,
    nearestEven_mul _ _ (Nat.mul_pos hd (Nat.two_pow_pos e))]
  exact hm.symm

/-- A finite value rounds to itself. -/
theorem roundUnits_exact (a : F32) (h : isNaN a = false) (den : Nat) (hd : 0 < den) :
    roundUnits (signBit a) (units a * den) den = a := by
  unfold roundUnits units
  rw [roundMag_exact _ _ hd]
  exact pack_signBit_magBits a h

/-- Rounding is monotone in the rational. -/
theorem roundMag_mono (n₁ d₁ n₂ d₂ : Nat) (h₁ : 0 < d₁) (h₂ : 0 < d₂) (h : n₁ * d₂ ≤ n₂ * d₁) :
    roundMag n₁ d₁ ≤ roundMag n₂ d₂ := by
  have hq : n₁ / d₁ ≤ n₂ / d₂ := by
    rw [Nat.le_div_iff_mul_le h₂]
    have : n₁ / d₁ * d₁ ≤ n₁ := Nat.div_mul_le_self _ _
    nlinarith
  have hs : shiftOf n₁ d₁ ≤ shiftOf n₂ d₂ := by
    unfold shiftOf
    have : (n₁ / d₁).log2 ≤ (n₂ / d₂).log2 := by
      rcases Nat.eq_zero_or_pos (n₁ / d₁) with h0 | h0
      · rw [h0, Nat.log2_zero]; exact Nat.zero_le _
      · exact (Nat.le_log2 (by omega)).mpr (le_trans (Nat.log2_self_le (by omega)) hq)
    omega
  obtain ⟨hu₁, -⟩ := significand_bounds n₁ d₁ h₁
  obtain ⟨-, hl₂⟩ := significand_bounds n₂ d₂ h₂
  unfold roundMag
  rcases Nat.lt_or_ge (shiftOf n₁ d₁) (shiftOf n₂ d₂) with hlt | hge
  · have : 2 ^ 23 ≤ nearestEven n₂ (d₂ * 2 ^ shiftOf n₂ d₂) := by omega
    omega
  · have he : shiftOf n₁ d₁ = shiftOf n₂ d₂ := le_antisymm hs hge
    rw [he]
    have hp := Nat.two_pow_pos (shiftOf n₂ d₂)
    have := nearestEven_mono n₁ (d₁ * 2 ^ shiftOf n₂ d₂) n₂ (d₂ * 2 ^ shiftOf n₂ d₂)
      (Nat.mul_pos h₁ hp) (Nat.mul_pos h₂ hp) (by
        calc n₁ * (d₂ * 2 ^ shiftOf n₂ d₂) = n₁ * d₂ * 2 ^ shiftOf n₂ d₂ := by ring
          _ ≤ n₂ * d₁ * 2 ^ shiftOf n₂ d₂ := Nat.mul_le_mul_right _ h
          _ = n₂ * (d₁ * 2 ^ shiftOf n₂ d₂) := by ring)
    omega

/-- Units order magnitudes as their bits do. -/
theorem unitsOfMag_le_iff (m n : Nat) : unitsOfMag m ≤ unitsOfMag n ↔ m ≤ n := by
  constructor
  · intro h
    have := roundMag_mono (unitsOfMag m * 1) 1 (unitsOfMag n * 1) 1 (by decide) (by decide) (by omega)
    rwa [roundMag_exact _ _ (by decide), roundMag_exact _ _ (by decide)] at this
  · intro h
    by_contra hc
    have := roundMag_mono (unitsOfMag n * 1) 1 (unitsOfMag m * 1) 1 (by decide) (by decide) (by omega)
    rw [roundMag_exact _ _ (by decide), roundMag_exact _ _ (by decide)] at this
    have : m = n := le_antisymm h this
    subst this
    omega

theorem units_le_iff (a b : F32) : units a ≤ units b ↔ magBits a ≤ magBits b := unitsOfMag_le_iff _ _

/-! ## The integer square root -/

theorem isqrtBits_spec (bits x r : Nat) (hl : r * r ≤ x) (hu : x < (r + 2 ^ bits) * (r + 2 ^ bits)) :
    isqrtBits bits x r * isqrtBits bits x r ≤ x ∧ x < (isqrtBits bits x r + 1) * (isqrtBits bits x r + 1) := by
  induction bits generalizing r with
  | zero => exact ⟨hl, by simpa [isqrtBits] using hu⟩
  | succ bits ih =>
    rw [isqrtBits]
    split
    · rename_i h
      exact ih _ h (by rw [pow_succ] at hu; rwa [show r + 2 ^ bits + 2 ^ bits = r + 2 ^ bits * 2 by ring])
    · rename_i h
      exact ih _ hl (by omega)

/-- `isqrt x` is the largest root not above `x`. -/
theorem isqrt_spec (x : Nat) : isqrt x * isqrt x ≤ x ∧ x < (isqrt x + 1) * (isqrt x + 1) := by
  unfold isqrt
  apply isqrtBits_spec
  · omega
  · rcases Nat.eq_zero_or_pos x with rfl | hx
    · decide
    · have h1 := (Nat.log2_lt (by omega : x ≠ 0)).mp (Nat.lt_succ_self x.log2)
      rw [Nat.zero_add, ← pow_add]
      exact lt_of_lt_of_le h1 (Nat.pow_le_pow_right (by decide) (by omega))

end Sys2Proof.Machine
end

