-- ==== Sys2Proof/Laws/PerInstr.lean ====
section
/-! SUPPORT. Statements for all instructions, one lemma per constructor: the command word of a well-formed command has the
fields of spec/30_encoding.md R150. -/

namespace Sys2Proof.Laws

/-- The fields of a command word put together from its parts (R150). -/
theorem fields_of_parts (a : BitVec 16) (o : BitVec 8) :
    opcField (a ++ (0 : BitVec 8) ++ o) = o ∧ rsvField (a ++ (0 : BitVec 8) ++ o) = 0 ∧
      argField (a ++ (0 : BitVec 8) ++ o) = a := by
  refine ⟨?_, ?_, ?_⟩ <;> ext i hi <;>
    simp only [opcField, rsvField, argField, BitVec.getElem_extractLsb', BitVec.getLsbD_append]
  · simp [hi]
  · simp only [Nat.not_lt.mpr (Nat.le_add_right 8 i), Nat.add_sub_cancel_left]
    simp [hi]
  · have h1 : ¬ 16 + i < 8 := by omega
    have h2 : ¬ 16 + i - 8 < 8 := by omega
    have h3 : 16 + i - 8 - 8 = i := by omega
    simp [h1, h2, h3, hi]

/-- `OPC` is the command's opcode, `RSV` is 0 and `ARG` is its operand (R150, R151, R152). -/
def EncodingFields.Statement (i : Instr) : Prop :=
  i.wellFormed = true →
    opcField (encode i) = opcode i ∧ rsvField (encode i) = 0 ∧ argField (encode i) = argument i

theorem EncodingFields.nop : EncodingFields.Statement .nop := fun _ => fields_of_parts _ _

theorem EncodingFields.softReset : EncodingFields.Statement .softReset := fun _ => fields_of_parts _ _

theorem EncodingFields.dmReset : EncodingFields.Statement .dmReset := fun _ => fields_of_parts _ _

theorem EncodingFields.dmRun (n : Nat) : EncodingFields.Statement (.dmRun n) := fun _ => fields_of_parts _ _

theorem EncodingFields.spReset : EncodingFields.Statement .spReset := fun _ => fields_of_parts _ _

theorem EncodingFields.spPrep : EncodingFields.Statement .spPrep := fun _ => fields_of_parts _ _

theorem EncodingFields.spPost : EncodingFields.Statement .spPost := fun _ => fields_of_parts _ _

theorem EncodingFields.spStats : EncodingFields.Statement .spStats := fun _ => fields_of_parts _ _

end Sys2Proof.Laws
end

