-- ==== Sys2Proof/Laws/Step.lean ====
section
/-! SUPPORT. Everything a command, an agent's step and a step of the machine can do. -/

namespace Sys2Proof.Machine

/-! ## Commands (R201) -/

theorem dmBusy_cases (s : State) :
    (s.dm.pending.isSome = true ∧ s.dmBusy = true) ∨ (s.dm.pending = none ∧ s.dmBusy = false) := by
  unfold State.dmBusy
  generalize s.dm.pending = p
  cases p <;> simp

theorem spBusy_cases (s : State) :
    (s.sp.pending.isSome = true ∧ s.spBusy = true) ∨ (s.sp.pending = none ∧ s.spBusy = false) := by
  unfold State.spBusy
  generalize s.sp.pending = p
  cases p <;> simp

/-- Everything `DM_RUN n` can do at the `CMD` write. -/
theorem exec_dmRun_cases (n : Nat) (s : State) :
    (s.dm.pending.isSome = true ∧ exec (.dmRun n) s = .next (raise .engineBusy (encode (.dmRun n)) s)) ∨
    (s.dm.pending = none ∧ Config.iqDepth < n ∧
      exec (.dmRun n) s = .next (raise .countRange (encode (.dmRun n)) s)) ∨
    (s.dm.pending = none ∧ n ≤ Config.iqDepth ∧ exec (.dmRun n) s = .next (acceptDmRun n s)) := by
  simp only [exec, execDmRun]
  rcases dmBusy_cases s with ⟨hp, hb⟩ | ⟨hp, hb⟩
  · exact Or.inl ⟨hp, by rw [hb]; rfl⟩
  · rw [hb]
    rcases Nat.lt_or_ge Config.iqDepth n with hn | hn
    · exact Or.inr (Or.inl ⟨hp, hn, by simp [hn]⟩)
    · exact Or.inr (Or.inr ⟨hp, hn, by simp [Nat.not_lt.mpr hn]⟩)

/-- Everything `SP_PREP` can do at the `CMD` write. -/
theorem exec_spPrep_cases (s : State) :
    (s.sp.pending.isSome = true ∧ exec .spPrep s = .next (raise .engineBusy (encode .spPrep) s)) ∨
    (s.sp.pending = none ∧ exec .spPrep s = .next (acceptSpPrep s)) := by
  simp only [exec, execSpPrep]
  rcases spBusy_cases s with ⟨hp, hb⟩ | ⟨hp, hb⟩
  · exact Or.inl ⟨hp, by rw [hb]; rfl⟩
  · exact Or.inr ⟨hp, by rw [hb]; rfl⟩

/-- Everything `SP_POST` can do at the `CMD` write. -/
theorem exec_spPost_cases (s : State) :
    (s.sp.pending.isSome = true ∧ exec .spPost s = .next (raise .engineBusy (encode .spPost) s)) ∨
    (s.sp.pending = none ∧ s.sp.valid = false ∧ exec .spPost s = .next (raise .notConfigured (encode .spPost) s)) ∨
    (s.sp.pending = none ∧ s.sp.valid = true ∧ exec .spPost s = .next (acceptSpPost s)) := by
  simp only [exec, execSpPost]
  rcases spBusy_cases s with ⟨hp, hb⟩ | ⟨hp, hb⟩
  · exact Or.inl ⟨hp, by rw [hb]; rfl⟩
  · rw [hb]
    cases hv : s.sp.valid
    · exact Or.inr (Or.inl ⟨hp, rfl, rfl⟩)
    · exact Or.inr (Or.inr ⟨hp, rfl, rfl⟩)

/-- Everything `SP_STATS` can do at the `CMD` write. -/
theorem exec_spStats_cases (s : State) :
    (s.sp.pending.isSome = true ∧ exec .spStats s = .next (raise .engineBusy (encode .spStats) s)) ∨
    (s.sp.pending = none ∧ s.sp.valid = false ∧
      exec .spStats s = .next (raise .notConfigured (encode .spStats) s)) ∨
    (s.sp.pending = none ∧ s.sp.valid = true ∧
      exec .spStats s = .next (s.setSp { s.sp with pending := some .stats })) := by
  simp only [exec, execSpStats]
  rcases spBusy_cases s with ⟨hp, hb⟩ | ⟨hp, hb⟩
  · exact Or.inl ⟨hp, by rw [hb]; rfl⟩
  · rw [hb]
    cases hv : s.sp.valid
    · exact Or.inr (Or.inl ⟨hp, rfl, rfl⟩)
    · exact Or.inr (Or.inr ⟨hp, rfl, rfl⟩)

/-! ## Steps of the agents (R200) -/

theorem takeStep_read (off : Offset) (s : State) : takeStep (.read off) s = .next (hostRead off s) := rfl

theorem takeStep_write {off : Offset} (h : off ≠ cmdOffset) (v : Word) (s : State) :
    takeStep (.write off v) s = .next (hostWrite off v s) := if_neg h

theorem takeStep_command {w : Word} {i : Instr} (h : decode w = .ok i) (s : State) :
    takeStep (.write cmdOffset w) s = exec i s := by
  simp [takeStep, submit, h]

theorem takeStep_illegal {w : Word} {e : Illegal} (h : decode w = .error e) (s : State) :
    takeStep (.write cmdOffset w) s = .next (raise .illegalCmd w s) := by
  simp [takeStep, submit, h]

theorem takeStep_demod (s : State) : takeStep .demod s = .next (completeDemod s) := rfl

theorem takeStep_spec (s : State) : takeStep .spec s = .next (completeSpec s) := rfl

theorem takeStep_reset (s : State) : takeStep .reset s = .next (resetBlock s) := rfl

/-- Everything a step of an agent can do: a read, a write, an illegal or a decoded command, a completion, a reset. -/
theorem takeStep_cases {e : Event} {s t : State} (h : takeStep e s = .next t) :
    (∃ off, e = .read off ∧ t = hostRead off s) ∨
    (∃ off v, e = .write off v ∧ off ≠ cmdOffset ∧ t = hostWrite off v s) ∨
    (∃ w x, e = .write cmdOffset w ∧ decode w = .error x ∧ t = raise .illegalCmd w s) ∨
    (∃ w i, e = .write cmdOffset w ∧ decode w = .ok i ∧ exec i s = .next t) ∨
    (e = .demod ∧ t = completeDemod s) ∨ (e = .spec ∧ t = completeSpec s) ∨ (e = .reset ∧ t = resetBlock s) := by
  cases e with
  | read off => cases h; exact Or.inl ⟨off, rfl, rfl⟩
  | demod => cases h; simp
  | spec => cases h; simp
  | reset => cases h; simp
  | write off v =>
    by_cases ho : off = cmdOffset
    · subst ho
      cases hd : decode v with
      | ok i =>
        rw [takeStep_command hd] at h
        exact Or.inr (Or.inr (Or.inr (Or.inl ⟨v, i, rfl, hd, h⟩)))
      | error x =>
        rw [takeStep_illegal hd] at h
        cases h
        exact Or.inr (Or.inr (Or.inl ⟨v, x, rfl, hd, rfl⟩))
    · rw [takeStep_write ho] at h
      cases h
      exact Or.inr (Or.inl ⟨off, v, rfl, ho, rfl⟩)

/-! ## Steps of the machine -/

theorem step_scheduled {s : State} {e : Event} {rest : List Event} (h : s.schedule = e :: rest) :
    step s = takeStep e (s.setSchedule rest) := by
  unfold step
  rw [h]

/-- Everything a step of the machine can do: the next scheduled step, or else a completion or rest (log 2). -/
theorem step_cases {s t : State} (h : step s = .next t) :
    (∃ e rest, s.schedule = e :: rest ∧ takeStep e (s.setSchedule rest) = .next t) ∨
    (s.schedule = [] ∧ t = completeDemod s) ∨ (s.schedule = [] ∧ t = completeSpec s) ∨ (s.schedule = [] ∧ t = s) := by
  cases hs : s.schedule with
  | cons e rest =>
    rw [step_scheduled hs] at h
    exact Or.inl ⟨e, rest, rfl, h⟩
  | nil =>
    unfold step at h
    rw [hs] at h
    cases h
    unfold drain
    cases s.dmBusy <;> cases s.spBusy <;> simp

end Sys2Proof.Machine
end

