-- ==== Sys2Proof/Laws/Transcendental.lean ====
section
/-! SUPPORT. What `ATAN2_32` can answer, and the bounds of confined values. -/

namespace Sys2Proof.Machine

theorem fle_self_of_fle {a b : F32} (h : fle a b = true) : fle a a = true := by
  simp only [fle, Bool.and_eq_true] at h ⊢
  exact ⟨⟨h.1.1, h.1.1⟩, by simp⟩

/-- A confined value lies between its bounds. -/
theorem confine_bounds (p : F32) {lo hi : F32} (h : fle lo hi = true) :
    fle lo (confine p lo hi) = true ∧ fle (confine p lo hi) hi = true := by
  unfold confine
  split
  · rename_i hp
    simpa using hp
  · exact ⟨fle_self_of_fle h, h⟩

theorem fneg_piF32_le : fle (fneg piF32) piF32 = true := by decide +kernel

theorem atan2Infinite_bounds (y x : F32) :
    fle (fneg piF32) (atan2Infinite y x) = true ∧ fle (atan2Infinite y x) piF32 = true := by
  unfold atan2Infinite
  split
  · cases signBit y <;> decide +kernel
  · exact confine_bounds _ fneg_piF32_le

/-- A step of exactly pi (R263, R510): `y` zero, `x` negative, finite or infinite. -/
theorem atan2_exactly_pi {y x : F32} (hy : isZero y = true) (hx : flt x posZero = true) :
    atan2 y x = if signBit y then fneg piF32 else piF32 := by
  simp only [flt, Bool.and_eq_true, Bool.not_eq_true', decide_eq_true_eq, show value posZero = 0 from rfl] at hx
  have hs : signBit x = true := by
    cases h : signBit x
    · have := hx.2
      rw [value, h] at this
      simp only [Bool.false_eq_true, if_false] at this
      omega
    · rfl
  have hz : isZero x = false := by
    cases h : isZero x
    · rfl
    · simp only [isZero, decide_eq_true_eq] at h
      have := hx.2
      rw [value, units, h] at this
      simp [hs, unitsOfMag] at this
  have hn : isNaN y = false ∧ isInf y = false ∧ isZero (fabs y) = true := by
    simp only [isZero, decide_eq_true_eq] at hy
    exact ⟨by simp [isNaN, hy], by simp [isInf, hy], by simp [isZero, hy]⟩
  unfold atan2 atan2Infinite atan2Upper negateIf
  simp [hn, hs, hz, hy, hx.1]

/-- Everything `ATAN2_32` can answer: NaN from a NaN; an angle in range from an infinite operand (R510); a free value from
two zeros, where it is never called; the value of R263 otherwise. -/
theorem atan2_cases (y x : F32) :
    ((isNaN y = true ∨ isNaN x = true) ∧ atan2 y x = qNaN) ∨
    (isNaN y = false ∧ isNaN x = false ∧ (isInf y = true ∨ isInf x = true) ∧
      fle (fneg piF32) (atan2 y x) = true ∧ fle (atan2 y x) piF32 = true) ∨
    (isZero y = true ∧ isZero x = true ∧ atan2 y x = canonNaN (Config.atan2Draw y x)) ∨
    (isFinite y = true ∧ isFinite x = true ∧ (isZero y = false ∨ isZero x = false) ∧
      atan2 y x = negateIf (signBit y) (atan2Upper (fabs y) x)) := by
  unfold atan2
  split
  · rename_i h
    exact Or.inl ⟨by simpa using h, rfl⟩
  · rename_i hn
    simp only [Bool.or_eq_true, not_or, Bool.not_eq_true] at hn
    split
    · rename_i hi
      exact Or.inr (Or.inl ⟨hn.1, hn.2, by simpa using hi, atan2Infinite_bounds y x⟩)
    · rename_i hi
      simp only [Bool.or_eq_true, not_or, Bool.not_eq_true] at hi
      split
      · rename_i hz
        simp only [Bool.and_eq_true] at hz
        exact Or.inr (Or.inr (Or.inl ⟨hz.1, hz.2, rfl⟩))
      · rename_i hz
        have hy := class_cases y
        have hx := class_cases x
        refine Or.inr (Or.inr (Or.inr ⟨by simp_all, by simp_all, ?_, rfl⟩))
        cases h : isZero y <;> simp_all

end Sys2Proof.Machine
end

