-- ==== Sys2Proof/Tests/Slice0.lean ====
section
/-! SUPPORT. Tests with expected values taken from the spec (95_test_vectors.md and the rules' examples), and a witness for
the hypotheses of every statement of Certificates/Slice0/Obligations.lean that has some. -/

namespace Sys2Proof.Tests

open Sys2Proof.Machine

/-! ## Helpers -/

/-- The outcome is a next state that passes a check. -/
def nextIs (o : Host.Outcome State Fault Refusal) (check : State → Bool) : Bool :=
  match o with
  | .next t => check t
  | .fault _ => false
  | .refused _ => false

/-- RAM with some words written. -/
def ramWith (words : List (Ram × Nat × Word)) : Memory :=
  words.foldl (fun m p => m.writeWord (p.1.base + 4 * p.2.1) p.2.2) Memory.powerOn

/-- The state after reset with a schedule. -/
def resetThen (l : List Event) : State := State.reset.setSchedule l

/-- Both engines busy: `DM_RUN 16384` and `SP_PREP` accepted right after reset. -/
def bothBusy : State := acceptSpPrep (acceptDmRun 16384 State.reset)

/-- A small AM configuration: one tap of 1.0 in both stages, `R1 = 1`, `R2 = 2`. -/
def amDemod : Demod :=
  { Demod.reset with
    mod := 1, actMod := 1, actFs := 0x46FA0000, valid := true, dirtyMod := false, dirtyFs := false, dirtyTau := false,
    r1 := 1, r2 := 2, t1 := 1, t2 := 1, amAlpha := 0x3F000000 }

/-- The configuration with the IQ8 samples (64, 0), (64, 0) and the two coefficients in RAM, DEMOD's step scheduled. -/
def amState : State :=
  { State.reset with
    schedule := [.demod], dm := amDemod,
    mem := ramWith [(.dmIq, 0, 0x00400040), (.dmH1, 0, 0x3F800000), (.dmH2, 0, 0x3F800000)] }

/-- A spectrum of `n` bins with a correction of 2^-12, SPEC's step scheduled. -/
def specState (n : Word) (m : Memory) : State :=
  { State.reset with
    schedule := [.spec], mem := m, sp := { Spec.reset with valid := true, actN := n, minSep := 1, corr := 0x39800000 } }

/-! ## Well-formedness -/

theorem test_count_of_17_bits_refused : (Instr.dmRun 65536).wellFormed = false := by decide

theorem test_widest_count_well_formed : (Instr.dmRun 65535).wellFormed = true := by decide

/-! ## Decoding: words written out from R150 and R152, field by field (ARG, RSV, OPC) -/

theorem test_decode_nop : decode (0b0000000000000000#16 ++ 0b00000000#8 ++ 0b00000000#8) = .ok .nop := by decide

theorem test_decode_soft_reset : decode (0b0000000000000000#16 ++ 0b00000000#8 ++ 0b00000001#8) = .ok .softReset := by
  decide

theorem test_decode_dm_reset : decode (0b0000000000000000#16 ++ 0b00000000#8 ++ 0b00010000#8) = .ok .dmReset := by decide

theorem test_decode_dm_run : decode (0b1000000000000010#16 ++ 0b00000000#8 ++ 0b00010001#8) = .ok (.dmRun 32770) := by
  decide

theorem test_decode_sp_reset : decode (0b0000000000000000#16 ++ 0b00000000#8 ++ 0b00100000#8) = .ok .spReset := by decide

theorem test_decode_sp_prep : decode (0b0000000000000000#16 ++ 0b00000000#8 ++ 0b00100001#8) = .ok .spPrep := by decide

theorem test_decode_sp_post : decode (0b0000000000000000#16 ++ 0b00000000#8 ++ 0b00100010#8) = .ok .spPost := by decide

theorem test_decode_sp_stats : decode (0b0000000000000000#16 ++ 0b00000000#8 ++ 0b00100011#8) = .ok .spStats := by decide

theorem test_decode_arg_of_sp_prep_refused : decode 0x00010021 = .error .argNotZero := by decide

theorem test_decode_reserved_field_refused : decode 0x00000121 = .error .reservedField := by decide

theorem test_decode_reserved_opcode_refused : decode 0x00000030 = .error .unknownOpcode := by decide

theorem test_table_word : decodeTableWord 32 0x40000011 = some (.dmRun 16384) := by decide

theorem test_table_word_too_long : decodeTableWord 64 0x40000011 = none := by decide

theorem test_encode_dm_run : encode (.dmRun 16385) = 0x40010011 := by decide

theorem test_placed_word_runs_first : step (State.reset.withFetchWord 32 0x00080011) = exec (.dmRun 8) State.reset := rfl

/-! ## Commands -/

/-- R210. -/
theorem test_nop_busy : exec .nop bothBusy = .next bothBusy := rfl

/-- R211's example: `DM_FS` and `STATUS` after `SOFT_RESET`, both engines busy before. -/
theorem test_soft_reset : nextIs (exec .softReset bothBusy) (fun t =>
    readReg t .dmFs == 0x49F42400 && readReg t .status == 0 && readReg t .dmPend == 7 && readReg t .spPend == 3) = true := by
  decide

/-- R703: an aborted `DM_RUN` forgets the last word of `DM_AUD`, not the first word of `DM_IQ`. -/
theorem test_soft_reset_forgets_outputs : nextIs
    (exec .softReset { bothBusy with mem := ramWith [(.dmIq, 0, 5), (.dmAud, 16383, 7)] })
    (fun t => t.mem.cells.map (·.1) == [0x10000, 0x10001, 0x10002, 0x10003]) = true := by decide

/-- R490's example. -/
theorem test_dm_reset : nextIs (exec .dmReset State.reset) (fun t => (readReg t .dmPend).getLsbD 3) = true := by decide

/-- R380's example. -/
theorem test_sp_reset : nextIs (exec .spReset bothBusy) (fun t => (readReg t .spPend).getLsbD 2) = true := by decide

/-- R201: `DM_RUN 16385` is `COUNT_RANGE` with its word. -/
theorem test_dm_run_count_range : nextIs (exec (.dmRun 16385) State.reset) (fun t =>
    readReg t .errCode == 7 && readReg t .errInfo == 0x40010011 && !t.dmBusy) = true := by decide

/-- R501, R511, R330 by hand: envelope 0.5 twice, blocker 0.5 then 0.25 (alpha 0.5), stage 2 keeps the second, volume 1. -/
theorem test_dm_run_audio : nextIs (exec (.dmRun 2) amState) (fun u => nextIs (step u) (fun t =>
    t.mem.get .dmAud 0 == 0x3E800000 && readReg t .dmAudCount == 1 && readReg t .dmAudPeak == 0x3E800000 &&
      t.dmDone && !t.dmBusy)) = true := by decide +kernel

/-- R381's example: `N = 64`, no window, sample 0 = (64, -128). -/
theorem test_sp_prep_words : nextIs
    (exec .spPrep { State.reset with
      schedule := [.spec], sp := { Spec.reset with n := 64, win := 0 }, mem := ramWith [(.spIq, 0, 0x00008040)] })
    (fun u => nextIs (step u) (fun t =>
      t.mem.get .spWout 0 == 0x3F000000 && t.mem.get .spWout 1 == 0xBF800000 && t.sp.corr == 0x39800000 &&
        t.sp.actN == 64 && t.sp.minSep == 1 && t.sp.valid)) = true := by decide +kernel

/-- R201: `SP_PREP` while SPEC is busy. -/
theorem test_sp_prep_busy : nextIs (exec .spPrep bothBusy) (fun t =>
    readReg t .errCode == 2 && readReg t .errInfo == 0x21) = true := by decide

/-- R385's and R386's examples: magnitude 640 gives 20 dB, averaged by 4 into 0 gives 5; held as it is. -/
theorem test_sp_post_average : nextIs
    (exec .spPost
      { specState 1 (ramWith [(.spMag, 0, 0x44200000), (.spDisp, 0, 0)]) with
        sp := { (specState 1 Memory.powerOn).sp with avg := 4, emaInit := true, frameSeq := 0xFFFFFFFF } })
    (fun u => nextIs (step u) (fun t =>
      t.mem.get .spRaw 0 == 0x41A00000 && t.mem.get .spDisp 0 == 0x40A00000 && t.mem.get .spHold 0 == 0x40A00000 &&
        t.sp.frameSeq == 0 && t.frameNew)) = true := by decide +kernel

/-- R378: `SP_POST` before the first window. -/
theorem test_sp_post_not_configured : nextIs (exec .spPost State.reset) (fun t =>
    readReg t .errCode == 8 && readReg t .errInfo == 0x22) = true := by decide

/-- R443 to R447 by hand: bins 0, 0, 20, 0, 30, 0, 0, 0 have median 0 and the peaks 4 (30 dB) and 2 (20 dB), 10 dB apart. -/
theorem test_sp_stats_peaks : nextIs
    (exec .spStats (specState 8 (ramWith [(.spDisp, 0, 0), (.spDisp, 1, 0), (.spDisp, 2, 0x41A00000), (.spDisp, 3, 0),
      (.spDisp, 4, 0x41F00000), (.spDisp, 5, 0), (.spDisp, 6, 0), (.spDisp, 7, 0)])))
    (fun u => nextIs (step u) (fun t =>
      readReg t .stNoise == 0 && readReg t .stNpeaks == 2 && readReg t (.stPkBin 0) == 4 &&
        readReg t (.stPkPwr 1) == 0x41A00000 && readReg t .stSfdr == 0x41200000 && readReg t (.stPkBin 2) == 0)) = true := by
  decide +kernel

/-- R201: `SP_STATS` while SPEC is busy. -/
theorem test_sp_stats_busy : nextIs (exec .spStats bothBusy) (fun t =>
    readReg t .errCode == 2 && readReg t .errInfo == 0x23) = true := by decide

/-! ## Numbers: examples of the rules and vectors V1 to V5 -/

theorem test_iq_unpacking : iqSample (ramWith [(.dmIq, 0, 0x00C04080)]) .dmIq 1 = { i := 0xBF000000, q := 0 } := by
  decide +kernel

theorem test_fir_real : (runStream (firPushR 2 3 [0x3F000000, 0x3E800000, 0x3E800000]) Fir.cleared
    [0x3F800000, 0x40000000, 0x40800000, 0x41000000]).2 = [0x3FA00000, 0x40B00000] := by decide +kernel

theorem test_nco_increment : ncoSet 0x48F42400 0x49F42400 = 0x3FC90FDB := by decide +kernel

theorem test_nco_wrap : ncoAdvance 0x40490FDB 0x3FC90FDB = 0xBFC90FDC := by decide +kernel

theorem test_discriminator_quarter_turn :
    disc { i := 0, q := 0x3F000000 } { i := 0x3F000000, q := 0 } = 0x3FC90FDB := by decide +kernel

theorem test_envelope : envelope { i := 0x3EC00000, q := 0x3F000000 } = 0x3F200000 := by decide +kernel

theorem test_first_stage_factor : stage1Factor 1 0x49F42400 = 62 := by decide +kernel

theorem test_peak_order : insertPeak 30 0x41A00000 (insertPeak 20 0x41F00000 (insertPeak 10 0x41A00000 [])) =
    [{ bin := 20, pwr := 0x41F00000 }, { bin := 10, pwr := 0x41A00000 }, { bin := 30, pwr := 0x41A00000 }] := by
  decide +kernel

/-! ## Invariants at reset and at a busy state -/

theorem reset_registers : RegistersLegal State.reset :=
  ⟨by decide +kernel, by decide +kernel, rfl, rfl, rfl, rfl⟩

theorem unbuilt_reset : Demod.reset.Unbuilt := ⟨⟨rfl, rfl⟩, ⟨rfl, rfl⟩, rfl, rfl⟩

theorem peaks_nil : PeakListOk [] := ⟨Nat.zero_le _, fun _ h => absurd h List.not_mem_nil, List.Pairwise.nil⟩

theorem reset_engines : EnginesConsistent State.reset where
  configured h := absurd h Bool.false_ne_true
  unbuilt _ := unbuilt_reset
  audio := by decide
  windowed h := absurd h Bool.false_ne_true
  unwindowed _ := rfl
  firstPrep _ := Or.inl rfl
  window h := absurd h Bool.false_ne_true
  averaging h := absurd h Bool.false_ne_true
  holding h := absurd h Bool.false_ne_true
  peaks := peaks_nil

theorem reset_nco : NcoInRange State.reset := ⟨by decide +kernel, by decide +kernel, by decide +kernel, by decide +kernel⟩

theorem busy_registers : RegistersLegal bothBusy :=
  ⟨by decide +kernel, by decide +kernel, by decide +kernel, by decide +kernel, rfl, rfl⟩

theorem busy_engines : EnginesConsistent bothBusy where
  configured h := absurd h Bool.false_ne_true
  unbuilt _ := ⟨⟨rfl, rfl⟩, ⟨rfl, rfl⟩, rfl, rfl⟩
  audio := by decide
  windowed h := absurd h Bool.false_ne_true
  unwindowed _ := rfl
  firstPrep _ := Or.inr rfl
  window h := absurd h (by decide)
  averaging h := absurd h Bool.false_ne_true
  holding h := absurd h Bool.false_ne_true
  peaks := peaks_nil

/-! ## Witnesses: one for each statement with hypotheses, and one for each of its clauses -/

theorem witness_DecodeEncodeRoundTrip : (Instr.dmRun 65535).wellFormed = true := by decide

theorem witness_IllegalWordsRejected : ∃ (w : Word) (e : Illegal), decode w = .error e :=
  ⟨0xFFFF0000, .argNotZero, by decide⟩

theorem witness_NopChangesNothing :
    (0x00010000 : Word).extractLsb' 0 8 = 0 ∧ (0x00010000 : Word) ≠ 0 ∧ (0x00000100 : Word).extractLsb' 0 8 = 0 := by
  decide

/-- Each of the four sources pending while it is cleared. -/
theorem witness_InterruptLevel :
    let s := { State.reset with dmDone := true, spDone := true, frameNew := true, err := true }
    ∀ i ∈ [4, 5, 6, 8], (0x170 : Word).getLsbD i = true ∧ (readReg s .status).getLsbD i = true := by decide

theorem witness_StepRunsDecodedCommand :
    (∃ (s : State) (w : Word) (rest : List Event) (i : Instr),
      s.schedule = .write cmdOffset w :: rest ∧ decode w = .ok i) ∧
    (∃ (w : Nat) (i : Instr), w < 2 ^ 32 ∧ decode (BitVec.ofNat 32 w) = .ok i) :=
  ⟨⟨resetThen [.write cmdOffset 0xFFFF0011], 0xFFFF0011, [], .dmRun 65535, rfl, by decide⟩,
    ⟨0xFFFF0011, .dmRun 65535, by decide, by decide⟩⟩

/-- Both cases of the RAM clause occur: the last byte of `DM_AUD` while a `DM_RUN` is aborted, and the byte after it. -/
theorem witness_SoftResetResets :
    (bothBusy.dm.pending.isSome = true ∧ dmRunOutputs.any (·.holds 0x2FFFF) = true) ∧
    dmRunOutputs.any (·.holds 0x38000) = false ∧ spPrepOutputs.any (·.holds 0x38000) = false ∧
    (∃ l, bothBusy.sp.pending = some (.prep l)) ∧ spPrepOutputs.any (·.holds 0x44000) = true ∧
    spPostOutputs.any (·.holds 0x7FFFF) = true := by
  exact ⟨by decide, by decide, by decide, ⟨_, rfl⟩, by decide, by decide⟩

theorem witness_DmRunAccepted :
    (State.reset.dm.pending = none ∧ 16384 ≤ 16384) ∧ (State.reset.dm.pending = none ∧ 0 ≤ 16384) := by decide

theorem witness_DmRunRejected :
    (65535 < 2 ^ 16 ∧ bothBusy.dm.pending.isSome = true) ∧
    (16385 < 2 ^ 16 ∧ State.reset.dm.pending = none ∧ 16384 < 16385) := by decide

theorem witness_DmRunResult :
    amState.dm.pending = none ∧ 16384 ≤ 16384 ∧ amState.dm.valid = true ∧ amState.dm.mod = amState.dm.actMod ∧
      amState.dm.dirtyMod = false ∧ amState.dm.dirtyFs = false ∧ amState.dm.dirtyTau = false ∧
      amState.schedule = .demod :: [] := by decide

/-- The same with a reset pending. -/
theorem witness_DmRunResult_reset :
    let s := { amState with dm := { amDemod with resetPend := true } }
    s.dm.pending = none ∧ 1 ≤ 16384 ∧ s.dm.valid = true ∧ s.dm.mod = s.dm.actMod ∧ s.dm.dirtyMod = false ∧
      s.dm.dirtyFs = false ∧ s.dm.dirtyTau = false ∧ s.schedule = .demod :: [] ∧ s.dm.resetPend = true := by decide

/-- At reset but for a rate whose build fails with reason 1. Whether a build succeeds is the free parameter functions'
(log 9): no instance is fixed, so no witness of the success case can be written down. -/
theorem witness_DmRunReconfigures :
    let s := { resetThen [.demod] with dm := { Demod.reset with fs := 0x4DC35000 } }
    s.dm.pending = none ∧ 16384 ≤ 16384 ∧ s.schedule = .demod :: [] ∧ s.dm.dirtyMod = true ∧
      rebuildDesigns s.dm.mod s.dm.fs s.dm.tau = .error 1 ∧ s.dm.valid = false :=
  ⟨rfl, le_rfl, rfl, rfl, rfl, rfl⟩

/-- The same with a configuration built before, which the samples then run through, and a reset pending. -/
theorem witness_DmRunReconfigures_kept :
    let s := { amState with dm := { amDemod with fs := 0x4DC35000, dirtyFs := true, resetPend := true } }
    s.dm.pending = none ∧ 2 ≤ 16384 ∧ s.schedule = .demod :: [] ∧ s.dm.dirtyFs = true ∧
      rebuildDesigns s.dm.mod s.dm.fs s.dm.tau = .error 1 ∧ s.dm.valid = true :=
  ⟨rfl, by decide, rfl, rfl, rfl, rfl⟩

/-- FM at 409600000 Hz: the boundary of R495, reason 1. -/
theorem witness_TapCountsAndLimit : 1024 ≤ stage1Factor 0 0x4DC35000 ∧ stage1Factor 0 0x4DC35000 = 1024 := by
  decide +kernel

theorem witness_SpecCommandsAccepted :
    State.reset.sp.pending = none ∧
      (specState 64 Memory.powerOn).sp.pending = none ∧ (specState 64 Memory.powerOn).sp.valid = true := by decide

theorem witness_SpecCommandsRejected :
    bothBusy.sp.pending.isSome = true ∧ State.reset.sp.pending = none ∧ State.reset.sp.valid = false := by decide

theorem witness_SpPrepResult :
    (resetThen [.spec]).sp.pending = none ∧ legalFftSize (resetThen [.spec]).sp.n = true ∧
      (resetThen [.spec]).sp.actN.toNat ≤ 8192 ∧ (resetThen [.spec]).schedule = .spec :: [] := by decide

/-- The same where nothing is regenerated or cleared, at the largest size. -/
theorem witness_SpPrepResult_kept :
    let s := { specState 8192 Memory.powerOn with
      sp := { (specState 8192 Memory.powerOn).sp with n := 8192, dirtyN := false, dirtyWin := false } }
    s.sp.pending = none ∧ legalFftSize s.sp.n = true ∧ s.sp.actN.toNat ≤ 8192 ∧ s.schedule = .spec :: [] := by decide

theorem witness_SpPostResult :
    (specState 8192 Memory.powerOn).sp.pending = none ∧ (specState 8192 Memory.powerOn).sp.valid = true ∧
      (specState 8192 Memory.powerOn).sp.actN.toNat ≤ 8192 ∧
      (specState 8192 Memory.powerOn).schedule = .spec :: [] := by decide

theorem witness_SpStatsResult :
    (specState 64 Memory.powerOn).sp.pending = none ∧ (specState 64 Memory.powerOn).sp.valid = true ∧
      (specState 64 Memory.powerOn).schedule = .spec :: [] := by decide

/-- An offset of each case of a read: misaligned, unmapped, `CMD`, gated by a busy engine, and served. -/
theorem witness_HostReadOrder :
    0x7FFFF % 4 ≠ 0 ∧
    locate 0x02C = none ∧ locate 0x008 = some (.reg .cmd) ∧
    locate 0x17FFC = some (.ram .dmIq 0x17FFC) ∧ bothBusy.gated (ramAccess .dmIq) = true ∧
    locate 0x7FFFC = some (.ram .spHold 0x7FFFC) ∧ State.reset.gated (ramAccess .spHold) = false := by decide

/-- An offset of each case of a write: misaligned, unmapped, read only, gated, an illegal value, and performed. -/
theorem witness_HostWriteOrder :
    (0x7FFFF : Offset) ≠ 0x008 ∧ 0x7FFFF % 4 ≠ 0 ∧
    locate 0x4FFFC = none ∧ accessOf (.reg .id) = .ro ∧ locate 0x000 = some (.reg .id) ∧
    locate 0x10000 = some (.ram .dmIq 0x10000) ∧ bothBusy.gated (ramAccess .dmIq) = true ∧
    (locate 0x204 = some (.reg .spWin) ∧ legalValue .spWin 5 = false ∧ legalValue .spWin 4 = true) := by decide

theorem witness_UnmappedOffsets :
    (0x7FFFC < 2 ^ 19 ∧ 0x7FFFC % 4 = 0 ∧ (locate 0x7FFFC).isSome = true) ∧
    (0x4C000 < 2 ^ 19 ∧ 0x4C000 % 4 = 0 ∧ locate 0x4C000 = none) := by decide

theorem witness_ConfigWriteReadsBack :
    locate 0x20C = some (.reg .spCtrl) ∧ 0x20C % 4 = 0 ∧ regAccess .spCtrl = .cfg ∧
      legalValue .spCtrl 0xFFFFFFFF = true ∧
      (resetThen [.write 0x20C 0xFFFFFFFF, .read 0x20C]).schedule =
        .write 0x20C 0xFFFFFFFF :: .read 0x20C :: [] := by decide

theorem witness_RamWriteReadsBack :
    locate 0x37FFC = some (.ram .dmH2 0x37FFC) ∧ 0x37FFC % 4 = 0 ∧ ramAccess .dmH2 = .rwGated .demod ∧
      State.reset.busy .demod = false ∧
      (resetThen [.write 0x37FFC 1, .read 0x37FFC]).schedule = .write 0x37FFC 1 :: .read 0x37FFC :: [] := by decide

theorem witness_RamWriteReadsBack_correction :
    State.reset.sp.pending = none ∧
      (resetThen [.write 0x220 0xFFC00001, .read 0x220]).schedule = .write 0x220 0xFFC00001 :: .read 0x220 :: [] := by
  decide

theorem witness_StatusWriteClears :
    (raise .badValue 0x204 State.reset).err = true ∧
    (∃ t, takeStep .reset State.reset = .next t) ∧ (∃ t, takeStep .demod (raise .badValue 0x204 State.reset) = .next t) :=
  ⟨rfl, ⟨_, rfl⟩, ⟨_, rfl⟩⟩

/-- For the completion frames and the commuting completions: both engines busy, and both idle. -/
theorem witness_CompletionsCommute :
    (RegistersLegal bothBusy ∧ EnginesConsistent bothBusy ∧ bothBusy.dm.pending.isSome = true ∧
      bothBusy.sp.pending.isSome = true) ∧
    RegistersLegal State.reset ∧ EnginesConsistent State.reset ∧ State.reset.dm.pending = none ∧
      State.reset.sp.pending = none :=
  ⟨⟨busy_registers, busy_engines, rfl, rfl⟩, reset_registers, reset_engines, rfl, rfl⟩

theorem witness_DemodCompletionFrame :
    RegistersLegal bothBusy ∧ EnginesConsistent bothBusy ∧ bothBusy.dm.pending.isSome = true ∧
      State.reset.dm.pending = none := ⟨busy_registers, busy_engines, rfl, rfl⟩

theorem witness_SpecCompletionFrame :
    RegistersLegal bothBusy ∧ EnginesConsistent bothBusy ∧ bothBusy.sp.pending.isSome = true ∧
      State.reset.sp.pending = none := ⟨busy_registers, busy_engines, rfl, rfl⟩

/-- The disturbing step: a write of an input sample while DEMOD is busy. -/
theorem witness_BusyDemodUndisturbed :
    RegistersLegal bothBusy ∧ EnginesConsistent bothBusy ∧ bothBusy.dm.pending.isSome = true ∧
      Event.write 0x10000 1 ≠ .demod ∧ Event.write 0x10000 1 ≠ .reset ∧
      Event.write 0x10000 1 ≠ .write cmdOffset 0x00000001 ∧ ∃ t, takeStep (.write 0x10000 1) bothBusy = .next t :=
  ⟨busy_registers, busy_engines, rfl, by decide, by decide, by decide, ⟨_, rfl⟩⟩

/-- The disturbing step: a write of `SP_CORR` while SPEC is busy. -/
theorem witness_BusySpecUndisturbed :
    RegistersLegal bothBusy ∧ EnginesConsistent bothBusy ∧ bothBusy.sp.pending.isSome = true ∧
      Event.write 0x220 1 ≠ .spec ∧ Event.write 0x220 1 ≠ .reset ∧
      Event.write 0x220 1 ≠ .write cmdOffset 0x00000001 ∧ ∃ t, takeStep (.write 0x220 1) bothBusy = .next t :=
  ⟨busy_registers, busy_engines, rfl, by decide, by decide, by decide, ⟨_, rfl⟩⟩

theorem witness_FirOutputCount :
    (Fir.cleared : Fir F32).cnt < 1 ∧ (Fir.cleared : Fir C32).cnt < 1 ∧
      ({ line := [], pos := 0, cnt := 1022 } : Fir F32).cnt < 1023 := by decide

theorem witness_FirOutputIsInnerProduct : 0 < 1 ∧ 0 < 15 ∧ (0 < 1023 ∧ 0 < 4093) := by decide

theorem witness_AudioStream : amDemod.fir1.cnt < amDemod.r1.toNat ∧ amDemod.fir2.cnt < amDemod.r2.toNat := by decide

theorem witness_NcoIdentity :
    let x : C32 := { i := 0x3F000000, q := 0x00000000 }
    isFinite x.i = true ∧ isFinite x.q = true ∧ x.i ≠ negZero ∧ x.q ≠ negZero := by decide

/-- Both wraps: from `PI_F32` forward by `PI_F32`, and from just above `-PI_F32` backward by it. -/
theorem witness_PhaseStaysWrapped :
    (flt (fneg piF32) piF32 = true ∧ fle piF32 piF32 = true ∧ fle (fneg piF32) piF32 = true ∧
      flt piF32 (fadd piF32 piF32) = true) ∧
    (flt (fneg piF32) 0xC0490FDA = true ∧ fle 0xC0490FDA piF32 = true ∧ fle (fneg piF32) (fneg piF32) = true ∧
      fle (fneg piF32) piF32 = true ∧ fle (fadd 0xC0490FDA (fneg piF32)) (fneg piF32) = true) := by decide +kernel

/-- At the least subnormal and the largest finite value. -/
theorem witness_DeemphasisCoefficientRange :
    finitePositive 0x00000001 = true ∧ finitePositive 0x7F7FFFFF = true := by decide +kernel

/-- A finite product, one that overflows to infinity, one that is NaN, and a step of exactly pi whose product overflows,
with both signs of the zero. -/
theorem witness_DiscriminatorRange :
    (let z : C32 := { i := 0x3F000000, q := 0x3F000000 }
     isFinite z.i = true ∧ isFinite z.q = true ∧ isNaN (fadd (fmul z.i z.i) (fmul z.q z.q)) = false ∧
      isNaN (fsub (fmul z.q z.i) (fmul z.i z.q)) = false) ∧
    (let z : C32 := { i := 0x7F7FFFFF, q := 0 }
     fadd (fmul z.i z.i) (fmul z.q z.q) = posInf ∧ isNaN (fsub (fmul z.q z.i) (fmul z.i z.q)) = false) ∧
    (let z : C32 := { i := 0x7F7FFFFF, q := 0x7F7FFFFF }
     isNaN (fsub (fmul z.q z.i) (fmul z.i z.q)) = true) ∧
    (let z : C32 := { i := 0xFF7FFFFF, q := 0 }
     let p : C32 := { i := 0x7F7FFFFF, q := 0 }
     fadd (fmul z.i p.i) (fmul z.q p.q) = fneg posInf ∧ fsub (fmul z.q p.i) (fmul z.i p.q) = posZero ∧
      disc z p = piF32) ∧
    (let z : C32 := { i := 0xFF7FFFFF, q := negZero }
     let p : C32 := { i := 0x7F7FFFFF, q := negZero }
     fadd (fmul z.i p.i) (fmul z.q p.q) = fneg posInf ∧ fsub (fmul z.q p.i) (fmul z.i p.q) = negZero ∧
      disc z p = fneg piF32) := by decide +kernel

theorem witness_MeterIsLargest : (0x3F800000 : F32) ∈ [(0x3F800000 : F32), qNaN] ∧ isNaN 0x3F800000 = false := by
  decide

theorem witness_NoneWindowIsExact : legalFftSize 64 = true ∧ legalFftSize 8192 = true := by decide

theorem witness_DecibelFloorAndOrder :
    finitePositive 0x39800000 = true ∧ fle posZero negZero = true ∧ fle negZero posInf = true := by decide +kernel

theorem witness_AverageAndHoldSettle : isFinite 0xC2F00000 = true ∧ feq negZero posZero = true := by decide +kernel

theorem witness_MedianIsUpperMiddle : [(0x3F800000 : F32)] ≠ [] := by decide

/-- Bin 1 of four bins, the first that can be a peak; and with separation 4 the scan takes bins 1 and 5 of 1, 3 and 5, the
weaker ones, since it goes from left to right. -/
theorem witness_StrongestPeaksKept :
    (let d : List F32 := [0, 0x41A00000, 0, 0]
     1 ≤ 1 ∧ 1 + 2 ≤ d.length ∧ flt 0x40C00000 (d.getD 1 0) = true ∧ flt (d.getD (1 - 1) 0) (d.getD 1 0) = true ∧
      fle (d.getD (1 + 1) 0) (d.getD 1 0) = true ∧ findPeaks d 0x40C00000 2 = [{ bin := 1, pwr := 0x41A00000 }]) ∧
    findPeaks [0, 0x41A00000, 0, 0x41F00000, 0, 0x41A00000, 0] 0x40C00000 4 =
      [{ bin := 1, pwr := 0x41A00000 }, { bin := 5, pwr := 0x41A00000 }] := by
  decide +kernel

theorem witness_FlatSpectrumOnePeak :
    ∃ d : List F32, d = List.replicate 10 0x00000000 ++ 0x41A00000 :: List.replicate 53 0x00000000 := ⟨_, rfl⟩

/-- The largest finite value, the least subnormal, both zeros, an infinity; and results of each clause, by hand. -/
theorem witness_ArithmeticRoundsToNearest :
    (isFinite 0x7F7FFFFF = true ∧ isFinite 0x80000001 = true ∧ isZero 0x80000001 = false ∧ isZero negZero = true ∧
      isInf (fneg posInf) = true ∧ isFinite negZero = true ∧ isNaN posInf = false) ∧
    fdiv 0x80000001 posZero = fneg posInf ∧ fadd negZero negZero = negZero ∧ fsub one one = posZero ∧
    fmul negZero one = negZero ∧ fdiv (fneg one) posInf = negZero ∧ fmul (fneg posInf) 0x80000001 = posInf := by
  decide +kernel

theorem witness_SquareRootRoundsToNearest :
    isFinite 0x00000001 = true ∧ flt posZero 0x00000001 = true ∧ isFinite 0x40000000 = true ∧
      fle posZero 0x40000000 = true := by decide +kernel

theorem witness_NanIsCanonical :
    isNaN 0x7F800001 = true ∧ isNaN (fdiv posZero negZero) = true ∧ isZero negZero = true ∧ isInf (fneg posInf) = true ∧
      signBit 0x80000001 = true ∧ isZero 0x80000001 = false := by decide +kernel

theorem witness_AngleFunctionProperties :
    isFinite negZero = true ∧ isFinite posInf = false ∧ finitePositive 0x00000001 = true ∧
      isZero (0x3F800000 : F32) = false ∧ isNaN 0xFFC00000 = true := by decide +kernel

theorem witness_MonotoneFunctionProperties :
    isNaN 0x7FC00000 = true ∧ (isFinite 0xFF7FFFFF = true ∧ fle 0xFF7FFFFF posZero = true) ∧
      fle (fneg posInf) posInf = true ∧ finitePositive 0x7F7FFFFF = true ∧ flt posZero 0x00000001 = true ∧
      1 ≤ 10 ∧ isNaN negZero = false := by decide +kernel

/-- For the invariants: the state after reset with a `DM_RUN` about to be written to `CMD`. -/
theorem witness_MemoryStaysCanonical : ∃ s t, s.mem.wf = true ∧ step s = .next t :=
  ⟨resetThen [.write cmdOffset 0x40000011], _, rfl, rfl⟩

theorem witness_RegistersStayLegal : ∃ s t, RegistersLegal s ∧ step s = .next t :=
  ⟨resetThen [.write cmdOffset 0x40000011], _,
    ⟨reset_registers.demod, reset_registers.spec, rfl, rfl, rfl, rfl⟩, rfl⟩

/-- Both engines are busy; the step completes the `DM_RUN`. -/
theorem witness_EnginesStayConsistent : ∃ s t, RegistersLegal s ∧ EnginesConsistent s ∧ step s = .next t :=
  ⟨bothBusy, _, busy_registers, busy_engines, rfl⟩

theorem witness_NcoStaysInRange :
    ∃ s t, RegistersLegal s ∧ EnginesConsistent s ∧ NcoInRange s ∧ step s = .next t :=
  ⟨bothBusy, _, busy_registers, busy_engines,
    ⟨reset_nco.above, reset_nco.notAbove, reset_nco.incLow, reset_nco.incHigh⟩, rfl⟩

/-- Both kinds; an AM sample whose stage 1 gives an output, and one whose stage 2 gives one too (the second in a group). -/
theorem witness_SampleChain :
    (Demod.reset.actMod = 0 ∧ amDemod.actMod = 1) ∧
    (firPushC 1 1 [one] amDemod.fir1 { i := half, q := 0 }).2 = some { i := half, q := 0 } ∧
    (firPushC 2 1 [one] amDemod.fir1 { i := half, q := 0 }).2 = none ∧
    (firPushR 2 1 [one] { line := [half], pos := 0, cnt := 1 } half).2 = some half ∧
    (firPushR 2 1 [one] amDemod.fir2 half).2 = none := by decide +kernel

end Sys2Proof.Tests
end

section
/-! What a bus transaction does once its checks are decided, what a step of the machine can do, and the fields each of these
leaves alone. -/

namespace Sys2Proof.Machine

/-! ## Located places (R104, R105) -/

theorem locate_cmdOffset : locate cmdOffset.toNat = some (.reg .cmd) := by decide

/-- A place found in a RAM window is the word at the offset itself. -/
theorem locate_ram {off a : Nat} {w : Ram} (h : locate off = some (.ram w a)) : a = off := by
  unfold locate at h
  split at h
  · cases hr : regMap.lookup off with
    | none => simp [hr] at h
    | some r => simp [hr] at h
  · cases hf : Ram.all.find? (·.holds off) with
    | none => simp [hf] at h
    | some u => simp [hf] at h; exact h.2.symm

/-- Only `CMD` is write-only, so a place of another class is not at its offset (R34). -/
theorem ne_cmdOffset {off : Offset} {place : Target} (hl : locate off.toNat = some place)
    (ha : accessOf place ≠ .wo) : off ≠ cmdOffset := by
  rintro rfl
  rw [locate_cmdOffset] at hl
  cases hl
  exact ha rfl

/-! ## Transactions that pass their checks (R106, R107) -/

/-- A read of a mapped, readable place whose engine is idle returns its value (R106). -/
theorem readOutcome_of_readable {off : Offset} {s : State} {place : Target} (hal : off.toNat % 4 = 0)
    (hl : locate off.toNat = some place) (ha : accessOf place ≠ .wo) (hg : s.gated (accessOf place) = false) :
    readOutcome off s = .ok (readTarget s place) := by
  unfold readOutcome
  rw [if_neg (by omega), hl]
  dsimp only
  cases hc : accessOf place with
  | wo => exact absurd hc ha
  | roGated e => rw [hc] at hg; exact if_neg (by simpa [State.gated, Access.gate] using hg)
  | rwGated e => rw [hc] at hg; exact if_neg (by simpa [State.gated, Access.gate] using hg)
  | ro => rfl
  | w1c => rfl
  | cfg => rfl
  | rw => rfl

theorem hostRead_of_readable {off : Offset} {s : State} {place : Target} (hal : off.toNat % 4 = 0)
    (hl : locate off.toNat = some place) (ha : accessOf place ≠ .wo) (hg : s.gated (accessOf place) = false) :
    hostRead off s = s.setRdata (readTarget s place) := by
  unfold hostRead
  rw [readOutcome_of_readable hal hl ha hg]

/-- The checks a write of a configuration register or of a gated writable place has to pass (R107). -/
def writeAllowed (place : Target) (v : Word) (s : State) : Prop :=
  (accessOf place = .cfg ∧ legalAt place v = true) ∨ ∃ e, accessOf place = .rwGated e ∧ s.busy e = false

theorem writeAllowed_not_wo {place : Target} {v : Word} {s : State} (h : writeAllowed place v s) :
    accessOf place ≠ .wo := by
  rcases h with ⟨hc, -⟩ | ⟨e, hc, -⟩ <;> simp [hc]

theorem writeAllowed_not_gated {place : Target} {v : Word} {s : State} (h : writeAllowed place v s) :
    s.gated (accessOf place) = false := by
  rcases h with ⟨hc, -⟩ | ⟨e, hc, hb⟩
  · simp [hc, State.gated, Access.gate]
  · simp [hc, State.gated, Access.gate, hb]

/-- The counterpart of `writeOutcome_ok` for these two classes. -/
theorem hostWrite_of_allowed {off : Offset} {v : Word} {s : State} {place : Target} (hal : off.toNat % 4 = 0)
    (hl : locate off.toNat = some place) (h : writeAllowed place v s) :
    hostWrite off v s = writeTarget place v s := by
  unfold hostWrite writeOutcome
  rw [if_neg (by omega), hl]
  dsimp only
  rcases h with ⟨hc, hv⟩ | ⟨e, hc, hb⟩
  · simp [hc, hv]
  · simp [hc, hb]

/-! ## Fields a write leaves alone -/

theorem writeStatus_eq (v : Word) (s : State) :
    writeStatus v s = s.setDone (s.dmDone && !v.getLsbD 4) (s.spDone && !v.getLsbD 5) (s.frameNew && !v.getLsbD 6) ∨
    writeStatus v s = clearError
      (s.setDone (s.dmDone && !v.getLsbD 4) (s.spDone && !v.getLsbD 5) (s.frameNew && !v.getLsbD 6)) := by
  unfold writeStatus
  dsimp only
  split
  · exact Or.inr rfl
  · exact Or.inl rfl

/-- A register write leaves of DEMOD everything but shadows and pending flags; neither RAM nor the HOST's fields. -/
theorem writeReg_frame (r : Reg) (v : Word) (s : State) :
    (writeReg r v s).dm.withoutShadows = s.dm.withoutShadows ∧ (writeReg r v s).mem = s.mem ∧
      (writeReg r v s).schedule = s.schedule ∧ (writeReg r v s).rdata = s.rdata := by
  cases r with
  | status => rcases writeStatus_eq v s with h | h <;> (rw [writeReg, h]; exact ⟨rfl, rfl, rfl, rfl⟩)
  | _ => exact ⟨rfl, rfl, rfl, rfl⟩

theorem writeTarget_withoutShadows (place : Target) (v : Word) (s : State) :
    (writeTarget place v s).dm.withoutShadows = s.dm.withoutShadows := by
  cases place with
  | reg r =>
    obtain ⟨hdm, -⟩ := writeReg_frame r v s
    exact hdm
  | ram w a => rfl

@[simp] theorem writeTarget_schedule (place : Target) (v : Word) (s : State) :
    (writeTarget place v s).schedule = s.schedule := by
  cases place with
  | reg r =>
    obtain ⟨-, -, hschedule, -⟩ := writeReg_frame r v s
    exact hschedule
  | ram w a => rfl

/-- No write makes an engine busy or idle (R203). -/
theorem writeTarget_busy (place : Target) (v : Word) (s : State) (e : Engine) :
    (writeTarget place v s).busy e = s.busy e := by
  cases place with
  | ram w a => cases e <;> rfl
  | reg r =>
    cases r with
    | status => rcases writeStatus_eq v s with h | h <;> (rw [writeTarget, writeReg, h]; cases e <;> rfl)
    | _ => cases e <;> rfl

/-! ## A write and a read of one place -/

/-- A write the checks let through, and then a read of the same offset: the write rule is performed, and the word read is
what the place then holds. -/
theorem step_write_read {s : State} {off : Offset} {v : Word} {rest : List Event} {place : Target}
    (hal : off.toNat % 4 = 0) (hl : locate off.toNat = some place) (h : writeAllowed place v s)
    (hs : s.schedule = .write off v :: .read off :: rest) :
    let u := writeTarget place v (s.setSchedule (.read off :: rest))
    step s = .next u ∧
      step u = .next ((u.setSchedule rest).setRdata (readTarget (u.setSchedule rest) place)) := by
  have hwo := writeAllowed_not_wo h
  have hw : writeAllowed place v (s.setSchedule (.read off :: rest)) := by
    rcases h with h | ⟨e, hc, hb⟩
    · exact Or.inl h
    · exact Or.inr ⟨e, hc, by cases e <;> exact hb⟩
  intro u
  have hu : u.schedule = .read off :: rest := by simp [u]
  have hg : (u.setSchedule rest).gated (accessOf place) = false := by
    rw [← writeAllowed_not_gated hw]
    unfold State.gated
    cases (accessOf place).gate with
    | none => rfl
    | some e => exact writeTarget_busy place v _ e
  constructor
  · rw [step_scheduled hs, takeStep_write (ne_cmdOffset hl hwo), hostWrite_of_allowed hal hl hw]
  · rw [step_scheduled hu, takeStep_read, hostRead_of_readable hal hl hwo hg]

/-! ## Steps of the machine -/

/-- Everything an accepted or rejected command can do (R201): nothing, a reset, an error, a pending reset, an
acceptance. -/
theorem exec_cases {i : Instr} {s t : State} (h : exec i s = .next t) :
    t = s ∨ t = resetBlock s ∨ (∃ c info, t = raise c info s) ∨
      t = s.setDm { s.dm with resetPend := true } ∨ (∃ n, n ≤ Config.iqDepth ∧ t = acceptDmRun n s) ∨
      t = s.setSp { s.sp with resetPend := true } ∨ t = acceptSpPrep s ∨ t = acceptSpPost s ∨
      t = s.setSp { s.sp with pending := some .stats } := by
  cases i with
  | nop => cases h; simp
  | softReset => cases h; simp
  | dmReset => cases h; simp
  | spReset => cases h; simp
  | dmRun n =>
    rcases exec_dmRun_cases n s with ⟨-, e⟩ | ⟨-, -, e⟩ | ⟨-, hn, e⟩ <;> rw [e] at h <;> cases h
    · exact Or.inr (Or.inr (Or.inl ⟨_, _, rfl⟩))
    · exact Or.inr (Or.inr (Or.inl ⟨_, _, rfl⟩))
    · exact Or.inr (Or.inr (Or.inr (Or.inr (Or.inl ⟨n, hn, rfl⟩))))
  | spPrep =>
    rcases exec_spPrep_cases s with ⟨-, e⟩ | ⟨-, e⟩ <;> rw [e] at h <;> cases h
    · exact Or.inr (Or.inr (Or.inl ⟨_, _, rfl⟩))
    · simp
  | spPost =>
    rcases exec_spPost_cases s with ⟨-, e⟩ | ⟨-, -, e⟩ | ⟨-, -, e⟩ <;> rw [e] at h <;> cases h
    · exact Or.inr (Or.inr (Or.inl ⟨_, _, rfl⟩))
    · exact Or.inr (Or.inr (Or.inl ⟨_, _, rfl⟩))
    · simp
  | spStats =>
    rcases exec_spStats_cases s with ⟨-, e⟩ | ⟨-, -, e⟩ | ⟨-, -, e⟩ <;> rw [e] at h <;> cases h
    · exact Or.inr (Or.inr (Or.inl ⟨_, _, rfl⟩))
    · exact Or.inr (Or.inr (Or.inl ⟨_, _, rfl⟩))
    · simp

/-- Every operation a step is made of keeps `P`: the schedule and the read word changed, an error recorded, a write
performed, each command accepted, each engine completed, the block reset. -/
structure Kept (P : State → Prop) : Prop where
  schedule : ∀ {s}, P s → ∀ l, P (s.setSchedule l)
  rdata : ∀ {s}, P s → ∀ v, P (s.setRdata v)
  raised : ∀ {s}, P s → ∀ c info, P (raise c info s)
  written : ∀ {s off v place}, P s → writeOutcome off v s = .ok place → P (writeTarget place v s)
  dmReset : ∀ {s}, P s → P (s.setDm { s.dm with resetPend := true })
  dmRun : ∀ {s n}, P s → n ≤ Config.iqDepth → P (acceptDmRun n s)
  spReset : ∀ {s}, P s → P (s.setSp { s.sp with resetPend := true })
  spPrep : ∀ {s}, P s → P (acceptSpPrep s)
  spPost : ∀ {s}, P s → P (acceptSpPost s)
  spStats : ∀ {s}, P s → P (s.setSp { s.sp with pending := some .stats })
  demod : ∀ {s}, P s → P (completeDemod s)
  spec : ∀ {s}, P s → P (completeSpec s)
  reset : ∀ {s}, P s → P (resetBlock s)

theorem Kept.exec {P : State → Prop} (k : Kept P) {i : Instr} {s t : State} (hs : P s) (h : exec i s = .next t) :
    P t := by
  rcases exec_cases h with rfl | rfl | ⟨c, info, rfl⟩ | rfl | ⟨n, hn, rfl⟩ | rfl | rfl | rfl | rfl
  · exact hs
  · exact k.reset hs
  · exact k.raised hs c info
  · exact k.dmReset hs
  · exact k.dmRun hs hn
  · exact k.spReset hs
  · exact k.spPrep hs
  · exact k.spPost hs
  · exact k.spStats hs

theorem Kept.takeStep {P : State → Prop} (k : Kept P) {e : Event} {s t : State} (hs : P s)
    (h : takeStep e s = .next t) : P t := by
  rcases takeStep_cases h with ⟨off, -, rfl⟩ | ⟨off, v, -, -, rfl⟩ | ⟨w, x, -, -, rfl⟩ | ⟨w, i, -, -, h⟩ | ⟨-, rfl⟩ |
    ⟨-, rfl⟩ | ⟨-, rfl⟩
  · rcases hostRead_cases off s with ⟨v, -, e⟩ | ⟨c, -, e⟩ <;> rw [e]
    · exact k.rdata hs v
    · exact k.rdata (k.raised hs c _) 0
  · rcases hostWrite_cases off v s with ⟨place, ho, e⟩ | ⟨c, -, e⟩ <;> rw [e]
    · exact k.written hs ho
    · exact k.raised hs c _
  · exact k.raised hs .illegalCmd w
  · exact k.exec hs h
  · exact k.demod hs
  · exact k.spec hs
  · exact k.reset hs

/-- What every operation keeps, every step of the machine keeps (R200). -/
theorem Kept.step {P : State → Prop} (k : Kept P) {s t : State} (hs : P s) (h : step s = .next t) : P t := by
  rcases step_cases h with ⟨e, rest, -, h⟩ | ⟨-, rfl⟩ | ⟨-, rfl⟩ | ⟨-, rfl⟩
  · exact k.takeStep (k.schedule hs rest) h
  · exact k.demod hs
  · exact k.spec hs
  · exact hs

end Sys2Proof.Machine
end

section
/-! Every operation keeps the configuration registers, their latched copies, the interrupt enables and the error record
legal (O57). -/

namespace Sys2Proof.Machine

/-! ## The error record (R37, R601) -/

theorem errNumber_range (c : ErrCode) : 1 ≤ (errNumber c).toNat ∧ (errNumber c).toNat ≤ 9 := by
  cases c <;> decide

theorem raise_errorRecordLegal {s : State} (h : s.errorRecordLegal = true) (c : ErrCode) (info : Word) :
    (raise c info s).errorRecordLegal = true := by
  rcases raise_cases s c info with ⟨-, e⟩ | ⟨-, e⟩ <;> rw [e]
  · exact h
  · simp [State.errorRecordLegal, errNumber_range c]

theorem dmRunConfigured_errorRecordLegal {s : State} (h : s.errorRecordLegal = true) (c : DmRun) :
    (dmRunConfigured c s).errorRecordLegal = true := by
  have hr : (dmRunReset c s).errorRecordLegal = true := by
    unfold dmRunReset
    split <;> exact h
  unfold dmRunConfigured
  dsimp only
  split
  · rcases rebuild_cases c.mod c.fs c.tau (dmRunReset c s) with ⟨r, -, e⟩ | ⟨h1, h2, -, e⟩ <;> rw [e]
    · exact raise_errorRecordLegal hr .buildFail r
    · exact hr
  · exact hr

theorem dmRunCompute_errorRecordLegal {s : State} (h : s.errorRecordLegal = true) (c : DmRun) :
    (dmRunCompute c s).errorRecordLegal = true := by
  have hc := dmRunConfigured_errorRecordLegal h c
  unfold dmRunCompute
  dsimp only
  split
  · exact hc
  · exact raise_errorRecordLegal hc .notConfigured _

/-! ## Legal shadows and what is latched from them (R40 to R54, R204) -/

theorem Demod.configLegal_iff (d : Demod) :
    d.configLegal = true ↔
      legalValue .dmMod d.mod = true ∧ legalValue .dmFs d.fs = true ∧ legalValue .dmTau d.tau = true ∧
        legalValue .dmTune d.tune = true ∧ legalValue .dmVol d.vol = true ∧ legalValue .dmAmAlpha d.amAlpha = true := by
  simp only [Demod.configLegal, Bool.and_eq_true, and_assoc]

theorem Spec.configLegal_iff (e : Spec) :
    e.configLegal = true ↔
      legalValue .spN e.n = true ∧ legalValue .spWin e.win = true ∧ legalValue .spAvg e.avg = true ∧
        e.ctrl &&& ~~~ctrlMask = 0 ∧ legalValue .spPhRate e.phRate = true ∧ legalValue .spPhDt e.phDt = true ∧
        legalValue .spDcbAlpha e.dcbAlpha = true := by
  simp only [Spec.configLegal, Bool.and_eq_true, beq_iff_eq, and_assoc]

theorem latchDmRun_legal {d : Demod} (h : d.configLegal = true) {n : Nat} (hn : n ≤ Config.iqDepth) :
    (latchDmRun n d).legal = true := by
  rw [Demod.configLegal_iff] at h
  simp only [DmRun.legal, latchDmRun, Bool.and_eq_true, and_assoc]
  exact ⟨decide_eq_true hn, h⟩

theorem latchSpPrep_legal {e : Spec} (h : e.configLegal = true) : (SpCmd.prep (latchSpPrep e)).legal = true := by
  obtain ⟨hn, hwin, -, -, -, -, halpha⟩ := e.configLegal_iff.mp h
  simp [SpCmd.legal, latchSpPrep, hn, hwin, halpha]

theorem latchSpPost_legal {e : Spec} (h : e.configLegal = true) : (SpCmd.post (latchSpPost e)).legal = true := by
  obtain ⟨-, -, havg, -, hrate, hdt, -⟩ := e.configLegal_iff.mp h
  simp [SpCmd.legal, latchSpPost, havg, hrate, hdt]

/-- A masked word has none of the other bits (R36, R51). -/
theorem and_mask_and_not (v m : Word) : v &&& m &&& ~~~m = 0 := by
  rw [BitVec.and_assoc, BitVec.and_not_self]
  exact BitVec.and_zero

/-! ## Legal registers after an update -/

/-- Legality depends on the engines, the interrupt enables and the error record only. -/
theorem RegistersLegal.of_eq {s t : State} (h : RegistersLegal s) (hdm : t.dm = s.dm) (hsp : t.sp = s.sp)
    (hirq : t.irqEn = s.irqEn) (he : t.errorRecordLegal = true) : RegistersLegal t :=
  ⟨hdm ▸ h.demod, hsp ▸ h.spec, hdm ▸ h.demodLatched, hsp ▸ h.specLatched, hirq ▸ h.interrupt, he⟩

theorem RegistersLegal.setDm {s : State} (h : RegistersLegal s) {d : Demod} (hd : d.configLegal = true)
    (hp : d.pending.all DmRun.legal = true) : RegistersLegal (s.setDm d) :=
  ⟨hd, h.spec, hp, h.specLatched, h.interrupt, h.error⟩

theorem RegistersLegal.setSp {s : State} (h : RegistersLegal s) {e : Spec} (he : e.configLegal = true)
    (hp : e.pending.all SpCmd.legal = true) : RegistersLegal (s.setSp e) :=
  ⟨h.demod, he, h.demodLatched, hp, h.interrupt, h.error⟩

theorem RegistersLegal.raise {s : State} (h : RegistersLegal s) (c : ErrCode) (info : Word) :
    RegistersLegal (raise c info s) :=
  h.of_eq (raise_dm s c info) (raise_sp s c info) (raise_irqEn s c info) (raise_errorRecordLegal h.error c info)

theorem RegistersLegal.writeStatus {s : State} (h : RegistersLegal s) (v : Word) : RegistersLegal (writeStatus v s) := by
  rcases writeStatus_eq v s with e | e <;> rw [e]
  · exact h.of_eq rfl rfl rfl h.error
  · exact h.of_eq rfl rfl rfl rfl

/-- A write of a legal value keeps the registers legal; what is masked on the way in is legal whatever the value. -/
theorem RegistersLegal.writeReg {s : State} (h : RegistersLegal s) {r : Reg} {v : Word} (hv : legalValue r v = true) :
    RegistersLegal (writeReg r v s) := by
  obtain ⟨hmod, hfs, htau, htune, hvol, ham⟩ := s.dm.configLegal_iff.mp h.demod
  obtain ⟨hn, hwin, havg, hctrl, hrate, hdt, halpha⟩ := s.sp.configLegal_iff.mp h.spec
  cases r with
  | status => exact h.writeStatus v
  | irqEn => exact ⟨h.demod, h.spec, h.demodLatched, h.specLatched, and_mask_and_not v irqMask, h.error⟩
  | dmMod => exact h.setDm ((Demod.configLegal_iff _).mpr ⟨hv, hfs, htau, htune, hvol, ham⟩) h.demodLatched
  | dmFs => exact h.setDm ((Demod.configLegal_iff _).mpr ⟨hmod, hv, htau, htune, hvol, ham⟩) h.demodLatched
  | dmTau => exact h.setDm ((Demod.configLegal_iff _).mpr ⟨hmod, hfs, hv, htune, hvol, ham⟩) h.demodLatched
  | dmTune => exact h.setDm ((Demod.configLegal_iff _).mpr ⟨hmod, hfs, htau, hv, hvol, ham⟩) h.demodLatched
  | dmVol => exact h.setDm ((Demod.configLegal_iff _).mpr ⟨hmod, hfs, htau, htune, hv, ham⟩) h.demodLatched
  | dmAmAlpha => exact h.setDm ((Demod.configLegal_iff _).mpr ⟨hmod, hfs, htau, htune, hvol, hv⟩) h.demodLatched
  | spN => exact h.setSp ((Spec.configLegal_iff _).mpr ⟨hv, hwin, havg, hctrl, hrate, hdt, halpha⟩) h.specLatched
  | spWin => exact h.setSp ((Spec.configLegal_iff _).mpr ⟨hn, hv, havg, hctrl, hrate, hdt, halpha⟩) h.specLatched
  | spAvg => exact h.setSp ((Spec.configLegal_iff _).mpr ⟨hn, hwin, hv, hctrl, hrate, hdt, halpha⟩) h.specLatched
  | spCtrl =>
    exact h.setSp ((Spec.configLegal_iff _).mpr
      ⟨hn, hwin, havg, and_mask_and_not v ctrlMask, hrate, hdt, halpha⟩) h.specLatched
  | spPhRate => exact h.setSp ((Spec.configLegal_iff _).mpr ⟨hn, hwin, havg, hctrl, hv, hdt, halpha⟩) h.specLatched
  | spPhDt => exact h.setSp ((Spec.configLegal_iff _).mpr ⟨hn, hwin, havg, hctrl, hrate, hv, halpha⟩) h.specLatched
  | spDcbAlpha => exact h.setSp ((Spec.configLegal_iff _).mpr ⟨hn, hwin, havg, hctrl, hrate, hdt, hv⟩) h.specLatched
  | spCorr => exact h.setSp h.spec h.specLatched
  | _ => exact h

theorem legalValue_of_not_cfg {r : Reg} (h : regAccess r ≠ .cfg) (v : Word) : legalValue r v = true := by
  cases r <;> first | rfl | contradiction

/-- A write that is performed writes a legal value: `CFG` places are checked (R107), the others have no check. -/
theorem writeOutcome_legalAt {off : Offset} {v : Word} {s : State} {place : Target}
    (h : writeOutcome off v s = .ok place) : legalAt place v = true := by
  obtain ⟨-, -, ha⟩ := writeOutcome_ok h
  cases place with
  | ram w a => rfl
  | reg r =>
    by_cases hc : regAccess r = .cfg
    · simpa [accessOf, hc] using ha
    · exact legalValue_of_not_cfg hc v

/-! ## Completions -/

theorem RegistersLegal.completeDemod {s : State} (h : RegistersLegal s) : RegistersLegal (completeDemod s) := by
  cases hp : s.dm.pending with
  | none => rw [completeDemod_idle hp]; exact h
  | some c =>
    rw [completeDemod_busy hp]
    obtain ⟨hs, hd, -⟩ := dmRunCompute_frame c s
    have he := dmRunCompute_errorRecordLegal h.error c
    generalize dmRunCompute c s = t at *
    refine ⟨?_, ?_, rfl, ?_, ?_, he⟩
    · show Demod.configLegal { t.dm with pending := none } = true
      rw [hd]; exact h.demod
    · show t.sp.configLegal = true
      rw [hs]; exact h.spec
    · show t.sp.pending.all SpCmd.legal = true
      rw [hs]; exact h.specLatched
    · show t.irqEn &&& ~~~irqMask = 0
      rw [hs]; exact h.interrupt

theorem RegistersLegal.completeSpec {s : State} (h : RegistersLegal s) : RegistersLegal (completeSpec s) := by
  cases hp : s.sp.pending with
  | none => rw [completeSpec_idle hp]; exact h
  | some c =>
    rw [completeSpec_busy hp]
    obtain ⟨hs, he⟩ := spCompute_frame c s
    generalize spCompute c s = t at *
    have hsp : Spec.configLegal { t.sp with pending := none } = true := by rw [he]; exact h.spec
    rw [hs]
    exact ⟨h.demod, hsp, h.demodLatched, rfl, h.interrupt, h.error⟩

/-! ## Reset -/

theorem resetBlock_registersLegal (s : State) : RegistersLegal (resetBlock s) :=
  ⟨show Demod.reset.configLegal = true by decide, show Spec.reset.configLegal = true by decide, rfl, rfl,
    BitVec.zero_and, rfl⟩

/-! ## Every step -/

theorem registersLegal_kept : Kept RegistersLegal where
  schedule h _ := h.of_eq rfl rfl rfl h.error
  rdata h _ := h.of_eq rfl rfl rfl h.error
  raised h := h.raise
  written {s _ v place} h ho := by
    cases place with
    | reg r => exact h.writeReg (writeOutcome_legalAt ho)
    | ram w a => exact h.of_eq rfl rfl rfl h.error
  dmReset h := h.setDm h.demod h.demodLatched
  dmRun h hn := h.setDm h.demod (latchDmRun_legal h.demod hn)
  spReset h := h.setSp h.spec h.specLatched
  spPrep h := h.setSp h.spec (latchSpPrep_legal h.spec)
  spPost h := h.setSp h.spec (latchSpPost_legal h.spec)
  spStats h := h.setSp h.spec rfl
  demod h := h.completeDemod
  spec h := h.completeSpec
  reset {s} _ := resetBlock_registersLegal s

/-- Settles O57: every operation a step is made of keeps the registers legal. -/
theorem registersStayLegal : Obligations.RegistersStayLegal := by
  intro s t hs h
  exact registersLegal_kept.step hs h

end Sys2Proof.Machine
end

section
/-! Rounding never leaves an interval with representable ends, so the NCO stays in range (O59). -/

namespace Sys2Proof.Machine

/-! ## Order of values -/

theorem fle_iff (a b : F32) : fle a b = true ↔ isNaN a = false ∧ isNaN b = false ∧ value a ≤ value b := by
  simp only [fle, Bool.and_eq_true, Bool.not_eq_true', decide_eq_true_eq, and_assoc]

theorem flt_iff (a b : F32) : flt a b = true ↔ isNaN a = false ∧ isNaN b = false ∧ value a < value b := by
  simp only [flt, Bool.and_eq_true, Bool.not_eq_true', decide_eq_true_eq, and_assoc]

theorem fle_refl {a : F32} (h : isNaN a = false) : fle a a = true := (fle_iff a a).mpr ⟨h, h, le_refl _⟩

theorem fle_trans {a b c : F32} (hab : fle a b = true) (hbc : fle b c = true) : fle a c = true := by
  obtain ⟨ha, -, hab⟩ := (fle_iff _ _).mp hab
  obtain ⟨-, hc, hbc⟩ := (fle_iff _ _).mp hbc
  exact (fle_iff _ _).mpr ⟨ha, hc, by omega⟩

theorem fle_of_flt {a b : F32} (h : flt a b = true) : fle a b = true := by
  obtain ⟨ha, hb, h⟩ := (flt_iff _ _).mp h
  exact (fle_iff _ _).mpr ⟨ha, hb, by omega⟩

theorem flt_of_flt_of_fle {a b c : F32} (hab : flt a b = true) (hbc : fle b c = true) : flt a c = true := by
  obtain ⟨ha, -, hab⟩ := (flt_iff _ _).mp hab
  obtain ⟨-, hc, hbc⟩ := (fle_iff _ _).mp hbc
  exact (flt_iff _ _).mpr ⟨ha, hc, by omega⟩

theorem natAbs_value (a : F32) : (value a).natAbs = units a := by
  unfold value
  split <;> simp

@[simp] theorem magBits_fneg (a : F32) : magBits (fneg a) = magBits a := by
  unfold magBits fneg
  rw [BitVec.toNat_xor, Nat.xor_mod_two_pow, show (0x80000000 : F32).toNat % 2 ^ 31 = 0 from rfl, Nat.xor_zero]

@[simp] theorem signBit_fneg (a : F32) : signBit (fneg a) = !signBit a := by
  unfold signBit fneg
  rw [BitVec.msb_xor, show (0x80000000 : F32).msb = true from rfl, Bool.xor_true]

@[simp] theorem value_fneg (a : F32) : value (fneg a) = -value a := by
  unfold value units
  rw [signBit_fneg, magBits_fneg]
  cases signBit a <;> simp

/-- A value between `-b` and `b` has at most the magnitude of `b`. -/
theorem magBits_le_of_between {a b : F32} (hl : fle (fneg b) a = true) (hu : fle a b = true) :
    magBits a ≤ magBits b := by
  obtain ⟨-, -, hl⟩ := (fle_iff _ _).mp hl
  obtain ⟨-, -, hu⟩ := (fle_iff _ _).mp hu
  rw [value_fneg] at hl
  rw [← units_le_iff, ← natAbs_value, ← natAbs_value]
  omega

theorem between_of_units_le {a b : F32} (ha : isNaN a = false) (hb : isNaN b = false) (hs : signBit b = false)
    (h : units a ≤ units b) : fle (fneg b) a = true ∧ fle a b = true := by
  have hvb : value b = units b := by simp [value, hs]
  have hva := natAbs_value a
  have hn : isNaN (fneg b) = false := by simpa [isNaN] using hb
  rw [fle_iff, fle_iff, value_fneg]
  exact ⟨⟨hn, ha, by omega⟩, ha, hb, by omega⟩

/-! ## Rounding keeps bounds (R251, R254) -/

@[simp] theorem isNaN_roundUnits (neg : Bool) (num den : Nat) : isNaN (roundUnits neg num den) = false := by
  simp [roundUnits, isNaN]

/-- Rounding stays at or below a representable magnitude. -/
theorem units_roundUnits_le {num den : Nat} {c : F32} (neg : Bool) (hd : 0 < den) (h : num ≤ units c * den) :
    units (roundUnits neg num den) ≤ units c := by
  have hm : roundMag num den ≤ magBits c := by
    rw [← roundMag_exact (magBits c) den hd]
    exact roundMag_mono _ _ _ _ hd hd (Nat.mul_le_mul_right _ h)
  rw [units_le_iff, roundUnits, magBits_pack]
  omega

/-- Rounding stays at or above a representable magnitude. -/
theorem le_units_roundUnits {num den : Nat} {c : F32} (neg : Bool) (hd : 0 < den) (hc : isNaN c = false)
    (h : units c * den ≤ num) : units c ≤ units (roundUnits neg num den) := by
  have hm : magBits c ≤ roundMag num den := by
    rw [← roundMag_exact (magBits c) den hd]
    exact roundMag_mono _ _ _ _ hd hd (Nat.mul_le_mul_right _ h)
  have hf : magBits c ≤ 0x7F800000 := by simpa [isNaN] using hc
  rw [units_le_iff, roundUnits, magBits_pack]
  omega

theorem value_roundUnits (neg : Bool) (num den : Nat) :
    value (roundUnits neg num den) =
      if neg then -(units (roundUnits neg num den) : Int) else units (roundUnits neg num den) := by
  have hs : signBit (roundUnits neg num den) = neg := signBit_pack neg _
  rw [value, hs]

/-- An integer of units rounded stays at or below a representable bound. -/
theorem value_round_le {x : Int} {c : F32} (hc : isNaN c = false) (h : x ≤ value c) :
    value (roundUnits (decide (x < 0)) x.natAbs 1) ≤ value c := by
  have hv := natAbs_value c
  rw [value_roundUnits]
  by_cases hx : x < 0
  · have hl : value c < 0 → units c ≤ units (roundUnits true x.natAbs 1) := fun hneg =>
      le_units_roundUnits true Nat.one_pos hc (by omega)
    simp only [hx, decide_true, if_true]
    omega
  · have hu : units (roundUnits false x.natAbs 1) ≤ units c :=
      units_roundUnits_le false Nat.one_pos (by omega)
    simp only [hx, decide_false, Bool.false_eq_true, if_false]
    omega

/-- An integer of units rounded stays at or above a representable bound. -/
theorem le_value_round {x : Int} {c : F32} (hc : isNaN c = false) (h : value c ≤ x) :
    value c ≤ value (roundUnits (decide (x < 0)) x.natAbs 1) := by
  have hv := natAbs_value c
  rw [value_roundUnits]
  by_cases hx : x < 0
  · have hu : units (roundUnits true x.natAbs 1) ≤ units c :=
      units_roundUnits_le true Nat.one_pos (by omega)
    simp only [hx, decide_true, if_true]
    omega
  · have hl : 0 < value c → units c ≤ units (roundUnits false x.natAbs 1) := fun hpos =>
      le_units_roundUnits false Nat.one_pos hc (by omega)
    simp only [hx, decide_false, Bool.false_eq_true, if_false]
    omega

theorem isNaN_of_isFinite {a : F32} (h : isFinite a = true) : isNaN a = false := by
  rcases class_cases a with ⟨-, -, hn⟩ | ⟨hf, -⟩ | ⟨hf, -⟩
  · exact hn
  · exact absurd h (by simp [hf])
  · exact absurd h (by simp [hf])

theorem isInf_of_isFinite {a : F32} (h : isFinite a = true) : isInf a = false := by
  rcases class_cases a with ⟨-, hi, -⟩ | ⟨hf, -⟩ | ⟨hf, -⟩
  · exact hi
  · exact absurd h (by simp [hf])
  · exact absurd h (by simp [hf])

theorem isFinite_of_magBits_le {a b : F32} (h : magBits a ≤ magBits b) (hb : isFinite b = true) :
    isFinite a = true := by
  simp only [isFinite, decide_eq_true_eq] at hb ⊢
  omega

/-- A sum of finite values is the exact sum rounded, but for the sign of an exact zero, which has no value (R255). -/
theorem fadd_finite {a b : F32} (ha : isFinite a = true) (hb : isFinite b = true) :
    isNaN (fadd a b) = false ∧
      value (fadd a b) = value (roundUnits (decide (value a + value b < 0)) (value a + value b).natAbs 1) := by
  unfold fadd
  simp only [isNaN_of_isFinite ha, isNaN_of_isFinite hb, isInf_of_isFinite ha, isInf_of_isFinite hb, Bool.or_self,
    Bool.false_eq_true, if_false]
  by_cases hz : value a + value b = 0
  · rw [if_pos hz, hz]
    cases signBit a && signBit b <;> decide
  · rw [if_neg hz]
    exact ⟨isNaN_roundUnits _ _ _, rfl⟩

/-- A sum at most a representable value rounds to at most that value. -/
theorem fadd_le {a b c : F32} (ha : isFinite a = true) (hb : isFinite b = true) (hc : isNaN c = false)
    (h : value a + value b ≤ value c) : fle (fadd a b) c = true := by
  obtain ⟨hn, hv⟩ := fadd_finite ha hb
  rw [fle_iff, hv]
  exact ⟨hn, hc, value_round_le hc h⟩

theorem le_fadd {a b c : F32} (ha : isFinite a = true) (hb : isFinite b = true) (hc : isNaN c = false)
    (h : value c ≤ value a + value b) : fle c (fadd a b) = true := by
  obtain ⟨hn, hv⟩ := fadd_finite ha hb
  rw [fle_iff, hv]
  exact ⟨hc, hn, le_value_round hc h⟩

/-! ## The increment (R321) -/

/-- A clamped value lies between its bounds, also when the value is NaN (R256). -/
theorem clamp_bounds (x : F32) {lo hi : F32} (h : fle lo hi = true) :
    fle lo (clamp x lo hi) = true ∧ fle (clamp x lo hi) hi = true := by
  obtain ⟨hlo, hhi, -⟩ := (fle_iff _ _).mp h
  have hmax : fle lo (pickMax x lo) = true := by
    unfold pickMax
    split
    · exact fle_of_flt ‹_›
    · exact fle_refl hlo
  unfold clamp pickMin
  split
  · exact ⟨hmax, fle_of_flt ‹_›⟩
  · exact ⟨h, fle_refl hhi⟩

/-- `NCO_SET` gives an increment in `[-PI_F32, PI_F32]`, whatever its operands (R321, R323). -/
theorem ncoSet_bounds (f fs : F32) : fle (fneg piF32) (ncoSet f fs) = true ∧ fle (ncoSet f fs) piF32 = true := by
  unfold ncoSet
  obtain ⟨hl, hu⟩ := clamp_bounds (fdiv f fs) (show fle (fneg half) half = true by decide)
  generalize clamp (fdiv f fs) (fneg half) half = c at *
  have hm := magBits_le_of_between hl hu
  have hc := isFinite_of_magBits_le hm (by decide)
  have he : fmul twoPiF32 c = roundUnits (signBit twoPiF32 != signBit c) (units twoPiF32 * units c) (2 ^ 149) := by
    unfold fmul
    simp [isNaN_of_isFinite hc, isInf_of_isFinite hc, show isNaN twoPiF32 = false by decide,
      show isInf twoPiF32 = false by decide]
  have hp : units twoPiF32 * units c ≤ units piF32 * 2 ^ 149 :=
    calc units twoPiF32 * units c ≤ units twoPiF32 * units half :=
          Nat.mul_le_mul_left _ ((units_le_iff _ _).mpr hm)
      _ = units piF32 * 2 ^ 149 := by decide
  rw [he]
  exact between_of_units_le (isNaN_roundUnits _ _ _) (by decide) (by decide)
    (units_roundUnits_le _ (by decide) hp)

/-! ## The phase (R322, R323) -/

/-- The patterns next to `PI_F32`. -/
def abovePi : F32 := 0x40490FDC
def belowPi : F32 := 0x40490FDA

theorem value_twoPiF32 : value twoPiF32 = 2 * value piF32 := by decide

theorem value_abovePi : value abovePi = 2 * value piF32 - value belowPi := by decide

theorem value_belowPi : 0 < value belowPi ∧ value belowPi < value piF32 := by decide

/-- No value lies between `PI_F32` and the next pattern. -/
theorem abovePi_le {p : F32} (h : value piF32 < value p) : value abovePi ≤ value p := by
  have hp : value p = units p := by
    have := natAbs_value p
    have : 0 < value piF32 := by decide
    omega
  have hpi : value piF32 = units piF32 := by decide
  have hm : ¬ magBits p ≤ magBits piF32 := by
    rw [← units_le_iff]
    omega
  have hn : magBits abovePi ≤ magBits p := by
    rw [show magBits piF32 = 0x40490FDB by decide] at hm
    rw [show magBits abovePi = 0x40490FDC by decide]
    omega
  have hu := (units_le_iff _ _).mpr hn
  rw [hp, show value abovePi = units abovePi by decide]
  exact_mod_cast hu

/-- The wrap from above lands in `(-PI_F32, +0]` (R323): the bound below is strict because `p` is at least the pattern
after `PI_F32`. -/
theorem wrap_from_above {p : F32} (h : flt piF32 p = true) (hu : fle p twoPiF32 = true) :
    flt (fneg piF32) (fsub p twoPiF32) = true ∧ fle (fsub p twoPiF32) posZero = true := by
  obtain ⟨-, hn, hlt⟩ := (flt_iff _ _).mp h
  obtain ⟨-, -, huv⟩ := (fle_iff _ _).mp hu
  have hpi := value_belowPi
  have habove := value_abovePi
  have hnext := abovePi_le hlt
  rw [value_twoPiF32] at huv
  have hf : isFinite p = true := isFinite_of_magBits_le (magBits_le_of_between
    ((fle_iff _ _).mpr ⟨by decide, hn, by rw [value_fneg, value_twoPiF32]; omega⟩) hu) (by decide)
  have hf2 : isFinite (fneg twoPiF32) = true := by decide
  have hlow : fle (fneg belowPi) (fadd p (fneg twoPiF32)) = true := le_fadd hf hf2 (by decide) (by
    rw [value_fneg, value_fneg, value_twoPiF32]; omega)
  obtain ⟨-, hr, hlow⟩ := (fle_iff _ _).mp hlow
  rw [value_fneg] at hlow
  unfold fsub
  constructor
  · exact (flt_iff _ _).mpr ⟨by decide, hr, by rw [value_fneg]; omega⟩
  · exact fadd_le hf hf2 (by decide) (by rw [value_fneg, value_twoPiF32, show value posZero = 0 from rfl]; omega)

/-- The wrap from below lands in `[+0, PI_F32]` (R323). -/
theorem wrap_from_below {p : F32} (h : fle p (fneg piF32) = true) (hl : fle (fneg twoPiF32) p = true) :
    fle posZero (fadd p twoPiF32) = true ∧ fle (fadd p twoPiF32) piF32 = true := by
  obtain ⟨hn, -, hle⟩ := (fle_iff _ _).mp h
  obtain ⟨-, -, hlv⟩ := (fle_iff _ _).mp hl
  have hpi := value_belowPi
  rw [value_fneg] at hle
  rw [value_fneg, value_twoPiF32] at hlv
  have hf : isFinite p = true := isFinite_of_magBits_le (magBits_le_of_between hl
    ((fle_iff _ _).mpr ⟨hn, by decide, by rw [value_twoPiF32]; omega⟩)) (by decide)
  have hf2 : isFinite twoPiF32 = true := by decide
  constructor
  · exact le_fadd hf hf2 (by decide) (by rw [value_twoPiF32, show value posZero = 0 from rfl]; omega)
  · exact fadd_le hf hf2 (by decide) (by rw [value_twoPiF32]; omega)

/-- The wrap takes every value of `[-TWO_PI_F32, TWO_PI_F32]` into `(-PI_F32, PI_F32]` (R322, R323). -/
theorem wrapPhase_bounds {p : F32} (hl : fle (fneg twoPiF32) p = true) (hu : fle p twoPiF32 = true) :
    flt (fneg piF32) (wrapPhase p) = true ∧ fle (wrapPhase p) piF32 = true := by
  have hn : isNaN p = false := ((fle_iff _ _).mp hu).1
  have hpi : isNaN piF32 = false ∧ isNaN (fneg piF32) = false := by decide
  unfold wrapPhase
  by_cases ha : flt piF32 p = true
  · rw [if_pos ha]
    obtain ⟨hlow, hhigh⟩ := wrap_from_above ha hu
    exact ⟨hlow, fle_trans hhigh (by decide)⟩
  · rw [if_neg ha]
    by_cases hb : fle p (fneg piF32) = true
    · rw [if_pos hb]
      obtain ⟨hlow, hhigh⟩ := wrap_from_below hb hl
      exact ⟨flt_of_flt_of_fle (by decide) hlow, hhigh⟩
    · rw [if_neg hb]
      simp only [flt_iff, fle_iff, hpi, hn, true_and, not_lt, not_le] at ha hb ⊢
      exact ⟨hb, ha⟩

/-- A phase and an increment in range add up to at most `TWO_PI_F32` (R323). -/
theorem phase_sum_bounds {phase inc : F32} (hl : flt (fneg piF32) phase = true) (hu : fle phase piF32 = true)
    (hil : fle (fneg piF32) inc = true) (hiu : fle inc piF32 = true) :
    fle (fneg twoPiF32) (fadd phase inc) = true ∧ fle (fadd phase inc) twoPiF32 = true := by
  obtain ⟨-, -, hlv⟩ := (flt_iff _ _).mp hl
  obtain ⟨-, -, huv⟩ := (fle_iff _ _).mp hu
  obtain ⟨-, -, hilv⟩ := (fle_iff _ _).mp hil
  obtain ⟨-, -, hiuv⟩ := (fle_iff _ _).mp hiu
  have hle : fle (fneg piF32) phase = true := fle_of_flt hl
  have hf := isFinite_of_magBits_le (magBits_le_of_between hle hu) (by decide)
  have hfi := isFinite_of_magBits_le (magBits_le_of_between hil hiu) (by decide)
  rw [value_fneg] at hlv hilv
  constructor
  · exact le_fadd hf hfi (by decide) (by rw [value_fneg, value_twoPiF32]; omega)
  · exact fadd_le hf hfi (by decide) (by rw [value_twoPiF32]; omega)

/-- One sample keeps the phase in `(-PI_F32, PI_F32]` (R323). -/
theorem ncoAdvance_bounds {phase inc : F32} (hl : flt (fneg piF32) phase = true) (hu : fle phase piF32 = true)
    (hil : fle (fneg piF32) inc = true) (hiu : fle inc piF32 = true) :
    flt (fneg piF32) (ncoAdvance phase inc) = true ∧ fle (ncoAdvance phase inc) piF32 = true := by
  obtain ⟨hsl, hsu⟩ := phase_sum_bounds hl hu hil hiu
  exact wrapPhase_bounds hsl hsu

/-! ## The phase and the increment of the engine (R59, R500) -/

/-- A sample advances the phase by the increment, once, and leaves the increment (R322, R501). -/
theorem processSample_nco (h1 h2 : List F32) (d : Demod) (x : C32) :
    (processSample h1 h2 d x).1.ncoPhase = ncoAdvance d.ncoPhase d.ncoInc ∧
      (processSample h1 h2 d x).1.ncoInc = d.ncoInc := by
  refine ⟨?_, by rw [processSample_frame]⟩
  unfold processSample
  dsimp only
  generalize firPushC d.r1.toNat d.t1.toNat h1 d.fir1 (rotate d.ncoPhase x) = p
  obtain ⟨f1, _ | o1⟩ := p
  · rfl
  · dsimp only
    rw [detect_frame]
    dsimp only
    generalize firPushR d.r2.toNat d.t2.toNat h2 d.fir2 _ = q
    obtain ⟨f2, _ | o2⟩ := q
    · rfl
    · dsimp only
      rw [audioOut_frame]

/-- A run of samples keeps phase and increment in range. -/
theorem processAll_nco {d : Demod} (h1 h2 : List F32) (xs : List C32) (hl : flt (fneg piF32) d.ncoPhase = true)
    (hu : fle d.ncoPhase piF32 = true) (hil : fle (fneg piF32) d.ncoInc = true) (hiu : fle d.ncoInc piF32 = true) :
    let e := (processAll h1 h2 d xs).1
    flt (fneg piF32) e.ncoPhase = true ∧ fle e.ncoPhase piF32 = true ∧ e.ncoInc = d.ncoInc := by
  induction xs generalizing d with
  | nil => exact ⟨hl, hu, rfl⟩
  | cons x xs ih =>
    obtain ⟨hp, hi⟩ := processSample_nco h1 h2 d x
    obtain ⟨hl', hu'⟩ := ncoAdvance_bounds hl hu hil hiu
    have h := ih (d := (processSample h1 h2 d x).1) (hp ▸ hl') (hp ▸ hu') (hi ▸ hil) (hi ▸ hiu)
    rwa [hi] at h

/-- Reset and rebuild of a `DM_RUN` clear the phase or leave it, and leave the increment (R492, R496). -/
theorem dmRunConfigured_nco (c : DmRun) (s : State) :
    ((dmRunConfigured c s).dm.ncoPhase = s.dm.ncoPhase ∨ (dmRunConfigured c s).dm.ncoPhase = posZero) ∧
      (dmRunConfigured c s).dm.ncoInc = s.dm.ncoInc := by
  have hr : ((dmRunReset c s).dm.ncoPhase = s.dm.ncoPhase ∨ (dmRunReset c s).dm.ncoPhase = posZero) ∧
      (dmRunReset c s).dm.ncoInc = s.dm.ncoInc := by
    unfold dmRunReset
    split
    · exact ⟨Or.inr rfl, rfl⟩
    · exact ⟨Or.inl rfl, rfl⟩
  unfold dmRunConfigured
  dsimp only
  split
  · rcases rebuild_cases c.mod c.fs c.tau (dmRunReset c s) with ⟨r, -, e⟩ | ⟨h1, h2, -, e⟩ <;> rw [e]
    · rw [raise_dm]; exact hr
    · exact hr
  · exact hr

/-! ## Every step -/

theorem NcoInRange.of_eq {s t : State} (h : NcoInRange s) (hp : t.dm.ncoPhase = s.dm.ncoPhase)
    (hi : t.dm.ncoInc = s.dm.ncoInc) : NcoInRange t :=
  ⟨hp ▸ h.above, hp ▸ h.notAbove, hi ▸ h.incLow, hi ▸ h.incHigh⟩

theorem NcoInRange.dmRunConfigured {s : State} (h : NcoInRange s) (c : DmRun) : NcoInRange (dmRunConfigured c s) := by
  obtain ⟨hp | hp, hi⟩ := dmRunConfigured_nco c s
  · exact h.of_eq hp hi
  · exact ⟨by rw [hp]; decide, by rw [hp]; decide, by rw [hi]; exact h.incLow, by rw [hi]; exact h.incHigh⟩

/-- `DM_RUN` retunes and then advances the phase once per sample (R491, R501). -/
theorem NcoInRange.dmRunProcess {s : State} (h : NcoInRange s) (c : DmRun) : NcoInRange (dmRunProcess c s) := by
  obtain ⟨hil, hiu⟩ := ncoSet_bounds (fneg (clampTune c.tune s.dm.actFs)) s.dm.actFs
  obtain ⟨hl, hu, hi⟩ := processAll_nco (d := dmRunTuned c s.dm) (s.mem.block .dmH1 (dmRunTuned c s.dm).t1.toNat)
    (s.mem.block .dmH2 (dmRunTuned c s.dm).t2.toNat) (iqSamples s.mem .dmIq c.n) h.above h.notAbove hil hiu
  exact ⟨hl, hu, hi ▸ hil, hi ▸ hiu⟩

theorem NcoInRange.completeDemod {s : State} (h : NcoInRange s) : NcoInRange (completeDemod s) := by
  cases hp : s.dm.pending with
  | none => rw [completeDemod_idle hp]; exact h
  | some c =>
    have hc := h.dmRunConfigured c
    have hr : NcoInRange (dmRunCompute c s) := by
      unfold dmRunCompute
      dsimp only
      split
      · exact hc.dmRunProcess c
      · exact hc.of_eq rfl rfl
    rw [completeDemod_busy hp]
    exact hr.of_eq rfl rfl

theorem NcoInRange.completeSpec {s : State} (h : NcoInRange s) : NcoInRange (completeSpec s) := by
  cases hp : s.sp.pending with
  | none => rw [completeSpec_idle hp]; exact h
  | some c =>
    have hdm : (Machine.completeSpec s).dm = s.dm := by
      rw [completeSpec_busy hp]
      show (spCompute c s).dm = s.dm
      rw [(spCompute_frame c s).1]
    exact h.of_eq (by rw [hdm]) (by rw [hdm])

theorem ncoInRange_kept : Kept NcoInRange where
  schedule h _ := h.of_eq rfl rfl
  rdata h _ := h.of_eq rfl rfl
  raised {s} h c info := h.of_eq (by rw [raise_dm]) (by rw [raise_dm])
  written {s _ v place} h _ :=
    have hp := congrArg Demod.ncoPhase (writeTarget_withoutShadows place v s)
    have hi := congrArg Demod.ncoInc (writeTarget_withoutShadows place v s)
    h.of_eq hp hi
  dmReset h := h.of_eq rfl rfl
  dmRun h _ := h.of_eq rfl rfl
  spReset h := h.of_eq rfl rfl
  spPrep h := h.of_eq rfl rfl
  spPost h := h.of_eq rfl rfl
  spStats h := h.of_eq rfl rfl
  demod h := h.completeDemod
  spec h := h.completeSpec
  reset _ := ⟨show flt (fneg piF32) 0 = true by decide, show fle 0 piF32 = true by decide,
    show fle (fneg piF32) 0 = true by decide, show fle 0 piF32 = true by decide⟩

/-- Settles O59: the wrap after each sample keeps the phase in range and `NCO_SET` the increment, from any configuration,
so the premises on registers and engines are not used. -/
theorem ncoStaysInRange : Obligations.NcoStaysInRange := by
  intro s t _ _ hs h
  exact ncoInRange_kept.step hs h

end Sys2Proof.Machine
end

section
/-! Writes that read back (O24, O25), and the register map after reset (O9). -/

namespace Sys2Proof.Machine

/-! ## Configuration registers (R40 to R54) -/

/-- A configuration register reads the value last written to it, `SP_CTRL` its existing bits (R32, R51). -/
theorem readReg_writeReg_self {r : Reg} (h : regAccess r = .cfg) (v : Word) (s : State) :
    readReg (writeReg r v s) r = if r = .spCtrl then v &&& ctrlMask else v := by
  cases r <;> cases h <;> rfl

/-- A write of a configuration register shows in no other register but the pending words (R46, R55). -/
theorem readReg_writeReg_of_ne {r q : Reg} (h : regAccess r = .cfg) (hq : q ≠ r) (hdm : q ≠ .dmPend)
    (hsp : q ≠ .spPend) (v : Word) (s : State) : readReg (writeReg r v s) q = readReg s q := by
  cases r <;> cases h
  all_goals cases q <;> first | rfl | contradiction

/-- A write of a configuration register changes its shadow and its dirty flag, nothing else of the state. -/
theorem writeReg_cfg_frame {r : Reg} (h : regAccess r = .cfg) (v : Word) (s : State) :
    let t := writeReg r v s
    SameError s t ∧ SameDone s t ∧ t.irqEn = s.irqEn ∧ t.sp.withoutShadows = s.sp.withoutShadows ∧
      t.dm.resetPend = s.dm.resetPend ∧ t.sp.resetPend = s.sp.resetPend := by
  cases r <;> cases h <;> exact ⟨⟨rfl, rfl, rfl⟩, ⟨rfl, rfl, rfl⟩, rfl, rfl, rfl, rfl⟩

/-- A rebuild register sets its own dirty flag and no other (R32). -/
theorem writeReg_cfg_dirty {r : Reg} (h : regAccess r = .cfg) (v : Word) (s : State) :
    let t := writeReg r v s
    t.dm.dirtyMod = (s.dm.dirtyMod || decide (r = .dmMod)) ∧ t.dm.dirtyFs = (s.dm.dirtyFs || decide (r = .dmFs)) ∧
      t.dm.dirtyTau = (s.dm.dirtyTau || decide (r = .dmTau)) ∧ t.sp.dirtyN = (s.sp.dirtyN || decide (r = .spN)) ∧
      t.sp.dirtyWin = (s.sp.dirtyWin || decide (r = .spWin)) := by
  cases r <;> cases h <;> simp [writeReg]

/-- Settles O24: the write is let through, the read returns the shadow, and the frame is the register's. -/
theorem configWriteReadsBack : Obligations.ConfigWriteReadsBack := by
  intro s off r v rest hl hal hc hv hs
  obtain ⟨hwrite, hread⟩ := step_write_read hal hl (Or.inl ⟨hc, hv⟩) hs
  obtain ⟨herr, hdone, hirq, hsp, hdr, hsr⟩ := writeReg_cfg_frame hc v (s.setSchedule (.read off :: rest))
  obtain ⟨hmod, hfs, htau, hn, hwin⟩ := writeReg_cfg_dirty hc v (s.setSchedule (.read off :: rest))
  obtain ⟨hdm, hmem, -, -⟩ := writeReg_frame r v (s.setSchedule (.read off :: rest))
  refine ⟨_, _, hwrite, hread, ?_, herr, hdone, hmem, hirq, rfl, hdm, hsp, hdr, hsr, hmod, hfs, htau, hn, hwin, ?_⟩
  · exact readReg_writeReg_self hc v _
  · exact fun q hq hqd hqs => readReg_writeReg_of_ne hc hq hqd hqs v _

/-! ## RAM windows and `SP_CORR` (R56, R100, R104) -/

/-- Settles O25: a word of RAM reads what its bytes were written, every other byte as before; `SP_CORR` is a register of
its own. -/
theorem ramWriteReadsBack : Obligations.RamWriteReadsBack := by
  constructor
  · intro s off w a e v rest hl hal hc hb hs
    obtain rfl := locate_ram hl
    obtain ⟨hwrite, hread⟩ := step_write_read hal hl (Or.inr ⟨e, hc, hb⟩) hs
    refine ⟨_, _, hwrite, hread, ?_, ⟨rfl, rfl, rfl⟩, ?_, rfl, rfl, ⟨rfl, rfl, rfl⟩, rfl, rfl⟩
    · exact readWord_writeWord s.mem off.toNat v
    · exact fun b hb => readByte_writeWord_of_outside s.mem off.toNat v b hb
  · intro s v rest hp hs
    have hl : locate (0x220 : Offset).toNat = some (.reg .spCorr) := by decide
    have hb : s.busy .spec = false := by simp [State.busy, State.spBusy, hp]
    obtain ⟨hwrite, hread⟩ := step_write_read (by decide) hl (Or.inr ⟨.spec, rfl, hb⟩) hs
    exact ⟨_, _, hwrite, hread, rfl, rfl, rfl, rfl, ⟨rfl, rfl, rfl⟩, ⟨rfl, rfl, rfl⟩, rfl, rfl⟩

/-! ## The register map after reset -/

/-- Settles O9: the reads of the closed reset state, the values not 0 first. -/
theorem resetRegisterValues : Obligations.ResetRegisterValues := by
  constructor
  · decide
  · decide

end Sys2Proof.Machine
end

section
/-! Every operation keeps the memory in its canonical form (O56). -/

namespace Sys2Proof.Machine

/-! ## HOST writes (R107) -/

/-- A HOST write leaves RAM alone or writes one word of it. -/
theorem writeTarget_wf {s : State} (h : s.mem.wf = true) (place : Target) (v : Word) :
    (writeTarget place v s).mem.wf = true := by
  cases place with
  | reg r =>
    obtain ⟨-, hmem, -⟩ := writeReg_frame r v s
    exact hmem ▸ h
  | ram w a => exact writeWord_wf s.mem a v h

/-! ## Completions (R491, R381, R390) -/

theorem dmRunReset_mem (c : DmRun) (s : State) : (dmRunReset c s).mem = s.mem := by
  unfold dmRunReset
  split <;> rfl

/-- A rebuild that succeeds writes two blocks of coefficients, one that fails nothing (R496). -/
theorem dmRunConfigured_wf {s : State} (h : s.mem.wf = true) (c : DmRun) :
    (dmRunConfigured c s).mem.wf = true := by
  have hr : (dmRunReset c s).mem.wf = true := by rw [dmRunReset_mem]; exact h
  unfold dmRunConfigured
  dsimp only
  split
  · rcases rebuild_cases c.mod c.fs c.tau (dmRunReset c s) with ⟨r, -, e⟩ | ⟨h1, h2, -, e⟩ <;> rw [e]
    · rw [raise_mem]; exact hr
    · exact setBlock_wf _ .dmH2 h2 (setBlock_wf _ .dmH1 h1 hr)
  · exact hr

theorem completeDemod_wf {s : State} (h : s.mem.wf = true) : (completeDemod s).mem.wf = true := by
  cases hp : s.dm.pending with
  | none => rw [completeDemod_idle hp]; exact h
  | some c =>
    have hc := dmRunConfigured_wf h c
    have hr : (dmRunCompute c s).mem.wf = true := by
      unfold dmRunCompute
      dsimp only
      split
      · exact setBlock_wf _ .dmAud _ hc
      · rw [setDm_mem, raise_mem]; exact hc
    rw [completeDemod_busy hp]
    exact hr

theorem spPrepConfigured_wf {s : State} (h : s.mem.wf = true) (l : SpPrep) :
    (spPrepConfigured l s).mem.wf = true := by
  rw [spPrepConfigured_mem]
  split
  · exact setBlock_wf s.mem .spWlut _ h
  · exact h

theorem spCompute_wf {s : State} (h : s.mem.wf = true) (c : SpCmd) : (spCompute c s).mem.wf = true := by
  cases c with
  | prep l => exact setBlock_wf _ .spWout _ (spPrepConfigured_wf h l)
  | post l => exact setBlock_wf _ .spHold _ (setBlock_wf _ .spDisp _ (setBlock_wf _ .spRaw _ h))
  | stats => exact h

theorem completeSpec_wf {s : State} (h : s.mem.wf = true) : (completeSpec s).mem.wf = true := by
  cases hp : s.sp.pending with
  | none => rw [completeSpec_idle hp]; exact h
  | some c => rw [completeSpec_busy hp]; exact spCompute_wf h c

/-! ## Every step -/

theorem memoryCanonical_kept : Kept fun s => s.mem.wf = true where
  schedule h _ := h
  rdata h _ := h
  raised {s} h c info := by rw [raise_mem]; exact h
  written {_ _ v place} h _ := writeTarget_wf h place v
  dmReset h := h
  dmRun h _ := h
  spReset h := h
  spPrep h := h
  spPost h := h
  spStats h := h
  demod h := completeDemod_wf h
  spec h := completeSpec_wf h
  reset {s} h := memAfterReset_wf s h

/-- Settles O56: every operation a step is made of writes blocks, drops bytes or leaves RAM alone. -/
theorem memoryStaysCanonical : Obligations.MemoryStaysCanonical := by
  intro s t hs h
  exact memoryCanonical_kept.step hs h

end Sys2Proof.Machine
end

section
/-! The order of the checks of a HOST read and a HOST write (O21, O22), and the gaps of the address map (O23). -/

namespace Sys2Proof.Machine

/-! ## Recorded errors (R602) -/

theorem raise_errorRaised (c : ErrCode) (info : Word) (s : State) :
    ErrorRaised (errNumber c) info s (raise c info s) := by
  rcases raise_cases s c info with ⟨he, e⟩ | ⟨he, e⟩ <;> rw [e]
  · simp [ErrorRaised, he]
  · simp [ErrorRaised, he]

/-- While an error is recorded, a further one leaves no trace (R602). -/
theorem raise_of_recorded {s : State} (h : s.err = true) (c : ErrCode) (info : Word) : raise c info s = s := if_pos h

theorem raise_onlyError (c : ErrCode) (info : Word) (s : State) : OnlyError s (raise c info s) := by
  simp [OnlyError, SameDone, SameHost]

/-! ## The checks of a read (R106) -/

theorem readOutcome_of_misaligned {off : Offset} {s : State} (h : off.toNat % 4 ≠ 0) :
    readOutcome off s = .error .badAccess := if_pos h

theorem readOutcome_of_unmapped {off : Offset} {s : State} (hal : off.toNat % 4 = 0)
    (hl : locate off.toNat = none) : readOutcome off s = .error .badAddr := by
  unfold readOutcome
  rw [if_neg (not_not.mpr hal), hl]

theorem readOutcome_of_writeOnly {off : Offset} {s : State} {place : Target} (hal : off.toNat % 4 = 0)
    (hl : locate off.toNat = some place) (ha : accessOf place = .wo) : readOutcome off s = .ok 0 := by
  unfold readOutcome
  rw [if_neg (not_not.mpr hal), hl]
  dsimp only
  rw [ha]

/-- An access is gated exactly if its class names an engine and that engine is busy (R32). -/
theorem gated_iff (s : State) (a : Access) :
    s.gated a = true ↔ ∃ e, (a = .roGated e ∨ a = .rwGated e) ∧ s.busy e = true := by
  cases a <;> simp [State.gated, Access.gate]

theorem readOutcome_of_gated {off : Offset} {s : State} {place : Target} (hal : off.toNat % 4 = 0)
    (hl : locate off.toNat = some place) (hg : s.gated (accessOf place) = true) :
    readOutcome off s = .error .engineBusy := by
  obtain ⟨e, ha, hb⟩ := (gated_iff s (accessOf place)).mp hg
  unfold readOutcome
  rw [if_neg (not_not.mpr hal), hl]
  dsimp only
  rcases ha with ha | ha <;> rw [ha] <;> exact if_pos hb

/-! ## What a read leaves (R106) -/

/-- A read changes the error record and the word read, nothing else. -/
theorem hostRead_frame (off : Offset) (s : State) :
    let t := hostRead off s
    t.dm = s.dm ∧ t.sp = s.sp ∧ t.mem = s.mem ∧ SameDone s t ∧ t.irqEn = s.irqEn ∧ t.schedule = s.schedule := by
  rcases hostRead_cases off s with ⟨v, -, e⟩ | ⟨c, -, e⟩ <;> rw [e] <;> simp [SameDone]

theorem hostRead_of_ok {off : Offset} {s : State} {v : Word} (h : readOutcome off s = .ok v) :
    SameError s (hostRead off s) ∧ (hostRead off s).rdata = v := by
  unfold hostRead
  rw [h]
  exact ⟨⟨rfl, rfl, rfl⟩, rfl⟩

theorem hostRead_of_error {off : Offset} {s : State} {c : ErrCode} (h : readOutcome off s = .error c) :
    ErrorRaised (errNumber c) (offsetInfo off) s (hostRead off s) ∧ (hostRead off s).rdata = 0 := by
  unfold hostRead
  rw [h]
  exact ⟨raise_errorRaised c (offsetInfo off) s, rfl⟩

/-- Settles O21: the frame of a read, and the outcome of each check once those before it have passed. -/
theorem hostReadOrder : Obligations.HostReadOrder := by
  intro s off
  obtain ⟨hdm, hsp, hmem, hdone, hirq, hsch⟩ := hostRead_frame off s
  refine ⟨hostRead off s, takeStep_read off s, hdm, hsp, hmem, hdone, hirq, hsch, ?_⟩
  by_cases hal : off.toNat % 4 = 0
  · rw [if_neg (not_not.mpr hal)]
    cases hl : locate off.toNat with
    | none => exact hostRead_of_error (readOutcome_of_unmapped hal hl)
    | some place =>
      dsimp only
      split_ifs with hwo hg
      · exact hostRead_of_ok (readOutcome_of_writeOnly hal hl hwo)
      · exact hostRead_of_error (readOutcome_of_gated hal hl hg)
      · exact hostRead_of_ok (readOutcome_of_readable hal hl hwo (Bool.not_eq_true _ ▸ hg))
  · rw [if_pos hal]
    exact hostRead_of_error (readOutcome_of_misaligned hal)

/-! ## The checks of a write (R107) -/

theorem writeOutcome_of_misaligned {off : Offset} {v : Word} {s : State} (h : off.toNat % 4 ≠ 0) :
    writeOutcome off v s = .error .badAccess := if_pos h

theorem writeOutcome_of_unmapped {off : Offset} {v : Word} {s : State} (hal : off.toNat % 4 = 0)
    (hl : locate off.toNat = none) : writeOutcome off v s = .error .badAddr := by
  unfold writeOutcome
  rw [if_neg (not_not.mpr hal), hl]

theorem writeOutcome_of_readOnly {off : Offset} {v : Word} {s : State} {place : Target} (hal : off.toNat % 4 = 0)
    (hl : locate off.toNat = some place) (hr : (accessOf place).readOnly = true) :
    writeOutcome off v s = .error .readOnly := by
  unfold writeOutcome
  rw [if_neg (not_not.mpr hal), hl]
  dsimp only
  cases hc : accessOf place with
  | ro => rfl
  | roGated e => rfl
  | _ => simp [hc, Access.readOnly] at hr

/-- A gated class that is not read-only is `rwGated`, so the busy check is the one that applies. -/
theorem writeOutcome_of_gated {off : Offset} {v : Word} {s : State} {place : Target} (hal : off.toNat % 4 = 0)
    (hl : locate off.toNat = some place) (hr : (accessOf place).readOnly ≠ true)
    (hg : s.gated (accessOf place) = true) : writeOutcome off v s = .error .engineBusy := by
  obtain ⟨e, ha | ha, hb⟩ := (gated_iff s (accessOf place)).mp hg
  · simp [ha, Access.readOnly] at hr
  · unfold writeOutcome
    rw [if_neg (not_not.mpr hal), hl]
    dsimp only
    rw [ha]
    exact if_pos hb

theorem writeOutcome_of_illegal {off : Offset} {v : Word} {s : State} {place : Target} (hal : off.toNat % 4 = 0)
    (hl : locate off.toNat = some place) (hv : accessOf place = .cfg ∧ legalAt place v = false) :
    writeOutcome off v s = .error .badValue := by
  obtain ⟨hc, hv⟩ := hv
  unfold writeOutcome
  rw [if_neg (not_not.mpr hal), hl]
  dsimp only
  rw [hc]
  exact if_neg (by simp [hv])

/-- The converse of `writeOutcome_ok`: a write that meets no error is performed. -/
theorem writeOutcome_of_passed {off : Offset} {v : Word} {s : State} {place : Target} (hal : off.toNat % 4 = 0)
    (hl : locate off.toNat = some place) (hr : (accessOf place).readOnly ≠ true)
    (hg : s.gated (accessOf place) ≠ true) (hv : ¬ (accessOf place = .cfg ∧ legalAt place v = false)) :
    writeOutcome off v s = .ok place := by
  unfold writeOutcome
  rw [if_neg (not_not.mpr hal), hl]
  dsimp only
  cases hc : accessOf place with
  | ro => simp [hc, Access.readOnly] at hr
  | roGated e => simp [hc, Access.readOnly] at hr
  | rwGated e => exact if_neg fun hb => hg ((gated_iff s _).mpr ⟨e, Or.inr hc, hb⟩)
  | cfg => exact if_pos (by simpa [hc] using hv)
  | wo => rfl
  | w1c => rfl
  | rw => rfl

/-! ## What a write leaves (R107) -/

theorem hostWrite_of_error {off : Offset} {v : Word} {s : State} {c : ErrCode}
    (h : writeOutcome off v s = .error c) :
    ErrorRaised (errNumber c) (offsetInfo off) s (hostWrite off v s) ∧ OnlyError s (hostWrite off v s) := by
  unfold hostWrite
  rw [h]
  exact ⟨raise_errorRaised c (offsetInfo off) s, raise_onlyError c (offsetInfo off) s⟩

theorem hostWrite_of_ok {off : Offset} {v : Word} {s : State} {place : Target}
    (h : writeOutcome off v s = .ok place) : hostWrite off v s = writeTarget place v s := by
  unfold hostWrite
  rw [h]

/-- Settles O22: the outcome of each check once those before it have passed. -/
theorem hostWriteOrder : Obligations.HostWriteOrder := by
  intro s off v hcmd
  refine ⟨hostWrite off v s, takeStep_write hcmd v s, ?_⟩
  by_cases hal : off.toNat % 4 = 0
  · rw [if_neg (not_not.mpr hal)]
    cases hl : locate off.toNat with
    | none => exact hostWrite_of_error (writeOutcome_of_unmapped hal hl)
    | some place =>
      dsimp only
      split_ifs with hr hg hv
      · exact hostWrite_of_error (writeOutcome_of_readOnly hal hl hr)
      · exact hostWrite_of_error (writeOutcome_of_gated hal hl hr hg)
      · exact hostWrite_of_error (writeOutcome_of_illegal hal hl hv)
      · exact hostWrite_of_ok (writeOutcome_of_passed hal hl hr hg hv)
  · rw [if_pos hal]
    exact hostWrite_of_error (writeOutcome_of_misaligned hal)

/-! ## The gaps of the address map (R39, R104) -/

/-- The registers lie in six runs of consecutive words (R33 to R58). -/
theorem regMap_offsets : regMap.map Prod.fst =
    List.range' 0x000 11 4 ++ List.range' 0x100 7 4 ++ List.range' 0x120 17 4 ++ List.range' 0x200 14 4 ++
      List.range' 0x240 4 4 ++ List.range' 0x280 16 4 := by decide

/-- A run of consecutive words, as bounds on an aligned offset. -/
theorem mem_wordRun_iff {off a : Nat} (hoff : off % 4 = 0) (ha : a % 4 = 0) (n : Nat) :
    off ∈ List.range' a n 4 ↔ a ≤ off ∧ off < a + 4 * n := by
  rw [List.mem_range']
  constructor
  · rintro ⟨i, hi, rfl⟩
    omega
  · rintro ⟨hlo, hhi⟩
    exact ⟨(off - a) / 4, by omega, by omega⟩

/-- An offset below the RAM windows is unmapped exactly if no register has it (R105). -/
theorem locate_eq_none_of_register {off : Nat} (h : off < 0x1000) :
    locate off = none ↔ off ∉ regMap.map Prod.fst := by
  rw [locate, if_pos h, Option.map_eq_none_iff, List.lookup_eq_none_iff]
  simp only [List.mem_map, not_exists, not_and, bne_iff_ne, ne_eq, @eq_comm _ off]

/-- An offset above the registers is unmapped exactly if no window holds it (R104). -/
theorem locate_eq_none_of_ram {off : Nat} (h : ¬ off < 0x1000) :
    locate off = none ↔ ∀ w ∈ Ram.all, off < w.base ∨ w.base + 4 * w.words ≤ off := by
  simp [locate, h, ← not_holds_iff]

/-- Settles O23: the complement of the runs of registers, and of the eleven windows. -/
theorem unmappedOffsets : Obligations.UnmappedOffsets := by
  intro off hoff hal
  by_cases h : off < 0x1000
  · rw [locate_eq_none_of_register h, regMap_offsets]
    simp only [List.mem_append, Nat.reduceMod, mem_wordRun_iff hal, List.mem_cons, List.not_mem_nil, or_false,
      exists_eq_or_imp, ↓existsAndEq]
    omega
  · rw [locate_eq_none_of_ram h]
    simp only [Ram.all, List.mem_cons, List.not_mem_nil, or_false, forall_eq_or_imp, forall_eq, Ram.base, Ram.words,
      Config.iqDepth, Config.firTMax, Config.nMax, exists_eq_or_imp, ↓existsAndEq, true_and]
    omega

end Sys2Proof.Machine
end

section
/-! What the completion of each engine leaves unchanged (O29, O30). -/

namespace Sys2Proof.Machine

/-! ## DEMOD (R205, R491) -/

theorem dmRunReset_sameError (c : DmRun) (s : State) : SameError s (dmRunReset c s) := by
  unfold dmRunReset
  split <;> exact ⟨rfl, rfl, rfl⟩

/-- Only an engine with a configuration skips the rebuild (R491). -/
theorem valid_of_not_needsRebuild {c : DmRun} {d : Demod} (h : needsRebuild c d ≠ true) : d.valid = true := by
  cases hv : d.valid with
  | true => rfl
  | false => simp [needsRebuild, hv] at h

/-- A `DM_RUN` that is left without a configuration has recorded the failure of its rebuild (R491, R496). -/
theorem dmRunConfigured_error (c : DmRun) (s : State) :
    (SameError s (dmRunConfigured c s) ∧ (dmRunConfigured c s).dm.valid = true) ∨
      ∃ reason, ErrorRaised 0x06 reason s (dmRunConfigured c s) := by
  obtain ⟨he, hcode, hinfo⟩ := dmRunReset_sameError c s
  unfold dmRunConfigured
  dsimp only
  split
  · rcases rebuild_cases c.mod c.fs c.tau (dmRunReset c s) with ⟨r, -, e⟩ | ⟨h1, h2, -, e⟩ <;> rw [e]
    · have h := raise_errorRaised .buildFail r (dmRunReset c s)
      unfold ErrorRaised at h
      rw [he, hcode, hinfo] at h
      exact Or.inr ⟨r, h⟩
    · exact Or.inl ⟨⟨he, hcode, hinfo⟩, rfl⟩
  next hn => exact Or.inl ⟨⟨he, hcode, hinfo⟩, valid_of_not_needsRebuild hn⟩

/-- The only error a `DM_RUN` records at its completion is `BUILD_FAIL`: where `NOT_CONFIGURED` is raised, the failure of
the rebuild has been recorded before (R491, R602). -/
theorem dmRunCompute_error (c : DmRun) (s : State) :
    SameError s (dmRunCompute c s) ∨ ∃ reason, ErrorRaised 0x06 reason s (dmRunCompute c s) := by
  unfold dmRunCompute
  dsimp only
  rcases dmRunConfigured_error c s with ⟨h, hv⟩ | ⟨r, h⟩
  · rw [if_pos hv]
    exact Or.inl h
  · refine Or.inr ⟨r, ?_⟩
    split
    · exact h
    · have ⟨herr, _⟩ := h
      rw [raise_of_recorded herr]
      exact h

theorem DmRun.legal_count {c : DmRun} (h : c.legal = true) : c.n ≤ Config.iqDepth := by
  simp only [DmRun.legal, Bool.and_eq_true, and_assoc, decide_eq_true_eq] at h
  obtain ⟨hn, -⟩ := h
  exact hn

/-- Settles O29: the frame of the computation, and what completion adds to it. -/
theorem demodCompletionFrame : Obligations.DemodCompletionFrame := by
  intro s hregs _
  refine ⟨completeDemod s, takeStep_demod s, completeDemod_idle, ?_⟩
  cases hp : s.dm.pending with
  | none =>
    rw [completeDemod_idle hp]
    simp [hp, SameHost, SameError, SameRamWhere]
  | some c =>
    have hn : c.n ≤ Config.iqDepth := DmRun.legal_count (by simpa [hp] using hregs.demodLatched)
    obtain ⟨hs, hd, hram⟩ := dmRunCompute_frame c s
    have he := dmRunCompute_error c s
    rw [completeDemod_busy hp]
    generalize dmRunCompute c s = t at *
    rw [hd] at hs
    rw [hs]
    exact ⟨fun _ => rfl, rfl, rfl, rfl, rfl, rfl, rfl, rfl, rfl, rfl, rfl, rfl, rfl, rfl, rfl, ⟨rfl, rfl, rfl⟩, he,
      hram hn⟩

/-! ## SPEC (R205) -/

theorem legalFftSize_le {v : Word} (h : legalFftSize v = true) : v.toNat ≤ Config.nMax := by
  simp only [legalFftSize, List.contains_iff_mem, List.mem_cons, List.not_mem_nil, or_false] at h
  rcases h with rfl | rfl | rfl | rfl | rfl | rfl | rfl | rfl <;> decide

/-- The active size fits the windows, also before the first regeneration (R377). -/
theorem EnginesConsistent.actN_le {s : State} (h : EnginesConsistent s) : s.sp.actN.toNat ≤ Config.nMax := by
  cases hv : s.sp.valid with
  | false => rw [h.unwindowed hv]; decide
  | true =>
    have ha := h.windowed hv
    simp only [Spec.activeLegal, Bool.and_eq_true, and_assoc] at ha
    obtain ⟨hsize, -⟩ := ha
    exact legalFftSize_le hsize

/-- The windows a SPEC command may write (R111): those its abort makes unspecified (R703). -/
def spOutputs : SpCmd → List Ram
  | .prep _ => spPrepOutputs
  | .post _ => spPostOutputs
  | .stats => []

/-- A SPEC command writes its output windows only (R111). -/
theorem spCompute_ram {c : SpCmd} {s : State} (hc : c.legal = true) (hN : s.sp.actN.toNat ≤ Config.nMax) {a : Nat}
    (ha : (spOutputs c).any (·.holds a) = false) : (spCompute c s).mem.readByte a = s.mem.readByte a := by
  cases c with
  | prep l =>
    simp only [SpCmd.legal, Bool.and_eq_true, and_assoc] at hc
    obtain ⟨hsize, -⟩ := hc
    exact spPrepCompute_ram l s (legalFftSize_le hsize) hN a ha
  | post l => exact spPostCompute_ram l s hN a ha
  | stats => rfl

/-- Settles O30: the frame of the computation, and what completion adds to it. -/
theorem specCompletionFrame : Obligations.SpecCompletionFrame := by
  intro s hregs heng
  refine ⟨completeSpec s, takeStep_spec s, completeSpec_idle, ?_⟩
  cases hp : s.sp.pending with
  | none =>
    rw [completeSpec_idle hp]
    simp [hp, SameHost, SameError, SameRamWhere]
  | some c =>
    have hc : c.legal = true := by simpa [hp] using hregs.specLatched
    have hram : ∀ a, (spOutputs c).any (·.holds a) = false →
        (spCompute c s).mem.readByte a = s.mem.readByte a := fun a => spCompute_ram hc heng.actN_le
    obtain ⟨hs, he⟩ := spCompute_frame c s
    rw [completeSpec_busy hp]
    generalize spCompute c s = t at *
    rw [he] at hs
    rw [hs]
    refine ⟨fun _ => rfl, rfl, rfl, rfl, rfl, rfl, rfl, rfl, rfl, rfl, rfl, rfl, rfl, rfl, rfl, ⟨rfl, rfl, rfl⟩,
      ⟨rfl, rfl, rfl⟩, ?_⟩
    intro a ha
    have hout := ha c rfl
    cases c with
    | prep l => exact hram a hout
    | post l => exact hram a hout
    | stats => exact hram a hout

end Sys2Proof.Machine
end

section
/-! The decoder and the encoder are inverse to each other (O1), so the words of each command (O2, O4) and the illegal
words (O3) are those of the opcode map. -/

namespace Sys2Proof.Machine

/-! ## The fields of a command word (R150) -/

@[simp] theorem opcField_encode (i : Instr) : opcField (encode i) = opcode i := (Laws.fields_of_parts _ _).1

@[simp] theorem rsvField_encode (i : Instr) : rsvField (encode i) = 0 := (Laws.fields_of_parts _ _).2.1

@[simp] theorem argField_encode (i : Instr) : argField (encode i) = argument i := (Laws.fields_of_parts _ _).2.2

theorem parts_of_fields (w : Word) : argField w ++ rsvField w ++ opcField w = w := by
  have hhigh : argField w ++ rsvField w = w.extractLsb' 8 24 := BitVec.extractLsb'_append_extractLsb'_eq_extractLsb' rfl
  have hall : w.extractLsb' 8 24 ++ opcField w = w.extractLsb' 0 32 :=
    BitVec.extractLsb'_append_extractLsb'_eq_extractLsb' rfl
  rw [hhigh, hall, BitVec.extractLsb'_eq_self]

/-- The three fields determine the word. -/
theorem eq_encode_of_fields {w : Word} {i : Instr} (hr : rsvField w = 0) (ho : opcField w = opcode i)
    (ha : argField w = argument i) : w = encode i := by
  rw [← parts_of_fields w, hr, ho, ha, encode]

theorem opcField_toNat (w : Word) : (opcField w).toNat = w.toNat % 256 := BitVec.extractLsb'_toNat ..

theorem rsvField_toNat (w : Word) : (rsvField w).toNat = w.toNat / 256 % 256 := by
  rw [rsvField, BitVec.extractLsb'_toNat, Nat.shiftRight_eq_div_pow]

theorem argField_toNat (w : Word) : (argField w).toNat = w.toNat / 65536 := by
  have hw := w.isLt
  rw [argField, BitVec.extractLsb'_toNat, Nat.shiftRight_eq_div_pow]
  omega

/-- The low half of a word is `RSV` above `OPC`. -/
theorem lowHalf_eq_iff (w : Word) : w &&& 0x0000FFFF = 0x00000011 ↔ rsvField w = 0 ∧ opcField w = 0x11 := by
  have hand : (w &&& 0x0000FFFF).toNat = w.toNat % 65536 := Nat.and_two_pow_sub_one_eq_mod w.toNat 16
  simp only [← BitVec.toNat_inj, hand, rsvField_toNat, opcField_toNat]
  change _ = 17 ↔ _ = 0 ∧ _ = 17
  omega

/-! ## The opcode map (R152) -/

theorem mem_opcodes_iff (o : BitVec 8) :
    o ∈ [0x00#8, 0x01#8, 0x10#8, 0x11#8, 0x20#8, 0x21#8, 0x22#8, 0x23#8] ↔ ∃ i, o = opcode i := by
  constructor
  · simp only [List.mem_cons, List.not_mem_nil, or_false]
    rintro (h | h | h | h | h | h | h | h)
    · exact ⟨.nop, h⟩
    · exact ⟨.softReset, h⟩
    · exact ⟨.dmReset, h⟩
    · exact ⟨.dmRun 0, h⟩
    · exact ⟨.spReset, h⟩
    · exact ⟨.spPrep, h⟩
    · exact ⟨.spPost, h⟩
    · exact ⟨.spStats, h⟩
  · rintro ⟨i, rfl⟩
    cases i <;> simp [opcode]

/-- `DM_RUN` is the one command with an operand: every other fits its word and has argument 0 (R151). -/
theorem dmRun_or_zeroArg (i : Instr) :
    (∃ n, i = .dmRun n) ∨ (opcode i ≠ 0x11 ∧ i.wellFormed = true ∧ argument i = 0) := by
  cases i
  case dmRun n => exact Or.inl ⟨n, rfl⟩
  all_goals exact Or.inr ⟨by decide, rfl, rfl⟩

theorem toNat_argument_dmRun {n : Nat} (h : (Instr.dmRun n).wellFormed = true) : (argument (.dmRun n)).toNat = n :=
  Nat.mod_eq_of_lt (of_decide_eq_true h)

theorem argument_dmRun_toNat (a : BitVec 16) : argument (.dmRun a.toNat) = a := by
  rw [argument, BitVec.ofNat_toNat, BitVec.setWidth_eq]

/-! ## What the decoder answers (R153, R155) -/

theorem decode_of_reserved {w : Word} (hr : rsvField w ≠ 0) : decode w = .error .reservedField := if_pos hr

theorem decode_of_unmapped {w : Word} (hr : rsvField w = 0) (ho : ∀ i, opcField w ≠ opcode i) :
    decode w = .error .unknownOpcode := by
  have hmap := mt (mem_opcodes_iff (opcField w)).mp (not_exists.mpr ho)
  simp only [List.mem_cons, List.not_mem_nil, or_false, not_or] at hmap
  obtain ⟨h00, h01, h10, h11, h20, h21, h22, h23⟩ := hmap
  simp [decode, hr, h00, h01, h10, h11, h20, h21, h22, h23]

theorem decode_of_dmRun {w : Word} (hr : rsvField w = 0) (ho : opcField w = 0x11) :
    decode w = .ok (.dmRun (argField w).toNat) := by
  unfold decode
  rw [if_neg (not_not.mpr hr), ho]
  rfl

theorem decode_of_zeroArg {w : Word} {i : Instr} (hr : rsvField w = 0) (ho : opcField w = opcode i)
    (hi : opcode i ≠ 0x11) : decode w = withZeroArg (argField w) i := by
  unfold decode
  rw [if_neg (not_not.mpr hr), ho]
  cases i
  case dmRun => exact absurd rfl hi
  all_goals rfl

/-- Everything the decoder can answer: one of the three errors of R153, or the command whose word it is. -/
theorem decode_cases (w : Word) :
    (rsvField w ≠ 0 ∧ decode w = .error .reservedField) ∨
    ((∀ i, opcField w ≠ opcode i) ∧ decode w = .error .unknownOpcode) ∨
    ((opcField w ≠ 0x11 ∧ argField w ≠ 0) ∧ decode w = .error .argNotZero) ∨
    ∃ i : Instr, i.wellFormed = true ∧ w = encode i ∧ decode w = .ok i := by
  by_cases hr : rsvField w = 0
  case neg => exact Or.inl ⟨hr, decode_of_reserved hr⟩
  by_cases hmap : ∃ i, opcField w = opcode i
  case neg => exact Or.inr (Or.inl ⟨not_exists.mp hmap, decode_of_unmapped hr (not_exists.mp hmap)⟩)
  obtain ⟨i, ho⟩ := hmap
  refine Or.inr (Or.inr ?_)
  rcases dmRun_or_zeroArg i with ⟨n, rfl⟩ | ⟨hi, hwf, harg⟩
  · exact Or.inr ⟨.dmRun (argField w).toNat, decide_eq_true (argField w).isLt,
      eq_encode_of_fields hr ho (argument_dmRun_toNat _).symm, decode_of_dmRun hr ho⟩
  · have hd := decode_of_zeroArg hr ho hi
    by_cases ha : argField w = 0
    · exact Or.inr ⟨i, hwf, eq_encode_of_fields hr ho (ha.trans harg.symm), hd.trans (if_pos ha)⟩
    · exact Or.inl ⟨⟨ho ▸ hi, ha⟩, hd.trans (if_neg ha)⟩

/-! ## Round trip -/

theorem decode_encode {i : Instr} (h : i.wellFormed = true) : decode (encode i) = .ok i := by
  rcases dmRun_or_zeroArg i with ⟨n, rfl⟩ | ⟨hi, -, harg⟩
  · rw [decode_of_dmRun (rsvField_encode _) (opcField_encode _), argField_encode, toNat_argument_dmRun h]
  · rw [decode_of_zeroArg (rsvField_encode i) (opcField_encode i) hi, argField_encode, harg]
    rfl

/-- The words that decode to a command are its command word only, and a command that does not fit its word has none. -/
theorem decode_eq_ok_iff {w : Word} {i : Instr} : decode w = .ok i ↔ i.wellFormed = true ∧ w = encode i := by
  constructor
  · intro h
    rcases decode_cases w with ⟨-, hd⟩ | ⟨-, hd⟩ | ⟨-, hd⟩ | ⟨j, hwf, hw, hd⟩ <;> rw [hd] at h <;> cases h
    exact ⟨hwf, hw⟩
  · rintro ⟨hwf, rfl⟩
    exact decode_encode hwf

/-- Settles O1: the encoder writes the fields the decoder reads, and a count below 2^16 survives the field `ARG`. -/
theorem decodeEncodeRoundTrip : Obligations.DecodeEncodeRoundTrip := fun _ h => decode_encode h

/-! ## The words of each command (R151, R152) -/

theorem decode_eq_ok_iff_eq_word {w v : Word} {i : Instr} (hwf : i.wellFormed = true) (hv : encode i = v) :
    decode w = .ok i ↔ w = v := by
  rw [decode_eq_ok_iff, hv, and_iff_right hwf]

theorem decode_eq_dmRun_iff (w : Word) (n : Nat) :
    decode w = .ok (.dmRun n) ↔ w &&& 0x0000FFFF = 0x00000011 ∧ n = w.toNat / 65536 := by
  rw [lowHalf_eq_iff, ← argField_toNat]
  constructor
  · intro h
    obtain ⟨hwf, rfl⟩ := decode_eq_ok_iff.mp h
    exact ⟨⟨rsvField_encode _, opcField_encode _⟩, by rw [argField_encode, toNat_argument_dmRun hwf]⟩
  · rintro ⟨⟨hr, ho⟩, rfl⟩
    exact decode_of_dmRun hr ho

/-- Settles O2: a word decodes to a command without operand exactly if it is the encoder's word for it. -/
theorem commandWordsOfTheMap : Obligations.CommandWordsOfTheMap := fun w =>
  ⟨decode_eq_ok_iff_eq_word rfl rfl, decode_eq_ok_iff_eq_word rfl rfl, decode_eq_ok_iff_eq_word rfl rfl,
    decode_eq_dmRun_iff w, decode_eq_ok_iff_eq_word rfl rfl, decode_eq_ok_iff_eq_word rfl rfl,
    decode_eq_ok_iff_eq_word rfl rfl, decode_eq_ok_iff_eq_word rfl rfl⟩

/-! ## Illegal words (R153) -/

theorem decode_eq_error_iff (w : Word) :
    (∃ e, decode w = .error e) ↔
      (rsvField w ≠ 0 ∨ (∀ i, opcField w ≠ opcode i) ∨ (opcField w ≠ 0x11 ∧ argField w ≠ 0)) := by
  rcases decode_cases w with ⟨h, hd⟩ | ⟨h, hd⟩ | ⟨h, hd⟩ | ⟨i, -, rfl, hd⟩
  · exact iff_of_true ⟨_, hd⟩ (Or.inl h)
  · exact iff_of_true ⟨_, hd⟩ (Or.inr (Or.inl h))
  · exact iff_of_true ⟨_, hd⟩ (Or.inr (Or.inr h))
  · refine iff_of_false (by simp [hd]) ?_
    rintro (hr | ho | ⟨hi, ha⟩)
    · exact hr (rsvField_encode i)
    · exact ho i (opcField_encode i)
    · rw [opcField_encode] at hi
      rw [argField_encode] at ha
      rcases dmRun_or_zeroArg i with ⟨n, rfl⟩ | ⟨-, -, harg⟩
      · exact hi rfl
      · exact ha harg

/-- Settles O3: the rejected words by the inversion of the decoder, their rejection by what `raise` records. -/
theorem illegalWordsRejected : Obligations.IllegalWordsRejected := by
  intro w
  constructor
  · rw [mem_opcodes_iff, not_exists]
    exact decode_eq_error_iff w
  · rintro s ⟨e, he⟩
    exact ⟨raise .illegalCmd w s, takeStep_illegal he s, raise_errorRaised .illegalCmd w s,
      raise_onlyError .illegalCmd w s⟩

/-! ## The worked encodings (R160) -/

/-- Settles O4: the legal words are the encoder's words of their commands, the illegal ones are evaluated. -/
theorem workedEncodings : Obligations.WorkedEncodings :=
  ⟨decode_encode (i := .dmRun 8) rfl, decode_encode (i := .dmRun 0) rfl, decode_encode (i := .dmRun 16384) rfl,
    decode_encode (i := .dmRun 16385) rfl, decode_encode (i := .spPrep) rfl, by decide, by decide, by decide,
    decode_encode (i := .nop) rfl, decode_encode (i := .softReset) rfl, decode_encode (i := .dmReset) rfl,
    decode_encode (i := .spReset) rfl, decode_encode (i := .spPost) rfl, decode_encode (i := .spStats) rfl⟩

end Sys2Proof.Machine
end

section
/-! What a command does at its submission: a step of the machine runs it (O5), `NOP` does nothing (O7), and the commands of
the engines are accepted or rejected (O11, O12, O16, O17). -/

namespace Sys2Proof.Machine

/-! ## Submission (R200, R201) -/

theorem step_command {s : State} {w : Word} {rest : List Event} {i : Instr}
    (hs : s.schedule = .write cmdOffset w :: rest) (hd : decode w = .ok i) : step s = exec i (s.setSchedule rest) := by
  rw [step_scheduled hs, takeStep_command hd]

theorem withFetchWord_schedule (s : State) {w : Nat} (hw : w < 2 ^ 32) :
    (s.withFetchWord 32 w).schedule = .write cmdOffset (BitVec.ofNat 32 w) :: s.schedule := by
  rw [State.withFetchWord, setSchedule_schedule, Nat.mod_eq_of_lt hw]

theorem withFetchWord_setSchedule (s : State) (nbits w : Nat) :
    (s.withFetchWord nbits w).setSchedule s.schedule = s := rfl

/-- Settles O5: the step takes the first entry of the schedule, and a `CMD` write runs the command its word decodes to. -/
theorem stepRunsDecodedCommand : Obligations.StepRunsDecodedCommand := by
  refine ⟨fun s e rest hs => step_scheduled hs, ?_, ?_⟩
  · intro s w rest i hs hd
    obtain ⟨hwf, -⟩ := decode_eq_ok_iff.mp hd
    exact ⟨hwf, step_command hs hd⟩
  · intro s w i hw hd
    rw [step_command (withFetchWord_schedule s hw) hd, withFetchWord_setSchedule]

/-! ## `NOP` (R210) -/

theorem decode_eq_nop_iff (w : Word) : decode w = .ok .nop ↔ w = 0 := decode_eq_ok_iff_eq_word rfl rfl

theorem eq_nop_of_opcode {i : Instr} (h : opcode i = 0) : i = .nop := by
  cases i with
  | nop => rfl
  | _ => exact absurd h (by simp [opcode])

/-- Settles O7: only `NOP` has the opcode 0x00, and 0 is its only word. -/
theorem nopChangesNothing : Obligations.NopChangesNothing := by
  refine ⟨fun s => rfl, decode_eq_nop_iff, ?_⟩
  intro w hopc hw
  cases hd : decode w with
  | error e => exact ⟨e, rfl⟩
  | ok i =>
    obtain ⟨-, rfl⟩ := decode_eq_ok_iff.mp hd
    obtain rfl := eq_nop_of_opcode ((opcField_encode i).symm.trans hopc)
    exact absurd rfl hw

/-! ## `DM_RUN` (R201, R204) -/

theorem statusWord_busy (s : State) :
    (statusWord s).getLsbD 0 = s.dmBusy ∧ (statusWord s).getLsbD 1 = s.spBusy := by
  unfold statusWord bitAt
  generalize s.dmBusy = a, s.spBusy = b, s.dm.valid = c, s.sp.valid = d, s.dmDone = e, s.spDone = f, s.frameNew = g,
    s.err = h
  revert a b c d e f g h
  decide

/-- The word of `DM_RUN n` (R151, R152). -/
theorem encode_dmRun {n : Nat} (h : n < 2 ^ 16) : encode (.dmRun n) = BitVec.ofNat 32 (n * 65536 + 0x11) := by
  have hn : (BitVec.ofNat 32 (n * 65536 + 0x11)).toNat = n * 65536 + 0x11 := Nat.mod_eq_of_lt (by omega)
  refine (eq_encode_of_fields ?_ ?_ ?_).symm <;> apply BitVec.eq_of_toNat_eq
  · rw [rsvField_toNat, hn]; change _ = 0; omega
  · rw [opcField_toNat, hn]; change _ = 0x11; omega
  · rw [argField_toNat, hn, toNat_argument_dmRun (decide_eq_true h)]; omega

/-- Settles O11: of the cases of `DM_RUN` the one of an idle engine and a count in range. -/
theorem dmRunAccepted : Obligations.DmRunAccepted := by
  intro s n hp hn
  rcases exec_dmRun_cases n s with ⟨hb, -⟩ | ⟨-, hgt, -⟩ | ⟨-, -, e⟩
  · simp [hp] at hb
  · exact absurd hgt (Nat.not_lt.mpr hn)
  · obtain ⟨hbusy, -⟩ := statusWord_busy (acceptDmRun n s)
    exact ⟨_, e, rfl, hbusy, rfl, fun _ => rfl, ⟨rfl, rfl, rfl⟩, ⟨rfl, rfl, rfl⟩, rfl, rfl, rfl⟩

/-- Settles O12: of the cases of `DM_RUN` the two rejections. -/
theorem dmRunRejected : Obligations.DmRunRejected := by
  intro s n hn
  rw [← encode_dmRun hn]
  rcases exec_dmRun_cases n s with ⟨hb, e⟩ | ⟨hp, -, e⟩ | ⟨hp, hle, -⟩
  · exact ⟨fun _ => ⟨_, e, raise_errorRaised .engineBusy _ s, raise_onlyError _ _ s⟩, fun hp => by simp [hp] at hb⟩
  · exact ⟨fun hb => by simp [hp] at hb, fun _ _ => ⟨_, e, raise_errorRaised .countRange _ s, raise_onlyError _ _ s⟩⟩
  · exact ⟨fun hb => by simp [hp] at hb, fun _ hgt => absurd hgt (Nat.not_lt.mpr hle)⟩

/-! ## The commands of SPEC (R201, R204, R378) -/

theorem exec_spPrep_idle {s : State} (h : s.sp.pending = none) : exec .spPrep s = .next (acceptSpPrep s) := by
  rcases exec_spPrep_cases s with ⟨hb, -⟩ | ⟨-, e⟩
  · simp [h] at hb
  · exact e

/-- A busy SPEC rejects its three commands. -/
theorem exec_spec_busy {s : State} (h : s.sp.pending.isSome = true) {i : Instr}
    (hi : i = .spPrep ∨ i = .spPost ∨ i = .spStats) : exec i s = .next (raise .engineBusy (encode i) s) := by
  have hb : s.spBusy = true := h
  rcases hi with rfl | rfl | rfl
  · exact if_pos hb
  · exact if_pos hb
  · exact if_pos hb

/-- Before the first window `SP_POST` and `SP_STATS` are rejected. -/
theorem exec_spec_unconfigured {s : State} (h : s.sp.pending = none) (hv : s.sp.valid = false) {i : Instr}
    (hi : i = .spPost ∨ i = .spStats) : exec i s = .next (raise .notConfigured (encode i) s) := by
  rcases hi with rfl | rfl
  · rcases exec_spPost_cases s with ⟨hb, -⟩ | ⟨-, -, e⟩ | ⟨-, hv', -⟩
    · simp [h] at hb
    · exact e
    · simp [hv] at hv'
  · rcases exec_spStats_cases s with ⟨hb, -⟩ | ⟨-, -, e⟩ | ⟨-, hv', -⟩
    · simp [h] at hb
    · exact e
    · simp [hv] at hv'

theorem exec_spPost_configured {s : State} (h : s.sp.pending = none) (hv : s.sp.valid = true) :
    exec .spPost s = .next (acceptSpPost s) := by
  rcases exec_spPost_cases s with ⟨hb, -⟩ | ⟨-, hv', -⟩ | ⟨-, -, e⟩
  · simp [h] at hb
  · simp [hv] at hv'
  · exact e

theorem exec_spStats_configured {s : State} (h : s.sp.pending = none) (hv : s.sp.valid = true) :
    exec .spStats s = .next (s.setSp { s.sp with pending := some .stats }) := by
  rcases exec_spStats_cases s with ⟨hb, -⟩ | ⟨-, hv', -⟩ | ⟨-, -, e⟩
  · simp [h] at hb
  · simp [hv] at hv'
  · exact e

theorem setSp_frame (s : State) (e : Spec) :
    let t := s.setSp e
    t.dm = s.dm ∧ SameRam s t ∧ SameDone s t ∧ SameError s t ∧ SameHost s t :=
  ⟨rfl, fun _ => rfl, ⟨rfl, rfl, rfl⟩, ⟨rfl, rfl, rfl⟩, rfl, rfl, rfl⟩

/-- Settles O16: each command's acceptance, which changes SPEC only. -/
theorem specCommandsAccepted : Obligations.SpecCommandsAccepted := fun s hp =>
  ⟨⟨_, exec_spPrep_idle hp, rfl, (statusWord_busy _).2, setSp_frame s _⟩, fun hv =>
    ⟨⟨_, exec_spPost_configured hp hv, rfl, (statusWord_busy _).2, setSp_frame s _⟩,
      ⟨_, exec_spStats_configured hp hv, rfl, (statusWord_busy _).2, setSp_frame s _⟩⟩⟩

/-- Settles O17: the rejections, whose information word is the command's own. -/
theorem specCommandsRejected : Obligations.SpecCommandsRejected := by
  intro s
  constructor
  · intro hb
    have hrej : ∀ i, (i = .spPrep ∨ i = .spPost ∨ i = .spStats) → ∃ t, exec i s = .next t ∧
        ErrorRaised 0x02 (encode i) s t ∧ OnlyError s t := fun i hi =>
      ⟨_, exec_spec_busy hb hi, raise_errorRaised .engineBusy _ s, raise_onlyError _ _ s⟩
    simp only [List.mem_cons, List.not_mem_nil, or_false, forall_eq_or_imp, forall_eq]
    exact ⟨hrej .spPrep (by simp), hrej .spPost (by simp), hrej .spStats (by simp)⟩
  · intro hp hv
    have hrej : ∀ i, (i = .spPost ∨ i = .spStats) → ∃ t, exec i s = .next t ∧
        ErrorRaised 0x08 (encode i) s t ∧ OnlyError s t := fun i hi =>
      ⟨_, exec_spec_unconfigured hp hv hi, raise_errorRaised .notConfigured _ s, raise_onlyError _ _ s⟩
    simp only [List.mem_cons, List.not_mem_nil, or_false, forall_eq_or_imp, forall_eq]
    exact ⟨hrej .spPost (by simp), hrej .spStats (by simp)⟩

end Sys2Proof.Machine
end

section
/-! Nothing but its own step and a reset disturbs a busy engine (O32, O33): the step of each engine depends on its registers
and hidden state, shadows aside, and on its own windows, and so the steps of the two engines commute (O31). -/

namespace Sys2Proof.Machine

/-! ## The windows of the two engines (R104) -/

/-- The windows of DEMOD lie below those of SPEC. -/
def specBase : Nat := 0x40000

/-- Each window is gated by one engine and lies on that engine's side. -/
theorem ramAccess_side (w : Ram) :
    ((ramAccess w).gate = some .demod ∧ w.base + 4 * w.words ≤ specBase) ∨
      ((ramAccess w).gate = some .spec ∧ specBase ≤ w.base) := by
  cases w <;> decide

theorem lt_specBase_of_inDemodRam {a : Nat} (h : inDemodRam a = true) : a < specBase := by
  simp only [inDemodRam, List.any_cons, List.any_nil, Bool.or_false, Bool.or_eq_true, holds_iff, Ram.base, Ram.words,
    Config.iqDepth, Config.firTMax] at h
  simp only [specBase]
  omega

theorem specBase_le_of_inSpecRam {a : Nat} (h : inSpecRam a = true) : specBase ≤ a := by
  simp only [inSpecRam, List.any_cons, List.any_nil, Bool.or_false, Bool.or_eq_true, holds_iff, Ram.base, Ram.words,
    Config.nMax] at h
  simp only [specBase]
  omega

theorem dmRunOutputs_inDemodRam {a : Nat} (h : dmRunOutputs.any (·.holds a) = true) : inDemodRam a = true := by
  simp only [dmRunOutputs, inDemodRam, List.any_cons, List.any_nil, Bool.or_false, Bool.or_eq_true] at h ⊢
  exact Or.inr h

theorem spOutputs_inSpecRam {c : SpCmd} {a : Nat} (h : (spOutputs c).any (·.holds a) = true) : inSpecRam a = true := by
  obtain ⟨w, hw, ha⟩ := List.any_eq_true.mp h
  refine List.any_eq_true.mpr ⟨w, ?_, ha⟩
  cases c with
  | prep l => exact List.Sublist.subset (by decide : spPrepOutputs.Sublist _) hw
  | post l => exact List.Sublist.subset (by decide : spPostOutputs.Sublist _) hw
  | stats => cases hw

theorem holds_of_locate {off a : Nat} {w : Ram} (h : locate off = some (.ram w a)) : w.holds off = true := by
  unfold locate at h
  split at h
  · cases hr : regMap.lookup off <;> simp [hr] at h
  · cases hf : Ram.all.find? (·.holds off) with
    | none => simp [hf] at h
    | some u =>
      simp only [hf, Option.map_some, Option.some.injEq, Target.ram.injEq] at h
      obtain ⟨rfl, -⟩ := h
      exact List.find?_some (p := fun w : Ram => w.holds off) hf

/-- A performed write of a window is gated by an idle engine, and the word lies on that engine's side. -/
theorem writeOutcome_ram_side {off : Offset} {v : Word} {s : State} {w : Ram} {a : Nat}
    (h : writeOutcome off v s = .ok (.ram w a)) :
    (s.busy .demod = false ∧ a + 4 ≤ specBase) ∨ (s.busy .spec = false ∧ specBase ≤ a) := by
  obtain ⟨hal, hl, hacc⟩ := writeOutcome_ok h
  have hh := (holds_iff w off.toNat).mp (holds_of_locate hl)
  obtain rfl := locate_ram hl
  have hgate : ∃ e, (ramAccess w).gate = some e ∧ s.busy e = false := by
    rcases hacc with ⟨e, hc, hb⟩ | ⟨hc, -⟩ | hc | hc | hc <;> simp only [accessOf] at hc
    · exact ⟨e, by rw [hc]; rfl, hb⟩
    all_goals cases w <;> cases hc
  obtain ⟨e, hg, hb⟩ := hgate
  rcases ramAccess_side w with ⟨hg', hside⟩ | ⟨hg', hside⟩ <;> rw [hg'] at hg <;> cases hg
  · have hbase : w.base % 4 = 0 := by cases w <;> rfl
    exact Or.inl ⟨hb, by omega⟩
  · exact Or.inr ⟨hb, by omega⟩

/-! ## Agreement on one engine -/

/-- The two states agree on DEMOD, its shadows and pending flags aside, and on its windows. -/
structure SameDemod (s t : State) : Prop where
  engine : t.dm.withoutShadows = s.dm.withoutShadows
  ram : SameRamWhere (fun a => inDemodRam a = true) s t

/-- The same of SPEC. -/
structure SameSpec (s t : State) : Prop where
  engine : t.sp.withoutShadows = s.sp.withoutShadows
  ram : SameRamWhere (fun a => inSpecRam a = true) s t

theorem SameDemod.of_eq {s t : State} (hd : t.dm.withoutShadows = s.dm.withoutShadows) (hm : t.mem = s.mem) :
    SameDemod s t := ⟨hd, fun _ _ => by rw [hm]⟩

theorem SameSpec.of_eq {s t : State} (he : t.sp.withoutShadows = s.sp.withoutShadows) (hm : t.mem = s.mem) :
    SameSpec s t := ⟨he, fun _ _ => by rw [hm]⟩

theorem SameDemod.raise (s : State) (c : ErrCode) (info : Word) : SameDemod s (raise c info s) :=
  .of_eq (by rw [raise_dm]) (raise_mem s c info)

theorem SameSpec.raise (s : State) (c : ErrCode) (info : Word) : SameSpec s (raise c info s) :=
  .of_eq (by rw [raise_sp]) (raise_mem s c info)

/-! ## Words and blocks of agreeing windows -/

/-- Words of a window read alike where the bytes of the window do. -/
theorem get_congr {m n : Memory} {w : Ram} {i : Nat} (hi : i < w.words)
    (h : ∀ a, w.holds a = true → n.readByte a = m.readByte a) : n.get w i = m.get w i := by
  apply readWord_congr
  intro k hk
  exact h _ ((holds_iff w _).mpr (by omega))

theorem block_congr {m n : Memory} {w : Ram} {l : Nat} (hl : l ≤ w.words)
    (h : ∀ a, w.holds a = true → n.readByte a = m.readByte a) : n.block w l = m.block w l := by
  apply List.map_congr_left
  intro i hi
  rw [List.mem_range] at hi
  exact get_congr (by omega) h

theorem iqSamples_congr {m n : Memory} {w : Ram} {l : Nat} (hl : l ≤ 2 * w.words)
    (h : ∀ a, w.holds a = true → n.readByte a = m.readByte a) : iqSamples n w l = iqSamples m w l := by
  apply List.map_congr_left
  intro j hj
  rw [List.mem_range] at hj
  unfold iqSample
  rw [get_congr (i := j / 2) (by omega) h]

/-- The same block written into memories that agree on a byte leaves them agreeing on it. -/
theorem readByte_setBlock_congr {m n : Memory} {a : Nat} (h : n.readByte a = m.readByte a) (w : Ram) (vs : List Word) :
    (n.setBlock w vs).readByte a = (m.setBlock w vs).readByte a := by
  by_cases hout : a < w.base ∨ w.base + 4 * vs.length ≤ a
  · rw [readByte_setBlock_of_outside _ _ _ _ hout, readByte_setBlock_of_outside _ _ _ _ hout, h]
  · have hk : a - w.base < (vs.flatMap wordBytes).length := by rw [flatMap_wordBytes_length]; omega
    obtain ⟨k, rfl⟩ : ∃ k, a = w.base + k := ⟨a - w.base, by omega⟩
    rw [Nat.add_sub_cancel_left] at hk
    simp only [Memory.setBlock, readByte_writeBytes_of_inside _ _ _ _ hk]

/-! ## The step of DEMOD depends on DEMOD only (R206) -/

theorem processAll_withoutShadows (h1 h2 : List F32) (d : Demod) (xs : List C32) :
    processAll h1 h2 d.withoutShadows xs =
      ((processAll h1 h2 d xs).1.withoutShadows, (processAll h1 h2 d xs).2) := by
  have hf := processAll_frame h1 h2 d xs
  have hd : d.withoutShadows = d.withoutShadows.withDatapath d := rfl
  rw [hd, processAll_datapath]
  generalize processAll h1 h2 d xs = p at *
  rw [hf]
  rfl

theorem dmRunTuned_withoutShadows (c : DmRun) (d : Demod) :
    dmRunTuned c d.withoutShadows = (dmRunTuned c d).withoutShadows := by
  simp only [dmRunTuned, retune, Demod.withoutShadows]

theorem dmClearAll_withoutShadows (d : Demod) : dmClearAll d.withoutShadows = (dmClearAll d).withoutShadows := rfl

theorem rebuiltDemod_withoutShadows (mod : Word) (fs tau : F32) (d : Demod) :
    rebuiltDemod mod fs tau d.withoutShadows = (rebuiltDemod mod fs tau d).withoutShadows := rfl

theorem needsRebuild_withoutShadows (c : DmRun) (d : Demod) : needsRebuild c d.withoutShadows = needsRebuild c d := rfl

/-- A run of samples from engines that agree but for the shadows. -/
theorem processAll_congr {d e : Demod} (h : e.withoutShadows = d.withoutShadows) (h1 h2 : List F32) (xs : List C32) :
    (processAll h1 h2 e xs).1.withoutShadows = (processAll h1 h2 d xs).1.withoutShadows ∧
      (processAll h1 h2 e xs).2 = (processAll h1 h2 d xs).2 := by
  have hp := processAll_withoutShadows h1 h2 e xs
  rw [h, processAll_withoutShadows] at hp
  obtain ⟨hd, ha⟩ := Prod.mk.inj hp
  exact ⟨hd.symm, ha.symm⟩

theorem dmRunTuned_congr {d e : Demod} (h : e.withoutShadows = d.withoutShadows) (c : DmRun) :
    (dmRunTuned c e).withoutShadows = (dmRunTuned c d).withoutShadows := by
  rw [← dmRunTuned_withoutShadows, h, dmRunTuned_withoutShadows]

theorem SameDemod.needsRebuild {s t : State} (h : SameDemod s t) (c : DmRun) :
    needsRebuild c t.dm = needsRebuild c s.dm := by
  rw [← needsRebuild_withoutShadows, h.engine, needsRebuild_withoutShadows]

theorem SameDemod.dmRunReset {s t : State} (h : SameDemod s t) (c : DmRun) :
    SameDemod (dmRunReset c s) (dmRunReset c t) := by
  unfold Machine.dmRunReset
  split
  · exact ⟨by rw [setDm_dm, setDm_dm, ← dmClearAll_withoutShadows, h.engine, dmClearAll_withoutShadows], h.ram⟩
  · exact h

theorem SameDemod.rebuild {s t : State} (h : SameDemod s t) (mod : Word) (fs tau : F32) :
    SameDemod (rebuild mod fs tau s) (rebuild mod fs tau t) := by
  unfold Machine.rebuild
  cases rebuildDesigns mod fs tau with
  | error r =>
    refine ⟨by rw [raise_dm, raise_dm, h.engine], fun a ha => ?_⟩
    rw [raise_mem, raise_mem]
    exact h.ram a ha
  | ok p =>
    refine ⟨?_, fun a ha => readByte_setBlock_congr (readByte_setBlock_congr (h.ram a ha) .dmH1 p.1) .dmH2 p.2⟩
    simp only [setDm_dm]
    rw [← rebuiltDemod_withoutShadows, h.engine, rebuiltDemod_withoutShadows]

theorem SameDemod.dmRunConfigured {s t : State} (h : SameDemod s t) (c : DmRun) :
    SameDemod (dmRunConfigured c s) (dmRunConfigured c t) := by
  have hr := h.dmRunReset c
  unfold Machine.dmRunConfigured
  dsimp only
  rw [hr.needsRebuild]
  split
  · exact hr.rebuild c.mod c.fs c.tau
  · exact hr

/-- The coefficients an engine reads lie in their windows (R495). -/
def Demod.TapsFit (d : Demod) : Prop := d.t1.toNat ≤ Config.firTMax ∧ d.t2.toNat ≤ Config.firTMax

theorem EnginesConsistent.tapsFit {s : State} (h : EnginesConsistent s) : s.dm.TapsFit := by
  cases hv : s.dm.valid with
  | false =>
    obtain ⟨h1, h2⟩ := (h.unbuilt hv).taps
    rw [Demod.TapsFit, h1, h2]
    decide
  | true =>
    have hc := h.configured hv
    have hlegal := hc.legal
    simp only [Demod.activeLegal, Bool.and_eq_true, decide_eq_true_eq] at hlegal
    have ht2 := tapCount_stage2 s.dm.actMod
    rw [Demod.TapsFit, hc.derived.t1, hc.derived.t2]
    exact ⟨hlegal.2, ht2.trans (by decide)⟩

theorem dmRunConfigured_tapsFit {s : State} (h : s.dm.TapsFit) (c : DmRun) : (dmRunConfigured c s).dm.TapsFit := by
  have hr : (dmRunReset c s).dm.TapsFit := by
    unfold dmRunReset
    split <;> exact h
  unfold dmRunConfigured
  dsimp only
  split
  · rcases rebuild_cases c.mod c.fs c.tau (dmRunReset c s) with ⟨r, -, e⟩ | ⟨h1, h2, hok, e⟩ <;> rw [e]
    · rw [raise_dm]; exact hr
    · obtain ⟨ht1, -⟩ := rebuildDesigns_ok hok
      have ht2 := tapCount_stage2 c.mod
      simp only [Demod.TapsFit, setDm_dm, rebuiltDemod, BitVec.toNat_ofNat, Config.firTMax] at ht1 ⊢
      omega
  · exact hr

theorem SameDemod.dmRunProcess {s t : State} (h : SameDemod s t) {c : DmRun} (hn : c.n ≤ Config.iqDepth)
    (ht : s.dm.TapsFit) : SameDemod (dmRunProcess c s) (dmRunProcess c t) := by
  obtain ⟨ht1, ht2⟩ := ht
  have hram : ∀ w ∈ [Ram.dmIq, .dmAud, .dmH1, .dmH2], ∀ a, w.holds a = true → t.mem.readByte a = s.mem.readByte a :=
    fun w hw a ha => h.ram a (List.any_eq_true.mpr ⟨w, hw, ha⟩)
  have htuned := dmRunTuned_congr h.engine c
  have e1 : (dmRunTuned c t.dm).t1 = (dmRunTuned c s.dm).t1 := (congrArg Demod.t1 htuned :)
  have e2 : (dmRunTuned c t.dm).t2 = (dmRunTuned c s.dm).t2 := (congrArg Demod.t2 htuned :)
  have hb1 := block_congr (w := .dmH1) (l := (dmRunTuned c s.dm).t1.toNat) ht1 (hram .dmH1 (by simp))
  have hb2 := block_congr (w := .dmH2) (l := (dmRunTuned c s.dm).t2.toNat) ht2 (hram .dmH2 (by simp))
  have hiq := iqSamples_congr (w := .dmIq) (l := c.n) hn (hram .dmIq (by simp))
  obtain ⟨hd, haudio⟩ := processAll_congr htuned (s.mem.block .dmH1 (dmRunTuned c s.dm).t1.toNat)
    (s.mem.block .dmH2 (dmRunTuned c s.dm).t2.toNat) (iqSamples s.mem .dmIq c.n)
  unfold Machine.dmRunProcess
  dsimp only
  rw [e1, e2, hb1, hb2, hiq, haudio]
  generalize processAll _ _ (dmRunTuned c s.dm) _ = p at *
  refine ⟨?_, fun a ha => readByte_setBlock_congr (h.ram a ha) .dmAud p.2⟩
  exact congrArg (fun d : Demod => { d with audCount := BitVec.ofNat 32 p.2.length, audPeak := peakMeter p.2 }) hd

theorem SameDemod.dmRunCompute {s t : State} (h : SameDemod s t) {c : DmRun} (hn : c.n ≤ Config.iqDepth)
    (ht : s.dm.TapsFit) : SameDemod (dmRunCompute c s) (dmRunCompute c t) := by
  have hc := h.dmRunConfigured c
  have hvalid : (Machine.dmRunConfigured c t).dm.valid = (Machine.dmRunConfigured c s).dm.valid :=
    (congrArg Demod.valid hc.engine :)
  have ht' := dmRunConfigured_tapsFit ht c
  unfold Machine.dmRunCompute
  dsimp only
  by_cases hv : (Machine.dmRunConfigured c s).dm.valid = true
  · rw [if_pos hv, if_pos (hvalid.trans hv)]
    exact hc.dmRunProcess hn ht'
  · rw [if_neg hv, if_neg (hvalid ▸ hv)]
    refine ⟨congrArg (fun d : Demod => { d with audCount := 0, audPeak := posZero }) hc.engine, fun a ha => ?_⟩
    simp only [setDm_mem, raise_mem]
    exact hc.ram a ha

theorem SameDemod.completeDemod {s t : State} (h : SameDemod s t) (hregs : RegistersLegal s)
    (heng : EnginesConsistent s) : SameDemod (completeDemod s) (completeDemod t) := by
  have hpending : t.dm.pending = s.dm.pending := (congrArg Demod.pending h.engine :)
  cases hp : s.dm.pending with
  | none => rwa [completeDemod_idle hp, completeDemod_idle (hpending.trans hp)]
  | some c =>
    have hn : c.n ≤ Config.iqDepth := DmRun.legal_count (by simpa [hp] using hregs.demodLatched)
    have hr := h.dmRunCompute hn heng.tapsFit
    rw [completeDemod_busy hp, completeDemod_busy (hpending.trans hp)]
    exact ⟨congrArg (fun d : Demod => { d with pending := none }) hr.engine, hr.ram⟩

/-! ## The error record after the step of DEMOD -/

theorem SameError.raise {s t : State} (h : SameError s t) (c : ErrCode) (info : Word) :
    SameError (raise c info s) (raise c info t) := by
  obtain ⟨he, hcode, hinfo⟩ := h
  unfold Machine.raise
  rw [he]
  split
  · exact ⟨he, hcode, hinfo⟩
  · exact ⟨rfl, rfl, rfl⟩

theorem SameError.trans {s t u : State} (h : SameError s t) (h' : SameError t u) : SameError s u := by
  obtain ⟨he, hcode, hinfo⟩ := h
  obtain ⟨he', hcode', hinfo'⟩ := h'
  exact ⟨he'.trans he, hcode'.trans hcode, hinfo'.trans hinfo⟩

theorem SameError.symm {s t : State} (h : SameError s t) : SameError t s := by
  obtain ⟨he, hcode, hinfo⟩ := h
  exact ⟨he.symm, hcode.symm, hinfo.symm⟩

theorem SameError.dmRunConfigured {s t : State} (h : SameError s t) (hd : SameDemod s t) (c : DmRun) :
    SameError (dmRunConfigured c s) (dmRunConfigured c t) := by
  have hr : SameError (dmRunReset c s) (dmRunReset c t) :=
    ((dmRunReset_sameError c s).symm.trans h).trans (dmRunReset_sameError c t)
  unfold Machine.dmRunConfigured
  dsimp only
  rw [(hd.dmRunReset c).needsRebuild]
  split
  · unfold rebuild
    cases rebuildDesigns c.mod c.fs c.tau with
    | error r => exact hr.raise .buildFail r
    | ok p => exact hr
  · exact hr

/-- Which error the step records, if any, depends on DEMOD and on the record only. -/
theorem SameError.completeDemod {s t : State} (h : SameError s t) (hd : SameDemod s t) :
    SameError (completeDemod s) (completeDemod t) := by
  have hpending : t.dm.pending = s.dm.pending := (congrArg Demod.pending hd.engine :)
  cases hp : s.dm.pending with
  | none => rwa [completeDemod_idle hp, completeDemod_idle (hpending.trans hp)]
  | some c =>
    have hc := h.dmRunConfigured hd c
    have hvalid : (Machine.dmRunConfigured c t).dm.valid = (Machine.dmRunConfigured c s).dm.valid :=
      (congrArg Demod.valid (hd.dmRunConfigured c).engine :)
    have hr : SameError (dmRunCompute c s) (dmRunCompute c t) := by
      unfold dmRunCompute
      dsimp only
      rw [hvalid]
      split
      · exact hc
      · exact hc.raise .notConfigured _
    rw [completeDemod_busy hp, completeDemod_busy (hpending.trans hp)]
    exact hr

/-! ## The step of SPEC depends on SPEC only (R206) -/

theorem SameSpec.window {s t : State} (h : SameSpec s t) {w : Ram}
    (hw : w ∈ [Ram.spIq, .spWlut, .spWout, .spMag, .spRaw, .spDisp, .spHold]) (a : Nat) (ha : w.holds a = true) :
    t.mem.readByte a = s.mem.readByte a := h.ram a (List.any_eq_true.mpr ⟨w, hw, ha⟩)

theorem SameSpec.regenerate {s t : State} (h : SameSpec s t) (n win : Word) :
    SameSpec (regenerate n win s) (regenerate n win t) :=
  ⟨congrArg (fun e : Spec => { e with
      corr := coherentCorrection (windowTable win n.toNat), actN := n, actWin := win,
      minSep := BitVec.ofNat 32 (minSeparation win), valid := true }) h.engine,
    fun a ha => readByte_setBlock_congr (h.ram a ha) .spWlut _⟩

theorem SameSpec.spPrepConfigured {s t : State} (h : SameSpec s t) (l : SpPrep) :
    SameSpec (spPrepConfigured l s) (spPrepConfigured l t) := by
  have hc : SameSpec (if l.resetPend || l.dirtyN then s.setSp (clearSpectrum s.sp) else s)
      (if l.resetPend || l.dirtyN then t.setSp (clearSpectrum t.sp) else t) := by
    split
    · exact ⟨congrArg clearSpectrum h.engine, h.ram⟩
    · exact h
  unfold Machine.spPrepConfigured
  dsimp only
  split
  · exact hc.regenerate l.n l.win
  · exact hc

theorem SameSpec.spPrepSamples {s t : State} (h : SameSpec s t) (hN : s.sp.actN.toNat ≤ Config.nMax) (l : SpPrep) :
    spPrepSamples l t = spPrepSamples l s := by
  have hactN : t.sp.actN = s.sp.actN := (congrArg Spec.actN h.engine :)
  have hdcb : t.sp.dcb = s.sp.dcb := (congrArg Spec.dcb h.engine :)
  have hiq := iqSamples_congr (w := .spIq) (l := s.sp.actN.toNat) hN (h.window (by simp))
  unfold Machine.spPrepSamples
  rw [hactN, hdcb, hiq]

theorem SameSpec.spPrepCompute {s t : State} (h : SameSpec s t) {l : SpPrep} (hn : l.n.toNat ≤ Config.nMax)
    (hN : s.sp.actN.toNat ≤ Config.nMax) : SameSpec (spPrepCompute l s) (spPrepCompute l t) := by
  have hc := h.spPrepConfigured l
  have hsize : (Machine.spPrepConfigured l s).sp.actN.toNat ≤ Config.nMax := by
    rw [spPrepConfigured_actN]
    split <;> assumption
  have hactN : (Machine.spPrepConfigured l t).sp.actN = (Machine.spPrepConfigured l s).sp.actN :=
    (congrArg Spec.actN hc.engine :)
  have hlut := block_congr (w := .spWlut) hsize (hc.window (by simp))
  have hsamples := hc.spPrepSamples hsize l
  unfold Machine.spPrepCompute
  dsimp only
  rw [hsamples]
  refine ⟨congrArg (fun e : Spec => { e with
      dcbEn := l.dcbEn, alphaAct := l.dcbAlpha,
      dcb := (Machine.spPrepSamples l (Machine.spPrepConfigured l s)).1 }) hc.engine, fun a ha => ?_⟩
  simp only [setSp_mem, setMem_mem, hactN, hlut]
  exact readByte_setBlock_congr (hc.ram a ha) .spWout _

theorem SameSpec.spPostCompute {s t : State} (h : SameSpec s t) (hN : s.sp.actN.toNat ≤ Config.nMax) (l : SpPost) :
    SameSpec (spPostCompute l s) (spPostCompute l t) := by
  have hactN : t.sp.actN = s.sp.actN := (congrArg Spec.actN h.engine :)
  have hcorr : t.sp.corr = s.sp.corr := (congrArg Spec.corr h.engine :)
  have hema : t.sp.emaInit = s.sp.emaInit := (congrArg Spec.emaInit h.engine :)
  have hhold : t.sp.holdInit = s.sp.holdInit := (congrArg Spec.holdInit h.engine :)
  have hmag := block_congr (w := .spMag) hN (h.window (by simp))
  have hdisp := block_congr (w := .spDisp) hN (h.window (by simp))
  have hholds := block_congr (w := .spHold) hN (h.window (by simp))
  unfold Machine.spPostCompute
  refine ⟨congrArg (fun e : Spec => { e with
      emaInit := true, holdInit := l.phEn, frameSeq := e.frameSeq + 1 }) h.engine, fun a ha => ?_⟩
  simp only [setSp_mem, setMem_mem, hactN, hcorr, hema, hhold, hmag, hdisp, hholds]
  exact readByte_setBlock_congr
    (readByte_setBlock_congr (readByte_setBlock_congr (h.ram a ha) .spRaw _) .spDisp _) .spHold _

theorem statsOf_withoutShadows (d : List F32) (e : Spec) :
    statsOf d e.withoutShadows = (statsOf d e).withoutShadows := rfl

theorem SameSpec.spStatsCompute {s t : State} (h : SameSpec s t) (hN : s.sp.actN.toNat ≤ Config.nMax) :
    SameSpec (spStatsCompute s) (spStatsCompute t) := by
  have hactN : t.sp.actN = s.sp.actN := (congrArg Spec.actN h.engine :)
  have hdisp := block_congr (w := .spDisp) hN (h.window (by simp))
  unfold Machine.spStatsCompute
  rw [hactN, hdisp]
  refine ⟨?_, h.ram⟩
  rw [setSp_sp, setSp_sp, ← statsOf_withoutShadows, h.engine, statsOf_withoutShadows]

theorem SameSpec.spCompute {s t : State} (h : SameSpec s t) {c : SpCmd} (hc : c.legal = true)
    (hN : s.sp.actN.toNat ≤ Config.nMax) : SameSpec (spCompute c s) (spCompute c t) := by
  cases c with
  | prep l =>
    simp only [SpCmd.legal, Bool.and_eq_true, and_assoc] at hc
    obtain ⟨hsize, -⟩ := hc
    exact h.spPrepCompute (legalFftSize_le hsize) hN
  | post l => exact h.spPostCompute hN l
  | stats => exact h.spStatsCompute hN

theorem SameSpec.completeSpec {s t : State} (h : SameSpec s t) (hregs : RegistersLegal s) (heng : EnginesConsistent s) :
    SameSpec (completeSpec s) (completeSpec t) := by
  have hpending : t.sp.pending = s.sp.pending := (congrArg Spec.pending h.engine :)
  cases hp : s.sp.pending with
  | none => rwa [completeSpec_idle hp, completeSpec_idle (hpending.trans hp)]
  | some c =>
    have hr := h.spCompute (c := c) (by simpa [hp] using hregs.specLatched) heng.actN_le
    rw [completeSpec_busy hp, completeSpec_busy (hpending.trans hp)]
    exact ⟨congrArg (fun e : Spec => { e with pending := none }) hr.engine, hr.ram⟩

/-! ## What the step of the other engine leaves (R111) -/

theorem completeDemod_ram {s : State} (hl : s.dm.pending.all DmRun.legal = true) {a : Nat}
    (ha : inDemodRam a = false) : (completeDemod s).mem.readByte a = s.mem.readByte a := by
  cases hp : s.dm.pending with
  | none => rw [completeDemod_idle hp]
  | some c =>
    have hn : c.n ≤ Config.iqDepth := DmRun.legal_count (by simpa [hp] using hl)
    obtain ⟨-, -, hram⟩ := dmRunCompute_frame c s
    rw [completeDemod_busy hp]
    exact hram hn a (Bool.eq_false_iff.mpr fun h => Bool.eq_false_iff.mp ha (dmRunOutputs_inDemodRam h))

theorem completeSpec_ram {s : State} (hl : s.sp.pending.all SpCmd.legal = true) (hN : s.sp.actN.toNat ≤ Config.nMax)
    {a : Nat} (ha : inSpecRam a = false) : (completeSpec s).mem.readByte a = s.mem.readByte a := by
  cases hp : s.sp.pending with
  | none => rw [completeSpec_idle hp]
  | some c =>
    rw [completeSpec_busy hp]
    exact spCompute_ram (by simpa [hp] using hl) hN
      (Bool.eq_false_iff.mpr fun h => Bool.eq_false_iff.mp ha (spOutputs_inSpecRam h))

theorem completeDemod_frame (s : State) :
    (completeDemod s).sp = s.sp ∧ (completeDemod s).dmDone = (s.dmDone || s.dmBusy) ∧
      (completeDemod s).spDone = s.spDone ∧ (completeDemod s).frameNew = s.frameNew ∧ SameHost s (completeDemod s) := by
  rcases dmBusy_cases s with ⟨hp, hb⟩ | ⟨hp, hb⟩ <;> rw [hb]
  · obtain ⟨c, hc⟩ := Option.isSome_iff_exists.mp hp
    obtain ⟨hframe, -⟩ := dmRunCompute_frame c s
    rw [completeDemod_busy hc, hframe, Bool.or_true]
    exact ⟨rfl, rfl, rfl, rfl, rfl, rfl, rfl⟩
  · rw [completeDemod_idle hp, Bool.or_false]
    exact ⟨rfl, rfl, rfl, rfl, rfl, rfl, rfl⟩

theorem completeSpec_frame (s : State) :
    (completeSpec s).dm = s.dm ∧ (completeSpec s).dmDone = s.dmDone ∧
      (completeSpec s).spDone = (s.spDone || s.spBusy) ∧
      (completeSpec s).frameNew = (s.frameNew || s.sp.pending.any publishes) ∧
      SameError s (completeSpec s) ∧ SameHost s (completeSpec s) := by
  rcases spBusy_cases s with ⟨hp, hb⟩ | ⟨hp, hb⟩ <;> rw [hb]
  · obtain ⟨c, hc⟩ := Option.isSome_iff_exists.mp hp
    obtain ⟨hframe, -⟩ := spCompute_frame c s
    rw [completeSpec_busy hc, hframe, hc, Bool.or_true]
    exact ⟨rfl, rfl, rfl, rfl, ⟨rfl, rfl, rfl⟩, rfl, rfl, rfl⟩
  · rw [completeSpec_idle hp, hp, Bool.or_false, Option.any_none, Bool.or_false]
    exact ⟨rfl, rfl, rfl, rfl, ⟨rfl, rfl, rfl⟩, rfl, rfl, rfl⟩

theorem not_inSpecRam_of_inDemodRam {a : Nat} (h : inDemodRam a = true) : inSpecRam a = false := by
  have hlt := lt_specBase_of_inDemodRam h
  exact Bool.eq_false_iff.mpr fun h' => by have := specBase_le_of_inSpecRam h'; omega

theorem not_inDemodRam_of_inSpecRam {a : Nat} (h : inSpecRam a = true) : inDemodRam a = false :=
  Bool.eq_false_iff.mpr fun h' => by simp [not_inSpecRam_of_inDemodRam h'] at h

theorem completeSpec_sameDemod {s : State} (hregs : RegistersLegal s) (heng : EnginesConsistent s) :
    SameDemod s (completeSpec s) := by
  obtain ⟨hdm, -⟩ := completeSpec_frame s
  exact ⟨by rw [hdm], fun a ha => completeSpec_ram hregs.specLatched heng.actN_le (not_inSpecRam_of_inDemodRam ha)⟩

theorem completeDemod_sameSpec {s : State} (hregs : RegistersLegal s) : SameSpec s (completeDemod s) := by
  obtain ⟨hsp, -⟩ := completeDemod_frame s
  exact ⟨by rw [hsp], fun a ha => completeDemod_ram hregs.demodLatched (not_inDemodRam_of_inSpecRam ha)⟩

/-! ## What the HOST's steps leave of a busy engine (R113) -/

/-- Only `SP_CORR` among the registers the HOST can write is SPEC's own, its shadows aside (R56). -/
theorem writeReg_sp_withoutShadows {r : Reg} (h : r ≠ .spCorr) (v : Word) (s : State) :
    (writeReg r v s).sp.withoutShadows = s.sp.withoutShadows := by
  cases r with
  | status => rcases writeStatus_eq v s with e | e <;> rw [writeReg, e] <;> rfl
  | spCorr => exact absurd rfl h
  | _ => rfl

theorem writeTarget_sameDemod {off : Offset} {v : Word} {s : State} {place : Target} (hb : s.dmBusy = true)
    (h : writeOutcome off v s = .ok place) : SameDemod s (writeTarget place v s) := by
  refine ⟨writeTarget_withoutShadows place v s, fun a ha => ?_⟩
  cases place with
  | reg r =>
    obtain ⟨-, hmem, -⟩ := writeReg_frame r v s
    rw [writeTarget, hmem]
  | ram w b =>
    have hlt := lt_specBase_of_inDemodRam ha
    rcases writeOutcome_ram_side h with ⟨hidle, -⟩ | ⟨-, hside⟩
    · simp [State.busy, hb] at hidle
    · exact readByte_writeWord_of_outside s.mem b v a (Or.inl (by omega))

theorem writeTarget_sameSpec {off : Offset} {v : Word} {s : State} {place : Target} (hb : s.spBusy = true)
    (h : writeOutcome off v s = .ok place) : SameSpec s (writeTarget place v s) := by
  cases place with
  | reg r =>
    have hr : r ≠ .spCorr := by
      rintro rfl
      obtain ⟨-, -, hacc⟩ := writeOutcome_ok h
      simp [accessOf, regAccess, State.busy, hb] at hacc
    obtain ⟨-, hmem, -⟩ := writeReg_frame r v s
    exact .of_eq (writeReg_sp_withoutShadows hr v s) hmem
  | ram w b =>
    refine ⟨rfl, fun a ha => ?_⟩
    have hle := specBase_le_of_inSpecRam ha
    rcases writeOutcome_ram_side h with ⟨-, hside⟩ | ⟨hidle, -⟩
    · exact readByte_writeWord_of_outside s.mem b v a (Or.inr (by omega))
    · simp [State.busy, hb] at hidle

/-- A busy DEMOD rejects `DM_RUN` (R201), and `DM_RESET` marks a reset pending and no more (R490). -/
theorem exec_sameDemod {i : Instr} {s t : State} (hb : s.dm.pending.isSome = true) (hi : i ≠ .softReset)
    (h : exec i s = .next t) : SameDemod s t := by
  cases i with
  | softReset => exact absurd rfl hi
  | nop => cases h; exact .of_eq rfl rfl
  | dmReset => cases h; exact .of_eq rfl rfl
  | spReset => cases h; exact .of_eq rfl rfl
  | dmRun n =>
    rcases exec_dmRun_cases n s with ⟨-, e⟩ | ⟨hp, -⟩ | ⟨hp, -⟩
    · rw [e] at h; cases h; exact .raise s _ _
    · simp [hp] at hb
    · simp [hp] at hb
  | spPrep =>
    rcases exec_spPrep_cases s with ⟨-, e⟩ | ⟨-, e⟩ <;> rw [e] at h <;> cases h
    · exact .raise s _ _
    · exact .of_eq rfl rfl
  | spPost =>
    rcases exec_spPost_cases s with ⟨-, e⟩ | ⟨-, -, e⟩ | ⟨-, -, e⟩ <;> rw [e] at h <;> cases h
    · exact .raise s _ _
    · exact .raise s _ _
    · exact .of_eq rfl rfl
  | spStats =>
    rcases exec_spStats_cases s with ⟨-, e⟩ | ⟨-, -, e⟩ | ⟨-, -, e⟩ <;> rw [e] at h <;> cases h
    · exact .raise s _ _
    · exact .raise s _ _
    · exact .of_eq rfl rfl

/-- A busy SPEC rejects its three commands (R201), and `SP_RESET` marks a reset pending and no more (R380). -/
theorem exec_sameSpec {i : Instr} {s t : State} (hb : s.sp.pending.isSome = true) (hi : i ≠ .softReset)
    (h : exec i s = .next t) : SameSpec s t := by
  have hbusy : s.sp.pending ≠ none := Option.isSome_iff_ne_none.mp hb
  cases i with
  | softReset => exact absurd rfl hi
  | nop => cases h; exact .of_eq rfl rfl
  | dmReset => cases h; exact .of_eq rfl rfl
  | spReset => cases h; exact .of_eq rfl rfl
  | dmRun n =>
    rcases exec_dmRun_cases n s with ⟨-, e⟩ | ⟨-, -, e⟩ | ⟨-, -, e⟩ <;> rw [e] at h <;> cases h
    · exact .raise s _ _
    · exact .raise s _ _
    · exact .of_eq rfl rfl
  | spPrep =>
    rcases exec_spPrep_cases s with ⟨-, e⟩ | ⟨hp, -⟩
    · rw [e] at h; cases h; exact .raise s _ _
    · exact absurd hp hbusy
  | spPost =>
    rcases exec_spPost_cases s with ⟨-, e⟩ | ⟨hp, -⟩ | ⟨hp, -⟩
    · rw [e] at h; cases h; exact .raise s _ _
    · exact absurd hp hbusy
    · exact absurd hp hbusy
  | spStats =>
    rcases exec_spStats_cases s with ⟨-, e⟩ | ⟨hp, -⟩ | ⟨hp, -⟩
    · rw [e] at h; cases h; exact .raise s _ _
    · exact absurd hp hbusy
    · exact absurd hp hbusy

theorem ne_softReset_of_decode {w : Word} {i : Instr} (h : decode w = .ok i) (hw : w ≠ 0x00000001) :
    i ≠ .softReset := by
  rintro rfl
  exact hw ((decode_eq_ok_iff_eq_word rfl rfl).mp h)

/-- Every step but a step of DEMOD and a reset leaves a busy DEMOD as it is. -/
theorem takeStep_sameDemod {e : Event} {s t : State} (hregs : RegistersLegal s) (heng : EnginesConsistent s)
    (hb : s.dm.pending.isSome = true) (hdemod : e ≠ .demod) (hreset : e ≠ .reset)
    (hsoft : e ≠ .write cmdOffset 0x00000001) (h : takeStep e s = .next t) : SameDemod s t := by
  rcases takeStep_cases h with ⟨off, -, rfl⟩ | ⟨off, v, -, -, rfl⟩ | ⟨w, x, -, -, rfl⟩ | ⟨w, i, rfl, hd, h⟩ |
    ⟨rfl, -⟩ | ⟨-, rfl⟩ | ⟨rfl, -⟩
  · obtain ⟨hdm, -, hmem, -⟩ := hostRead_frame off s
    exact .of_eq (by rw [hdm]) hmem
  · rcases hostWrite_cases off v s with ⟨place, ho, e⟩ | ⟨c, -, e⟩ <;> rw [e]
    · exact writeTarget_sameDemod hb ho
    · exact .raise s c _
  · exact .raise s .illegalCmd w
  · exact exec_sameDemod hb (ne_softReset_of_decode hd fun hw => hsoft (by rw [hw])) h
  · exact absurd rfl hdemod
  · exact completeSpec_sameDemod hregs heng
  · exact absurd rfl hreset

/-- Every step but a step of SPEC and a reset leaves a busy SPEC as it is. -/
theorem takeStep_sameSpec {e : Event} {s t : State} (hregs : RegistersLegal s) (hb : s.sp.pending.isSome = true)
    (hspec : e ≠ .spec) (hreset : e ≠ .reset) (hsoft : e ≠ .write cmdOffset 0x00000001)
    (h : takeStep e s = .next t) : SameSpec s t := by
  rcases takeStep_cases h with ⟨off, -, rfl⟩ | ⟨off, v, -, -, rfl⟩ | ⟨w, x, -, -, rfl⟩ | ⟨w, i, rfl, hd, h⟩ |
    ⟨-, rfl⟩ | ⟨rfl, -⟩ | ⟨rfl, -⟩
  · obtain ⟨-, hsp, hmem, -⟩ := hostRead_frame off s
    exact .of_eq (by rw [hsp]) hmem
  · rcases hostWrite_cases off v s with ⟨place, ho, e⟩ | ⟨c, -, e⟩ <;> rw [e]
    · exact writeTarget_sameSpec hb ho
    · exact .raise s c _
  · exact .raise s .illegalCmd w
  · exact exec_sameSpec hb (ne_softReset_of_decode hd fun hw => hsoft (by rw [hw])) h
  · exact completeDemod_sameSpec hregs
  · exact absurd rfl hspec
  · exact absurd rfl hreset

/-! ## A completion after a step of another agent (R206) -/

/-- Settles O32: the step leaves what DEMOD depends on, so its completion after the step is its completion before. -/
theorem busyDemodUndisturbed : Obligations.BusyDemodUndisturbed := by
  intro s t e hregs heng hb hdemod hreset hsoft h
  have hsame := takeStep_sameDemod hregs heng hb hdemod hreset hsoft h
  have hdone := hsame.completeDemod hregs heng
  exact ⟨hsame.engine, hsame.ram, _, _, takeStep_demod s, takeStep_demod t, hdone.engine, hdone.ram⟩

/-- Settles O33: the same of SPEC. -/
theorem busySpecUndisturbed : Obligations.BusySpecUndisturbed := by
  intro s t e hregs heng hb hspec hreset hsoft h
  have hsame := takeStep_sameSpec hregs hb hspec hreset hsoft h
  have hdone := hsame.completeSpec hregs heng
  exact ⟨hsame.engine, hsame.ram, _, _, takeStep_spec s, takeStep_spec t, hdone.engine, hdone.ram⟩

/-! ## The two completions (R208) -/

/-- The engine `d` with the configuration shadows and pending flags of `e`. -/
def Demod.withShadows (d e : Demod) : Demod :=
  { d with
    mod := e.mod, fs := e.fs, tau := e.tau, tune := e.tune, vol := e.vol, amAlpha := e.amAlpha, dirtyMod := e.dirtyMod,
    dirtyFs := e.dirtyFs, dirtyTau := e.dirtyTau, resetPend := e.resetPend }

theorem Demod.withShadows_congr {d e : Demod} (h : e.withoutShadows = d.withoutShadows) (f : Demod) :
    e.withShadows f = d.withShadows f :=
  show e.withoutShadows.withShadows f = d.withoutShadows.withShadows f by rw [h]

theorem completeDemod_shadows (s : State) : (completeDemod s).dm = (completeDemod s).dm.withShadows s.dm := by
  cases hp : s.dm.pending with
  | none => rw [completeDemod_idle hp]; rfl
  | some c =>
    obtain ⟨-, hd, -⟩ := dmRunCompute_frame c s
    rw [completeDemod_busy hp]
    exact congrArg (fun d : Demod => { d with pending := none }) hd

/-- The engine `d` with the configuration shadows and pending flags of `e`. -/
def Spec.withShadows (d e : Spec) : Spec :=
  { d with
    n := e.n, win := e.win, avg := e.avg, ctrl := e.ctrl, phRate := e.phRate, phDt := e.phDt, dcbAlpha := e.dcbAlpha,
    dirtyN := e.dirtyN, dirtyWin := e.dirtyWin, resetPend := e.resetPend }

theorem Spec.withShadows_congr {d e : Spec} (h : e.withoutShadows = d.withoutShadows) (f : Spec) :
    e.withShadows f = d.withShadows f :=
  show e.withoutShadows.withShadows f = d.withoutShadows.withShadows f by rw [h]

theorem completeSpec_shadows (s : State) : (completeSpec s).sp = (completeSpec s).sp.withShadows s.sp := by
  cases hp : s.sp.pending with
  | none => rw [completeSpec_idle hp]; rfl
  | some c =>
    obtain ⟨-, he⟩ := spCompute_frame c s
    rw [completeSpec_busy hp]
    exact congrArg (fun e : Spec => { e with pending := none }) he

/-- No byte is in windows of both engines, so each byte is what the one completion that writes it leaves there. -/
theorem completions_sameRam {s : State} (hregs : RegistersLegal s) (heng : EnginesConsistent s) :
    SameRam (completeSpec (completeDemod s)) (completeDemod (completeSpec s)) := by
  intro a
  obtain ⟨hsp, -⟩ := completeDemod_frame s
  obtain ⟨hdm, -⟩ := completeSpec_frame s
  have hd : inDemodRam a = false → (completeDemod (completeSpec s)).mem.readByte a = (completeSpec s).mem.readByte a :=
    completeDemod_ram (hdm ▸ hregs.demodLatched)
  have hs : inSpecRam a = false → (completeSpec (completeDemod s)).mem.readByte a = (completeDemod s).mem.readByte a :=
    completeSpec_ram (hsp ▸ hregs.specLatched) (hsp ▸ heng.actN_le)
  cases hda : inDemodRam a with
  | true =>
    rw [hs (not_inSpecRam_of_inDemodRam hda)]
    exact ((completeSpec_sameDemod hregs heng).completeDemod hregs heng).ram a hda
  | false =>
    rw [hd hda]
    cases hsa : inSpecRam a with
    | true => exact (((completeDemod_sameSpec hregs).completeSpec hregs heng).ram a hsa).symm
    | false =>
      rw [hs hsa, completeDemod_ram hregs.demodLatched hda, completeSpec_ram hregs.specLatched heng.actN_le hsa]

/-- Settles O31: each completion leaves what the other depends on. -/
theorem completionsCommute : Obligations.CompletionsCommute := by
  intro s hregs heng
  have hsame := completeSpec_sameDemod hregs heng
  have hdemod := hsame.completeDemod hregs heng
  have hspec := (completeDemod_sameSpec hregs).completeSpec hregs heng
  obtain ⟨hDsp, hDdmDone, hDspDone, hDframe, hDirq, hDschedule, hDrdata⟩ := completeDemod_frame s
  obtain ⟨hSdm, hSdmDone, hSspDone, hSframe, hSerr, hSirq, hSschedule, hSrdata⟩ := completeSpec_frame s
  obtain ⟨hDSdm, hDSdmDone, hDSspDone, hDSframe, hDSerr, hDSirq, hDSschedule, hDSrdata⟩ :=
    completeSpec_frame (completeDemod s)
  obtain ⟨hSDsp, hSDdmDone, hSDspDone, hSDframe, hSDirq, hSDschedule, hSDrdata⟩ := completeDemod_frame (completeSpec s)
  have hdmBusy : (completeSpec s).dmBusy = s.dmBusy := by rw [State.dmBusy, hSdm, State.dmBusy]
  have hspBusy : (completeDemod s).spBusy = s.spBusy := by rw [State.spBusy, hDsp, State.spBusy]
  refine ⟨_, _, _, _, takeStep_demod s, takeStep_spec _, takeStep_spec s, takeStep_demod _, ?_, ?_,
    completions_sameRam hregs heng, ⟨?_, ?_, ?_⟩, ?_, ⟨?_, ?_, ?_⟩⟩
  · rw [hDSdm, completeDemod_shadows (completeSpec s), completeDemod_shadows s, hSdm,
      Demod.withShadows_congr hdemod.engine]
  · rw [hSDsp, completeSpec_shadows (completeDemod s), completeSpec_shadows s, hDsp,
      Spec.withShadows_congr hspec.engine]
  · rw [hSDdmDone, hSdmDone, hdmBusy, hDSdmDone, hDdmDone]
  · rw [hSDspDone, hSspDone, hDSspDone, hDspDone, hspBusy]
  · rw [hSDframe, hSframe, hDSframe, hDframe, hDsp]
  · exact hDSerr.symm.trans (hSerr.completeDemod hsame)
  · rw [hSDirq, hSirq, hDSirq, hDirq]
  · rw [hSDschedule, hSschedule, hDSschedule, hDschedule]
  · rw [hSDrdata, hSrdata, hDSrdata, hDrdata]

end Sys2Proof.Machine
end

section
/-! What a reset leaves of every byte of RAM (O8). -/

namespace Sys2Proof.Machine

/-! ## The windows of the three commands that write RAM (R703) -/

/-- No SPEC command writes an output of `DM_RUN` (R111). -/
theorem not_dmRunOutputs {c : SpCmd} {a : Nat} (h : (spOutputs c).any (·.holds a) = true) :
    dmRunOutputs.any (·.holds a) = false := by
  have hspec := not_inDemodRam_of_inSpecRam (spOutputs_inSpecRam h)
  exact Bool.eq_false_iff.mpr fun hd => Bool.eq_false_iff.mp hspec (dmRunOutputs_inDemodRam hd)

/-- The outputs of `SP_PREP` end below those of `SP_POST` (R104). -/
theorem not_spPrepOutputs {a : Nat} (h : spPostOutputs.any (·.holds a) = true) :
    spPrepOutputs.any (·.holds a) = false := by
  rw [← Bool.not_eq_true]
  simp only [spPrepOutputs, spPostOutputs, List.any_cons, List.any_nil, Bool.or_false, Bool.or_eq_true, holds_iff,
    Ram.base, Ram.words, Config.nMax] at h ⊢
  omega

/-! ## An abort (R703) -/

theorem lookup_forget (ws : List Ram) (cells : List Host.Cell) (a : Nat) :
    (forget ws cells).lookup a = if ws.any (·.holds a) then none else cells.lookup a := by
  split
  next h => exact lookup_filter_of_neg (fun k => !ws.any (·.holds k)) cells a (by simpa using h)
  next h => exact lookup_filter_of_pos (fun k => !ws.any (·.holds k)) cells a (by simpa using h)

theorem aborts_abortDm (m : Memory) (a : Nat) :
    (abortDm m).aborts a = if dmRunOutputs.any (·.holds a) then m.aborts a + 1 else m.aborts a := by
  unfold Memory.aborts abortDm
  split <;> rfl

theorem aborts_abortSp (c : SpCmd) (m : Memory) (a : Nat) :
    (abortSp c m).aborts a = if (spOutputs c).any (·.holds a) then m.aborts a + 1 else m.aborts a := by
  cases c with
  | stats => rfl
  | prep l =>
    split
    next h => simp [Memory.aborts, abortSp, not_dmRunOutputs h, show spPrepOutputs.any (·.holds a) = true from h]
    next h => simp [Memory.aborts, abortSp, show ¬ spPrepOutputs.any (·.holds a) = true from h]
  | post l =>
    split
    next h =>
      simp [Memory.aborts, abortSp, not_dmRunOutputs h, not_spPrepOutputs h,
        show spPostOutputs.any (·.holds a) = true from h]
    next h => simp [Memory.aborts, abortSp, show ¬ spPostOutputs.any (·.holds a) = true from h]

/-- An abort draws the outputs of the command afresh and leaves every other byte. -/
theorem readByte_abortDm (m : Memory) (a : Nat) :
    (abortDm m).readByte a =
      if dmRunOutputs.any (·.holds a) then Config.ramDraw (m.aborts a + 1) a else m.readByte a := by
  unfold Memory.readByte
  rw [aborts_abortDm, show (abortDm m).cells = forget dmRunOutputs m.cells from rfl, lookup_forget]
  split <;> rfl

theorem readByte_abortSp (c : SpCmd) (m : Memory) (a : Nat) :
    (abortSp c m).readByte a =
      if (spOutputs c).any (·.holds a) then Config.ramDraw (m.aborts a + 1) a else m.readByte a := by
  have hcells : (abortSp c m).cells.lookup a = if (spOutputs c).any (·.holds a) then none else m.cells.lookup a := by
    cases c with
    | prep l => exact lookup_forget spPrepOutputs m.cells a
    | post l => exact lookup_forget spPostOutputs m.cells a
    | stats => rfl
  unfold Memory.readByte
  rw [aborts_abortSp, hcells]
  split <;> rfl

/-! ## RAM after a reset (R700) -/

/-- A reset aborts a command that could have written the byte. -/
def Aborted (s : State) (a : Nat) : Prop :=
  (s.dm.pending.isSome = true ∧ dmRunOutputs.any (·.holds a) = true) ∨
    ∃ c, s.sp.pending = some c ∧ (spOutputs c).any (·.holds a) = true

theorem aborted_iff (s : State) (a : Nat) :
    Aborted s a ↔
      (s.dm.pending.isSome = true ∧ dmRunOutputs.any (·.holds a) = true) ∨
        ((∃ l, s.sp.pending = some (.prep l)) ∧ spPrepOutputs.any (·.holds a) = true) ∨
        ((∃ l, s.sp.pending = some (.post l)) ∧ spPostOutputs.any (·.holds a) = true) := by
  refine or_congr_right ⟨?_, ?_⟩
  · rintro ⟨c, hp, hc⟩
    cases c with
    | prep l => exact Or.inl ⟨⟨l, hp⟩, hc⟩
    | post l => exact Or.inr ⟨⟨l, hp⟩, hc⟩
    | stats => cases hc
  · rintro (⟨⟨l, hp⟩, hc⟩ | ⟨⟨l, hp⟩, hc⟩)
    · exact ⟨_, hp, hc⟩
    · exact ⟨_, hp, hc⟩

/-- RAM after the abort of DEMOD, if any: the first half of a reset. -/
def memAfterDm (s : State) : Memory := if s.dm.pending.isSome then abortDm s.mem else s.mem

theorem memAfterReset_idle {s : State} (h : s.sp.pending = none) : memAfterReset s = memAfterDm s := by
  unfold memAfterReset
  rw [h]
  rfl

theorem memAfterReset_busy {s : State} {c : SpCmd} (h : s.sp.pending = some c) :
    memAfterReset s = abortSp c (memAfterDm s) := by
  unfold memAfterReset
  rw [h]
  rfl

theorem aborts_memAfterDm {s : State} {a : Nat} (h : dmRunOutputs.any (·.holds a) = false) :
    (memAfterDm s).aborts a = s.mem.aborts a := by
  unfold memAfterDm
  split
  · rw [aborts_abortDm, h]
    rfl
  · rfl

theorem readByte_memAfterDm (s : State) (a : Nat) :
    (memAfterDm s).readByte a =
      if s.dm.pending.isSome = true ∧ dmRunOutputs.any (·.holds a) = true then Config.ramDraw (s.mem.aborts a + 1) a
      else s.mem.readByte a := by
  unfold memAfterDm
  split
  next h => simp only [readByte_abortDm, h, true_and]
  next h => rw [if_neg fun ⟨hp, _⟩ => h hp]

/-- A byte that the abort of SPEC, if any, does not reach is what the abort of DEMOD left. -/
theorem readByte_memAfterReset_of_not_spec {s : State} {a : Nat}
    (h : ¬ ∃ c, s.sp.pending = some c ∧ (spOutputs c).any (·.holds a) = true) :
    (memAfterReset s).readByte a = (memAfterDm s).readByte a := by
  cases hp : s.sp.pending with
  | none => rw [memAfterReset_idle hp]
  | some c => rw [memAfterReset_busy hp, readByte_abortSp, if_neg fun hc => h ⟨c, hp, hc⟩]

/-- The byte is drawn afresh exactly if it could have been written by an aborted command; the windows of the two engines
are apart, so it is drawn once. -/
theorem readByte_memAfterReset (s : State) (a : Nat) :
    (Aborted s a → (memAfterReset s).readByte a = Config.ramDraw (s.mem.aborts a + 1) a) ∧
      (¬ Aborted s a → (memAfterReset s).readByte a = s.mem.readByte a) := by
  by_cases hsp : ∃ c, s.sp.pending = some c ∧ (spOutputs c).any (·.holds a) = true
  · refine ⟨fun _ => ?_, fun h => absurd (Or.inr hsp) h⟩
    obtain ⟨c, hp, hc⟩ := hsp
    rw [memAfterReset_busy hp, readByte_abortSp, if_pos hc, aborts_memAfterDm (not_dmRunOutputs hc)]
  · rw [Aborted, or_iff_left hsp, readByte_memAfterReset_of_not_spec hsp, readByte_memAfterDm]
    exact ⟨fun h => if_pos h, fun h => if_neg h⟩

/-! ## The registers after a reset (R35, R46, R55, R610) -/

theorem statusWord_resetBlock (s : State) : statusWord (resetBlock s) = 0 :=
  show statusWord State.reset = 0 by decide

/-- Settles O8: the registers are those of the reset state, the bytes what the aborts left. -/
theorem softResetResets : Obligations.SoftResetResets := by
  intro s
  refine ⟨resetBlock s, rfl, takeStep_reset s, rfl, rfl, statusWord_resetBlock s, rfl, rfl, rfl, rfl,
    show dmPendWord Demod.reset = 0x7 by decide, show spPendWord Spec.reset = 0x3 by decide, rfl, rfl, rfl, fun a => ?_⟩
  dsimp only
  rw [← aborted_iff]
  exact readByte_memAfterReset s a

end Sys2Proof.Machine
end

section
/-! The scheduled steps are taken and the busy engines then complete (O34). -/

namespace Sys2Proof.Machine

/-! ## The scheduled steps (R200) -/

theorem exec_schedule (i : Instr) (s : State) : ∃ t, exec i s = .next t ∧ t.schedule = s.schedule := by
  cases i with
  | nop => exact ⟨_, rfl, rfl⟩
  | softReset => exact ⟨_, rfl, rfl⟩
  | dmReset => exact ⟨_, rfl, rfl⟩
  | spReset => exact ⟨_, rfl, rfl⟩
  | dmRun n =>
    rcases exec_dmRun_cases n s with ⟨-, e⟩ | ⟨-, -, e⟩ | ⟨-, -, e⟩
    · exact ⟨_, e, raise_schedule ..⟩
    · exact ⟨_, e, raise_schedule ..⟩
    · exact ⟨_, e, rfl⟩
  | spPrep =>
    rcases exec_spPrep_cases s with ⟨-, e⟩ | ⟨-, e⟩
    · exact ⟨_, e, raise_schedule ..⟩
    · exact ⟨_, e, rfl⟩
  | spPost =>
    rcases exec_spPost_cases s with ⟨-, e⟩ | ⟨-, -, e⟩ | ⟨-, -, e⟩
    · exact ⟨_, e, raise_schedule ..⟩
    · exact ⟨_, e, raise_schedule ..⟩
    · exact ⟨_, e, rfl⟩
  | spStats =>
    rcases exec_spStats_cases s with ⟨-, e⟩ | ⟨-, -, e⟩ | ⟨-, -, e⟩
    · exact ⟨_, e, raise_schedule ..⟩
    · exact ⟨_, e, raise_schedule ..⟩
    · exact ⟨_, e, rfl⟩

theorem takeStep_schedule (e : Event) (s : State) : ∃ t, takeStep e s = .next t ∧ t.schedule = s.schedule := by
  cases e with
  | read off =>
    obtain ⟨-, -, -, -, -, hschedule⟩ := hostRead_frame off s
    exact ⟨_, takeStep_read off s, hschedule⟩
  | demod =>
    obtain ⟨-, -, -, -, -, hschedule, -⟩ := completeDemod_frame s
    exact ⟨_, takeStep_demod s, hschedule⟩
  | spec =>
    obtain ⟨-, -, -, -, -, -, hschedule, -⟩ := completeSpec_frame s
    exact ⟨_, takeStep_spec s, hschedule⟩
  | reset => exact ⟨_, takeStep_reset s, rfl⟩
  | write off v =>
    by_cases ho : off = cmdOffset
    · subst ho
      cases hd : decode v with
      | ok i =>
        rw [takeStep_command hd]
        exact exec_schedule i s
      | error x => exact ⟨_, takeStep_illegal hd s, raise_schedule ..⟩
    · refine ⟨_, takeStep_write ho v s, ?_⟩
      rcases hostWrite_cases off v s with ⟨place, -, e⟩ | ⟨c, -, e⟩ <;> rw [e]
      · exact writeTarget_schedule place v s
      · exact raise_schedule ..

/-- A step takes one entry off the schedule, and answers a next state. -/
theorem step_takes_entry {s : State} {e : Event} {rest : List Event} (h : s.schedule = e :: rest) :
    ∃ t, step s = .next t ∧ t.schedule = rest := by
  rw [step_scheduled h]
  exact takeStep_schedule e (s.setSchedule rest)

/-! ## The completions (R207) -/

theorem completeDemod_pending (s : State) : (completeDemod s).dm.pending = none := by
  cases hp : s.dm.pending with
  | none => rw [completeDemod_idle hp, hp]
  | some c => rw [completeDemod_busy hp]; rfl

theorem completeSpec_pending (s : State) : (completeSpec s).sp.pending = none := by
  cases hp : s.sp.pending with
  | none => rw [completeSpec_idle hp, hp]
  | some c => rw [completeSpec_busy hp]; rfl

/-- What the machine does with nothing scheduled (log 2). -/
theorem step_unscheduled {s : State} (h : s.schedule = []) : step s = .next (drain s) := by
  unfold step
  rw [h]

/-- Nothing is scheduled, both engines are idle, and no step changes anything. -/
structure AtRest (t : State) : Prop where
  schedule : t.schedule = []
  demod : t.dm.pending = none
  spec : t.sp.pending = none
  rests : step t = .next t

theorem atRest_of_idle {s : State} (h : s.schedule = []) (hd : s.dm.pending = none) (he : s.sp.pending = none) :
    AtRest s where
  schedule := h
  demod := hd
  spec := he
  rests := by
    rw [step_unscheduled h]
    simp [drain, State.dmBusy, State.spBusy, hd, he]

/-- Within `k` steps the machine comes to rest. -/
def ComesToRest (k : Nat) (s : State) : Prop :=
  ∃ j t, j ≤ k ∧ Host.Core.run Sys2Proof.core j s = .next t ∧ AtRest t

theorem run_succ {M : Host.Core} {s t : M.State} (h : M.step s = .next t) (k : Nat) : M.run (k + 1) s = M.run k t := by
  rw [Host.Core.run, h]

theorem ComesToRest.of_step {k : Nat} {s t : State} (h : step s = .next t) (ht : ComesToRest k t) :
    ComesToRest (k + 1) s := by
  obtain ⟨j, u, hj, hrun, hu⟩ := ht
  exact ⟨j + 1, u, by omega, (run_succ (M := Sys2Proof.core) h j).trans hrun, hu⟩

theorem comesToRest_of_demod_idle {s : State} (h : s.schedule = []) (hd : s.dm.pending = none) : ComesToRest 1 s := by
  rcases spBusy_cases s with ⟨-, hb⟩ | ⟨hp, -⟩
  · have hstep : step s = .next (completeSpec s) := by
      rw [step_unscheduled h]
      simp [drain, State.dmBusy, hd, hb]
    obtain ⟨hdm, -, -, -, -, -, hschedule, -⟩ := completeSpec_frame s
    exact .of_step hstep ⟨0, _, le_refl 0, rfl,
      atRest_of_idle (hschedule.trans h) (hdm ▸ hd) (completeSpec_pending s)⟩
  · exact ⟨0, s, by omega, rfl, atRest_of_idle h hd hp⟩

theorem comesToRest_of_unscheduled {s : State} (h : s.schedule = []) : ComesToRest 2 s := by
  rcases dmBusy_cases s with ⟨-, hb⟩ | ⟨hp, -⟩
  · have hstep : step s = .next (completeDemod s) := by
      rw [step_unscheduled h]
      simp [drain, hb]
    obtain ⟨-, -, -, -, -, hschedule, -⟩ := completeDemod_frame s
    exact .of_step hstep (comesToRest_of_demod_idle (hschedule.trans h) (completeDemod_pending s))
  · obtain ⟨j, t, hj, ht⟩ := comesToRest_of_demod_idle h hp
    exact ⟨j, t, by omega, ht⟩

theorem comesToRest_of_schedule {l : List Event} {s : State} (h : s.schedule = l) : ComesToRest (l.length + 2) s := by
  induction l generalizing s with
  | nil => exact comesToRest_of_unscheduled h
  | cons e rest ih =>
    obtain ⟨t, hstep, ht⟩ := step_takes_entry h
    exact .of_step hstep (ih ht)

/-- Settles O34: by induction on the schedule; when it is empty DEMOD completes and then SPEC. -/
theorem enginesComplete : Obligations.EnginesComplete := by
  intro s
  obtain ⟨k, t, hk, hrun, ht⟩ := comesToRest_of_schedule (s := s) rfl
  exact ⟨k, t, hk, hrun, ht.schedule, ht.demod, ht.spec, ht.rests⟩

end Sys2Proof.Machine
end

section
/-! Each arithmetic operation is the exact result rounded once to nearest, ties to even (O50). -/

namespace Sys2Proof.Machine

/-! ## The nearest magnitude (R251) -/

/-- The distance from `num / den` units to the magnitude bits `m`, times `den`. -/
def gap (num den m : Nat) : Nat := ((num : Int) - (unitsOfMag m * den : Nat)).natAbs

/-- No integer is nearer to `num / den` than the rounded one, which is even when another is as near. -/
theorem nearestEven_nearest (num j : Nat) {den : Nat} (hd : 0 < den) :
    ((num : Int) - (nearestEven num den * den : Nat)).natAbs ≤ ((num : Int) - (j * den : Nat)).natAbs ∧
      (((num : Int) - (nearestEven num den * den : Nat)).natAbs = ((num : Int) - (j * den : Nat)).natAbs →
        j = nearestEven num den ∨ nearestEven num den % 2 = 0) := by
  have hlt := Nat.mod_lt num hd
  have hdiv := Nat.div_add_mod num den
  unfold nearestEven
  generalize num % den = s at *
  generalize num / den = q at *
  have hbelow : j < q → j * den + den ≤ q * den := fun h => by nlinarith
  have hnext : (q + 1) * den = q * den + den := by ring
  have habove : q + 1 < j → q * den + 2 * den ≤ j * den := fun h => by nlinarith
  have hq : den * q = q * den := Nat.mul_comm _ _
  rcases lt_trichotomy j q with hj | rfl | hj
  · have := hbelow hj
    split <;> omega
  · split <;> omega
  · rcases Nat.lt_or_ge (q + 1) j with hj' | hj'
    · have := habove hj'
      split <;> omega
    · obtain rfl : j = q + 1 := by omega
      split <;> omega

/-- A magnitude is a multiple of the spacing `2^e`, or below the binade of that spacing. -/
theorem unitsOfMag_dvd_or_lt (m e : Nat) : 2 ^ e ∣ unitsOfMag m ∨ (0 < e ∧ unitsOfMag m < 2 ^ 23 * 2 ^ e) := by
  obtain ⟨f, k, -, hk, -, hu⟩ := magnitude_cases m
  rcases Nat.lt_or_ge f e with h | h
  · refine Or.inr ⟨by omega, ?_⟩
    calc unitsOfMag m = k * 2 ^ f := hu
      _ < 2 ^ 24 * 2 ^ f := Nat.mul_lt_mul_of_pos_right hk (Nat.two_pow_pos f)
      _ = 2 ^ 23 * 2 ^ (f + 1) := by ring
      _ ≤ 2 ^ 23 * 2 ^ e := Nat.mul_le_mul_left _ (Nat.pow_le_pow_right (by decide) h)
  · exact Or.inl (hu ▸ Dvd.dvd.mul_left (pow_dvd_pow 2 h) k)

/-- No magnitude is nearer to `num / den` units than the rounded one; one as near lies on the same spacing, and then the
rounded one is it or even. -/
theorem roundMag_nearest (num m : Nat) {den : Nat} (hd : 0 < den) :
    gap num den (roundMag num den) ≤ gap num den m ∧
      (gap num den (roundMag num den) = gap num den m →
        2 ^ shiftOf num den ∣ unitsOfMag m ∧
          (unitsOfMag m = unitsOfMag (roundMag num den) ∨ roundMag num den % 2 = 0)) := by
  have hD : 0 < den * 2 ^ shiftOf num den := Nat.mul_pos hd (Nat.two_pow_pos _)
  have hscale : ∀ j, j * 2 ^ shiftOf num den * den = j * (den * 2 ^ shiftOf num den) := fun j => by ring
  have hpar : roundMag num den % 2 = nearestEven num (den * 2 ^ shiftOf num den) % 2 := by unfold roundMag; omega
  unfold gap
  rw [unitsOfMag_roundMag num den hd, hpar, hscale]
  rcases unitsOfMag_dvd_or_lt m (shiftOf num den) with ⟨j, hj⟩ | ⟨hpos, hlow⟩
  · obtain ⟨hle, heq⟩ := nearestEven_nearest num j hD
    rw [hj, Nat.mul_comm (2 ^ shiftOf num den) j, hscale]
    exact ⟨hle, fun h => ⟨Dvd.intro_left _ rfl, (heq h).imp_left fun hk => by rw [hk]⟩⟩
  · obtain ⟨hle, -⟩ := nearestEven_nearest num (2 ^ 23) hD
    obtain ⟨hbin, -⟩ := shiftOf_spec num den hpos
    have hnum : 2 ^ 23 * (den * 2 ^ shiftOf num den) ≤ num := by
      rw [← hscale]
      exact (Nat.le_div_iff_mul_le hd).mp hbin
    have hm : unitsOfMag m * den < 2 ^ 23 * (den * 2 ^ shiftOf num den) := by
      rw [← hscale]
      exact Nat.mul_lt_mul_of_pos_right hlow hd
    omega

/-! ## Overflow (R254) -/

theorem unitsOfMag_infinite : unitsOfMag 0x7F800000 = 2 ^ 24 * 2 ^ 253 := by decide

theorem unitsOfMag_maxFinite : unitsOfMag 0x7F7FFFFF = (2 ^ 24 - 1) * 2 ^ 253 := by decide

/-- Half way from the largest finite value to 2^128, a magnitude rounds to infinity, and not below. -/
theorem overflow_iff (num : Nat) {den : Nat} (hd : 0 < den) :
    0x7F800000 ≤ roundMag num den ↔ overflowUnits * den ≤ num := by
  constructor
  · intro h
    have hr : 2 ^ 24 * 2 ^ 253 * den ≤ unitsOfMag (roundMag num den) * den :=
      Nat.mul_le_mul_right _ (unitsOfMag_infinite ▸ (unitsOfMag_le_iff _ _).mpr h)
    obtain ⟨hle, -⟩ := roundMag_nearest num 0x7F7FFFFF hd
    unfold gap at hle
    rw [unitsOfMag_maxFinite] at hle
    unfold overflowUnits
    omega
  · intro h
    have hm := roundMag_mono overflowUnits 1 num den Nat.one_pos hd (by rwa [Nat.mul_one])
    rwa [show roundMag overflowUnits 1 = 0x7F800000 by decide +kernel] at hm

/-! ## Rounding with a sign (R251, R254) -/

@[simp] theorem isFinite_fneg (a : F32) : isFinite (fneg a) = isFinite a := by simp [isFinite]
@[simp] theorem isNaN_fneg (a : F32) : isNaN (fneg a) = isNaN a := by simp [isNaN]
@[simp] theorem isInf_fneg (a : F32) : isInf (fneg a) = isInf a := by simp [isInf]
@[simp] theorem isZero_fneg (a : F32) : isZero (fneg a) = isZero a := by simp [isZero]

@[simp] theorem fneg_fneg (a : F32) : fneg (fneg a) = a := by
  unfold fneg
  rw [BitVec.xor_assoc, BitVec.xor_self, BitVec.xor_zero]

theorem magBits_roundUnits (neg : Bool) (num den : Nat) :
    magBits (roundUnits neg num den) = min (roundMag num den) 0x7F800000 := magBits_pack _ _

@[simp] theorem signBit_roundUnits (neg : Bool) (num den : Nat) : signBit (roundUnits neg num den) = neg :=
  signBit_pack _ _

theorem isFinite_roundUnits_iff (neg : Bool) (num : Nat) {den : Nat} (hd : 0 < den) :
    isFinite (roundUnits neg num den) = true ↔ num < overflowUnits * den := by
  have h := overflow_iff num hd
  rw [isFinite, decide_eq_true_eq, magBits_roundUnits]
  omega

/-- A value is at least as far from a signed quotient as its magnitude is from the quotient's. -/
theorem gap_le_natAbs_sub (num : Int) (den : Nat) (f : F32) :
    gap num.natAbs den (magBits f) ≤ (num - value f * den).natAbs := by
  have hf : ((unitsOfMag (magBits f) * den : Nat) : Int) = units f * den := by push_cast; rfl
  unfold gap
  rw [hf]
  have : (0 : Int) ≤ units f * den := by positivity
  unfold value
  split
  · rw [Int.neg_mul]
    omega
  · omega

/-- Where the signs agree the distance is that of the magnitudes. -/
theorem natAbs_sub_eq_gap {num : Int} {f : F32} (den : Nat) (h : num = 0 ∨ signBit f = decide (num < 0)) :
    (num - value f * den).natAbs = gap num.natAbs den (magBits f) := by
  have hf : ((unitsOfMag (magBits f) * den : Nat) : Int) = units f * den := by push_cast; rfl
  unfold gap value
  rw [hf]
  rcases h with rfl | hs
  · split <;> simp
  · by_cases hn : num < 0
    · rw [hs, decide_eq_true hn, if_pos rfl, Int.neg_mul]
      omega
    · rw [hs, decide_eq_false hn, if_neg (by decide)]
      omega

theorem roundMag_zero {den : Nat} (hd : 0 < den) : roundMag 0 den = 0 := by
  simpa [unitsOfMag] using roundMag_exact 0 den hd

theorem pack_infinite (neg : Bool) {m : Nat} (h : 0x7F800000 ≤ m) :
    pack neg m = if neg then fneg posInf else posInf := by
  rw [pack, Nat.min_eq_right h]
  cases neg <;> decide

/-- A finite pattern is even as its magnitude bits are. -/
theorem pack_even (neg : Bool) {m : Nat} (h : m < 0x7F800000) (heven : m % 2 = 0) : (pack neg m).toNat % 2 = 0 := by
  rw [pack_toNat]
  split <;> omega

theorem unitsOfMag_zero : unitsOfMag 0 = 0 := by decide

/-- Equal magnitudes at equal distances from a quotient are equal values, where the magnitude of a zero quotient is 0. -/
theorem value_eq_of_units_eq {num : Int} {den : Nat} (hd : 0 < den) {f r : F32} (hu : units f = units r)
    (h : (num - value r * den).natAbs = (num - value f * den).natAbs) (hz : num = 0 → units r = 0) :
    value f = value r := by
  have hf := natAbs_value f
  have hr := natAbs_value r
  rcases Int.natAbs_eq_natAbs_iff.mp (hf.trans (hu.trans hr.symm)) with he | he
  · exact he
  · by_cases hn : num = 0
    · have := hz hn
      omega
    · rw [he, Int.neg_mul] at h
      have : value r * den = 0 := by omega
      rcases Int.mul_eq_zero.mp this <;> omega

/-- A signed quotient of units, rounded: nearest, ties to even, infinite from the overflow threshold on (R251, R252,
R254). The sign of a zero is free. -/
theorem roundUnits_roundsTo (num : Int) {den : Nat} (hd : 0 < den) {neg : Bool}
    (hneg : num = 0 ∨ neg = decide (num < 0)) : RoundsTo num den (roundUnits neg num.natAbs den) := by
  unfold RoundsTo
  split
  · rename_i hover
    have hpos : 0 < overflowUnits * den := Nat.mul_pos (by decide) hd
    obtain rfl : neg = decide (num < 0) := hneg.resolve_left (by omega)
    rw [roundUnits, pack_infinite _ ((overflow_iff _ hd).mpr hover)]
    simp
  · rename_i hover
    have hfin := (isFinite_roundUnits_iff neg num.natAbs hd).mpr (by omega)
    have hmag : magBits (roundUnits neg num.natAbs den) = roundMag num.natAbs den := by
      have := overflow_iff num.natAbs hd
      rw [magBits_roundUnits]
      omega
    refine ⟨hfin, fun f _ => ?_⟩
    have hr := natAbs_sub_eq_gap (num := num) (f := roundUnits neg num.natAbs den) den (by simpa using hneg)
    have hf := gap_le_natAbs_sub num den f
    obtain ⟨hle, htie⟩ := roundMag_nearest num.natAbs (magBits f) hd
    rw [hmag] at hr
    refine ⟨by omega, fun heq => ?_⟩
    rcases (htie (by omega)).2 with hu | heven
    · refine Or.inl (value_eq_of_units_eq hd ?_ heq fun hz => ?_)
      · rw [units, units, hmag, hu]
      · rw [units, hmag, hz, Int.natAbs_zero, roundMag_zero hd, unitsOfMag_zero]
    · exact Or.inr (pack_even neg (Nat.lt_of_not_le ((overflow_iff _ hd).not.mpr hover)) heven)

/-- A quotient given by its sign and magnitude, rounded. -/
theorem roundsTo_signed (neg : Bool) (num : Nat) {den : Nat} (hd : 0 < den) :
    RoundsTo (if neg then -(num : Int) else num) den (roundUnits neg num den) := by
  have h := roundUnits_roundsTo (if neg then -(num : Int) else num) (neg := neg) hd
    (by cases neg
        · exact Or.inr (by simp)
        · rcases Nat.eq_zero_or_pos num with rfl | hn
          · exact Or.inl rfl
          · exact Or.inr (by simp [hn]))
  rwa [show (if neg then -(num : Int) else num).natAbs = num by cases neg <;> simp] at h

/-! ## The four operations on finite values (R251, R255) -/

theorem fadd_eq_roundUnits {a b : F32} (ha : isFinite a = true) (hb : isFinite b = true) :
    fadd a b = roundUnits (if value a + value b = 0 then signBit a && signBit b else decide (value a + value b < 0))
      (value a + value b).natAbs 1 := by
  unfold fadd
  simp only [isNaN_of_isFinite ha, isNaN_of_isFinite hb, isInf_of_isFinite ha, isInf_of_isFinite hb, Bool.or_self,
    Bool.false_eq_true, if_false]
  by_cases hz : value a + value b = 0
  · rw [if_pos hz, if_pos hz, hz]
    cases signBit a && signBit b <;> decide
  · rw [if_neg hz, if_neg hz]

theorem fmul_eq_roundUnits {a b : F32} (ha : isFinite a = true) (hb : isFinite b = true) :
    fmul a b = roundUnits (signBit a != signBit b) (units a * units b) (2 ^ 149) := by
  unfold fmul
  simp only [isNaN_of_isFinite ha, isNaN_of_isFinite hb, isInf_of_isFinite ha, isInf_of_isFinite hb, Bool.or_self,
    Bool.false_eq_true, if_false]

theorem fdiv_eq_roundUnits {a b : F32} (ha : isFinite a = true) (hb : isFinite b = true) (hz : isZero b = false) :
    fdiv a b = roundUnits (signBit a != signBit b) (units a * 2 ^ 149) (units b) := by
  unfold fdiv
  simp only [isNaN_of_isFinite ha, isNaN_of_isFinite hb, isInf_of_isFinite ha, isInf_of_isFinite hb, hz, Bool.or_self,
    Bool.false_eq_true, if_false]

theorem units_eq_zero_iff (a : F32) : units a = 0 ↔ isZero a = true := by
  have h := units_le_iff a posZero
  rw [show units posZero = 0 by decide, show magBits posZero = 0 by decide] at h
  rw [isZero, decide_eq_true_eq]
  omega

theorem units_pos {a : F32} (h : isZero a = false) : 0 < units a :=
  Nat.pos_of_ne_zero fun h0 => by simp [(units_eq_zero_iff a).mp h0] at h

theorem fadd_roundsTo {a b : F32} (ha : isFinite a = true) (hb : isFinite b = true) :
    RoundsTo (value a + value b) 1 (fadd a b) := by
  rw [fadd_eq_roundUnits ha hb]
  refine roundUnits_roundsTo _ Nat.one_pos ?_
  by_cases hz : value a + value b = 0
  · exact Or.inl hz
  · exact Or.inr (if_neg hz)

theorem fmul_roundsTo {a b : F32} (ha : isFinite a = true) (hb : isFinite b = true) :
    RoundsTo (value a * value b) (2 ^ 149) (fmul a b) := by
  rw [fmul_eq_roundUnits ha hb]
  have hv : value a * value b =
      if signBit a != signBit b then -((units a * units b : Nat) : Int) else (units a * units b : Nat) := by
    unfold value
    cases signBit a <;> cases signBit b <;> simp
  rw [hv]
  exact roundsTo_signed _ _ (Nat.two_pow_pos _)

theorem fdiv_roundsTo {a b : F32} (ha : isFinite a = true) (hb : isFinite b = true) (hz : isZero b = false) :
    RoundsTo (if signBit b then -(value a * 2 ^ 149) else value a * 2 ^ 149) (units b) (fdiv a b) := by
  rw [fdiv_eq_roundUnits ha hb hz]
  have hv : (if signBit b then -(value a * 2 ^ 149) else value a * 2 ^ 149) =
      if signBit a != signBit b then -((units a * 2 ^ 149 : Nat) : Int) else (units a * 2 ^ 149 : Nat) := by
    unfold value
    cases signBit a <;> cases signBit b <;> simp
  rw [hv]
  exact roundsTo_signed _ _ (units_pos hz)

/-- A count of units, not 0, does not round to zero. -/
theorem units_roundUnits_pos (neg : Bool) {n : Nat} (h : 0 < n) : 0 < units (roundUnits neg n 1) := by
  have hone : units 1 = 1 := by decide
  have hle : units 1 ≤ units (roundUnits neg n 1) := le_units_roundUnits neg Nat.one_pos (by decide) (by omega)
  omega

/-- A sum is zero only exactly, never by rounding, so it has the sign of a zero sum (R255). -/
theorem signBit_fadd_of_isZero {a b : F32} (ha : isFinite a = true) (hb : isFinite b = true)
    (h : isZero (fadd a b) = true) : signBit (fadd a b) = (signBit a && signBit b) := by
  rw [fadd_eq_roundUnits ha hb] at h ⊢
  have hz : value a + value b = 0 := by
    by_contra hne
    exact (units_roundUnits_pos _ (Int.natAbs_pos.mpr hne)).ne' ((units_eq_zero_iff _).mpr h)
  rw [signBit_roundUnits, if_pos hz]

/-! ## Signs of products and quotients (R254, R255) -/

/-- A product is NaN or has the XOR of the signs. -/
theorem fmul_cases (a b : F32) : fmul a b = qNaN ∨ ∃ m, fmul a b = pack (signBit a != signBit b) m := by
  unfold fmul
  split
  · exact Or.inl rfl
  · split
    · split
      · exact Or.inl rfl
      · exact Or.inr ⟨_, rfl⟩
    · exact Or.inr ⟨_, rfl⟩

/-- A quotient is NaN or has the XOR of the signs. -/
theorem fdiv_cases (a b : F32) : fdiv a b = qNaN ∨ ∃ m, fdiv a b = pack (signBit a != signBit b) m := by
  unfold fdiv
  split
  · exact Or.inl rfl
  · split
    · split
      · exact Or.inl rfl
      · exact Or.inr ⟨_, rfl⟩
    · split
      · exact Or.inr ⟨_, rfl⟩
      · split
        · split
          · exact Or.inl rfl
          · exact Or.inr ⟨_, rfl⟩
        · exact Or.inr ⟨_, rfl⟩

theorem isNaN_qNaN : isNaN qNaN = true := by decide

theorem signBit_of_nan_or_pack {v : F32} {neg : Bool} (h : v = qNaN ∨ ∃ m, v = pack neg m) (hn : isNaN v = false) :
    signBit v = neg := by
  rcases h with rfl | ⟨m, rfl⟩
  · exact absurd isNaN_qNaN (by simp [hn])
  · exact signBit_pack neg m

/-! ## Infinite operands (R251, R254) -/

theorem isNaN_of_isInf {a : F32} (h : isInf a = true) : isNaN a = false := by
  rcases class_cases a with ⟨-, hi, hn⟩ | ⟨-, hi, hn⟩ | ⟨-, hi, hn⟩
  · exact hn
  · exact hn
  · simp [hi] at h

theorem isZero_of_isInf {a : F32} (h : isInf a = true) : isZero a = false := by
  simp only [isInf, decide_eq_true_eq] at h
  simp [isZero, h]

theorem fadd_isInf_self {a : F32} (h : isInf a = true) : fadd a a = a := by
  simp [fadd, isNaN_of_isInf h, h]

theorem fadd_isInf_left {a b : F32} (ha : isInf a = true) (hb : isFinite b = true) : fadd a b = a := by
  simp [fadd, isNaN_of_isInf ha, ha, isNaN_of_isFinite hb, isInf_of_isFinite hb]

theorem fadd_isInf_right {a b : F32} (ha : isInf a = true) (hb : isFinite b = true) : fadd b a = a := by
  simp [fadd, isNaN_of_isInf ha, ha, isNaN_of_isFinite hb, isInf_of_isFinite hb]

theorem isInf_pack_infinite (neg : Bool) : isInf (pack neg 0x7F800000) = true := by simp [isInf]

theorem isZero_pack_zero (neg : Bool) : isZero (pack neg 0) = true := by simp [isZero]

theorem isInf_fdiv_of_isInf {a b : F32} (ha : isInf a = true) (hb : isFinite b = true) : isInf (fdiv a b) = true := by
  simp [fdiv, isNaN_of_isInf ha, ha, isNaN_of_isFinite hb, isInf_of_isFinite hb, isInf_pack_infinite]

theorem isZero_fdiv_of_isInf {a b : F32} (ha : isInf a = true) (hb : isFinite b = true) : isZero (fdiv b a) = true := by
  simp [fdiv, isNaN_of_isInf ha, ha, isNaN_of_isFinite hb, isInf_of_isFinite hb, isZero_pack_zero]

theorem isInf_fmul_of_isInf {a b : F32} (ha : isInf a = true) (hb : isNaN b = false) (hz : isZero b = false) :
    isInf (fmul a b) = true ∧ isInf (fmul b a) = true := by
  simp [fmul, isNaN_of_isInf ha, ha, hb, hz, isZero_of_isInf ha, isInf_pack_infinite]

theorem isInf_fdiv_of_isZero {a b : F32} (ha : isFinite a = true) (hb : isFinite b = true) (hza : isZero a = false)
    (hzb : isZero b = true) : isInf (fdiv a b) = true := by
  simp [fdiv, isNaN_of_isFinite ha, isInf_of_isFinite ha, isNaN_of_isFinite hb, isInf_of_isFinite hb, hza, hzb,
    isInf_pack_infinite]

/-- Settles O50: on finite operands each operation is one rounding of the exact result; on the others it is read off its
cases. -/
theorem arithmeticRoundsToNearest : Obligations.ArithmeticRoundsToNearest := by
  refine ⟨fun a b ha hb => ?_, fun a b => ?_, fun a b ha => ?_⟩
  · have hnb : isFinite (fneg b) = true := by simpa using hb
    refine ⟨fadd_roundsTo ha hb, ?_, fmul_roundsTo ha hb, fdiv_roundsTo ha hb, isInf_fdiv_of_isZero ha hb,
      signBit_fadd_of_isZero ha hb, fun hz => ?_⟩
    · simpa [fsub, Int.sub_eq_add_neg] using fadd_roundsTo ha hnb
    · simpa [fsub] using signBit_fadd_of_isZero ha hnb hz
  · exact ⟨signBit_of_nan_or_pack (fmul_cases a b), signBit_of_nan_or_pack (fdiv_cases a b)⟩
  · refine ⟨fadd_isInf_self ha, by rw [fsub, fneg_fneg, fadd_isInf_self ha], fun hb => ?_, isInf_fmul_of_isInf ha⟩
    have hnb : isFinite (fneg b) = true := by simpa using hb
    have hna : isInf (fneg a) = true := by simpa using ha
    exact ⟨fadd_isInf_left ha hb, fadd_isInf_right ha hb, fadd_isInf_left ha hnb, fadd_isInf_right hna hb,
      isInf_fdiv_of_isInf ha hb, isZero_fdiv_of_isInf ha hb⟩

end Sys2Proof.Machine
end

section
/-! The square root is a nearest value to the exact root (O51). -/

namespace Sys2Proof.Machine

/-- What `fsqrt` rounds: twice the root of `x` with a sticky half, over 2. -/
def twiceRoot (x : Nat) : Nat := 2 * isqrt x + (if isqrt x * isqrt x = x then 0 else 1)

theorem fsqrt_positive {a : F32} (ha : isFinite a = true) (hz : isZero a = false) (hs : signBit a = false) :
    fsqrt a = roundUnits false (twiceRoot (units a * 2 ^ 149)) 2 := by
  simp only [fsqrt, isNaN_of_isFinite ha, hz, hs, isInf_of_isFinite ha, Bool.false_eq_true, if_false, twiceRoot]

/-- An integer on one side of `twiceRoot` is on that side of twice the exact root, one at `twiceRoot` if it is even. -/
theorem twiceRoot_le {x m : Nat} (h : twiceRoot x ≤ m) (hne : twiceRoot x = m → m % 2 = 0) : 4 * x ≤ m ^ 2 := by
  obtain ⟨-, hu⟩ := isqrt_spec x
  unfold twiceRoot at h hne
  split at h
  · rename_i hexact
    rw [← hexact]
    nlinarith
  · rename_i hexact
    rw [if_neg hexact] at hne
    have : 2 * (isqrt x + 1) ≤ m := by omega
    nlinarith

theorem le_twiceRoot {x m : Nat} (h : m ≤ twiceRoot x) (hne : m = twiceRoot x → m % 2 = 0) : m ^ 2 ≤ 4 * x := by
  obtain ⟨hl, -⟩ := isqrt_spec x
  have : m ≤ 2 * isqrt x := by
    unfold twiceRoot at h hne
    split at h
    · omega
    · rename_i hexact
      rw [if_neg hexact] at hne
      omega
  nlinarith

/-- The root of a positive value is so large in units that rounding drops a bit at least. -/
theorem two_pow_le_isqrt {u : Nat} (hu : 0 < u) : 2 ^ 74 ≤ isqrt (u * 2 ^ 149) := by
  obtain ⟨-, h⟩ := isqrt_spec (u * 2 ^ 149)
  generalize isqrt (u * 2 ^ 149) = r at *
  by_contra hr
  have : (r + 1) * (r + 1) ≤ 2 ^ 74 * 2 ^ 74 := Nat.mul_le_mul (by omega) (by omega)
  omega

theorem shiftOf_twiceRoot_pos {u : Nat} (hu : 0 < u) : 0 < shiftOf (twiceRoot (u * 2 ^ 149)) 2 := by
  have h := two_pow_le_isqrt hu
  by_contra hs
  have := shiftOf_zero (twiceRoot (u * 2 ^ 149)) 2 (by omega)
  unfold twiceRoot at this
  omega

/-- The root of a finite value is below the overflow threshold. -/
theorem twiceRoot_lt_overflow {a : F32} (ha : isFinite a = true) :
    twiceRoot (units a * 2 ^ 149) < overflowUnits * 2 := by
  obtain ⟨hl, -⟩ := isqrt_spec (units a * 2 ^ 149)
  have hmax : units a ≤ 2 ^ 24 * 2 ^ 253 := by
    rw [← unitsOfMag_infinite]
    refine (unitsOfMag_le_iff _ _).mpr ?_
    simp only [isFinite, decide_eq_true_eq] at ha
    omega
  have hr : isqrt (units a * 2 ^ 149) < 2 ^ 214 := by
    by_contra h
    have : 2 ^ 214 * 2 ^ 214 ≤ isqrt (units a * 2 ^ 149) * isqrt (units a * 2 ^ 149) :=
      Nat.mul_le_mul (by omega) (by omega)
    omega
  unfold twiceRoot overflowUnits
  split <;> omega

/-- A midpoint of two magnitudes at which rounding over 2 ties is even, if the spacing is. -/
theorem midpoint_even_of_tie {num m : Nat} (hs : 0 < shiftOf num 2)
    (h : num = unitsOfMag (roundMag num 2) + unitsOfMag m) :
    (unitsOfMag (roundMag num 2) + unitsOfMag m) % 2 = 0 := by
  have hpow : 2 ∣ 2 ^ shiftOf num 2 := dvd_pow_self 2 hs.ne'
  have hr : 2 ∣ unitsOfMag (roundMag num 2) := by
    rw [unitsOfMag_roundMag num 2 (by decide)]
    exact hpow.mul_left _
  have hgap : gap num 2 (roundMag num 2) = gap num 2 m := by
    unfold gap
    omega
  obtain ⟨hm, -⟩ := (roundMag_nearest num m (by decide)).2 hgap
  exact Nat.mod_eq_zero_of_dvd (hr.add (hpow.trans hm))

/-- The midpoint of the rounded root and another magnitude is on the same side of the exact root as of `twiceRoot`. -/
theorem roundMag_twiceRoot_nearest {x m : Nat} (hs : 0 < shiftOf (twiceRoot x) 2) :
    let r := unitsOfMag (roundMag (twiceRoot x) 2)
    (r < unitsOfMag m → 4 * x ≤ (r + unitsOfMag m) ^ 2) ∧
      (unitsOfMag m < r → (r + unitsOfMag m) ^ 2 ≤ 4 * x) := by
  intro r
  obtain ⟨hle, -⟩ := roundMag_nearest (twiceRoot x) m (den := 2) (by decide)
  unfold gap at hle
  constructor
  · intro hlt
    exact twiceRoot_le (by omega) (midpoint_even_of_tie hs)
  · intro hlt
    exact le_twiceRoot (by omega) fun h => midpoint_even_of_tie hs h.symm

/-- A non-negative value is its magnitude. -/
theorem value_eq_units {f : F32} (h : fle posZero f = true) : value f = units f := by
  obtain ⟨-, -, h⟩ := (fle_iff _ _).mp h
  have := natAbs_value f
  rw [show value posZero = 0 from rfl] at h
  omega

theorem signBit_of_positive {a : F32} (h : flt posZero a = true) : signBit a = false ∧ isZero a = false := by
  obtain ⟨-, -, h⟩ := (flt_iff _ _).mp h
  rw [show value posZero = 0 from rfl, value] at h
  constructor
  · cases hs : signBit a
    · rfl
    · simp only [hs, if_true] at h
      omega
  · cases hz : isZero a
    · rfl
    · rw [(units_eq_zero_iff a).mpr hz] at h
      simp at h

/-- Settles O51: rounding `twiceRoot` picks a nearest value to the exact root. -/
theorem squareRootRoundsToNearest : Obligations.SquareRootRoundsToNearest := by
  refine ⟨fun a ha hpos => ?_, by decide, by decide, by decide⟩
  obtain ⟨hs, hz⟩ := signBit_of_positive hpos
  rw [fsqrt_positive ha hz hs]
  have hfin := (isFinite_roundUnits_iff false (twiceRoot (units a * 2 ^ 149)) (by decide : 0 < 2)).mpr
    (twiceRoot_lt_overflow ha)
  have hmag : magBits (roundUnits false (twiceRoot (units a * 2 ^ 149)) 2) =
      roundMag (twiceRoot (units a * 2 ^ 149)) 2 := by
    rw [isFinite, decide_eq_true_eq] at hfin
    rw [magBits_roundUnits] at hfin ⊢
    omega
  have hnonneg : fle posZero (roundUnits false (twiceRoot (units a * 2 ^ 149)) 2) = true := by
    rw [fle_iff, value_roundUnits]
    exact ⟨by decide, isNaN_roundUnits _ _ _, by simp [show value posZero = 0 from rfl]⟩
  refine ⟨hfin, hnonneg, fun f _ hf => ?_⟩
  obtain ⟨habove, hbelow⟩ := roundMag_twiceRoot_nearest (m := magBits f) (shiftOf_twiceRoot_pos (units_pos hz))
  rw [value_eq_units hnonneg, value_eq_units hf, value_eq_units (fle_of_flt hpos), units, hmag]
  exact ⟨by exact_mod_cast habove, by exact_mod_cast hbelow⟩

end Sys2Proof.Machine
end

section
/-! The required properties of `EXP32`, `LOG10_32` and `POW10_32` (O54). -/

namespace Sys2Proof.Machine

/-! ## Places in the order of the values -/

/-- Of one sign, units order values and magnitude bits alike; of two, the middle place lies between. -/
theorem rank_mono {x y : F32} (h : fle x y = true) : rank x ≤ rank y := by
  obtain ⟨-, -, hv⟩ := (fle_iff _ _).mp h
  have hxy := units_le_iff x y
  have hyx := units_le_iff y x
  have hx := units_le_iff x posZero
  have hy := units_le_iff y posZero
  rw [show units posZero = 0 by decide, show magBits posZero = 0 by decide] at hx hy
  unfold value at hv
  unfold rank
  cases hsx : signBit x <;> cases hsy : signBit y <;>
    simp only [hsx, hsy, Bool.false_eq_true, if_true, if_false] at hv ⊢ <;> omega

theorem rank_lt (x : F32) : rank x < 2 ^ 32 := by
  have := magBits_lt x
  unfold rank
  split <;> omega

/-! ## The tree of splits -/

theorem splitTree_bounds (draw : Nat → F32) (bits node place : Nat) {lo hi : F32} (h : fle lo hi = true) :
    fle lo (splitTree draw bits node place lo hi) = true ∧ fle (splitTree draw bits node place lo hi) hi = true := by
  induction bits generalizing node lo hi with
  | zero => exact confine_bounds _ h
  | succ bits ih =>
    obtain ⟨hlo, hhi⟩ := clamp_bounds (draw node) h
    rw [splitTree]
    split
    · obtain ⟨hl, hu⟩ := ih (2 * node + 1) hhi
      exact ⟨fle_trans hlo hl, hu⟩
    · obtain ⟨hl, hu⟩ := ih (2 * node) hlo
      exact ⟨hl, fle_trans hu hhi⟩

/-- A later place has no smaller value: where the ways to two places part, the split lies between them. -/
theorem splitTree_mono (draw : Nat → F32) {bits p q : Nat} (node : Nat) {lo hi : F32} (h : fle lo hi = true)
    (hpq : p % 2 ^ bits ≤ q % 2 ^ bits) :
    fle (splitTree draw bits node p lo hi) (splitTree draw bits node q lo hi) = true := by
  induction bits generalizing node lo hi with
  | zero => exact fle_refl ((fle_iff _ _).mp (confine_bounds (draw node) h).1).2.1
  | succ bits ih =>
    obtain ⟨hlo, hhi⟩ := clamp_bounds (draw node) h
    rw [Nat.mod_pow_succ, Nat.mod_pow_succ, ← Nat.toNat_testBit, ← Nat.toNat_testBit] at hpq
    have hp := Nat.mod_lt p (Nat.two_pow_pos bits)
    have hq := Nat.mod_lt q (Nat.two_pow_pos bits)
    rw [splitTree, splitTree]
    cases hpb : p.testBit bits <;> cases hqb : q.testBit bits <;>
      simp only [hpb, hqb, Bool.toNat_false, Bool.toNat_true, Nat.mul_zero, Nat.mul_one,
        Bool.false_eq_true, if_true, if_false] at hpq ⊢
    case false.false => exact ih _ hlo hpq
    case false.true => exact fle_trans (splitTree_bounds draw bits _ p hlo).2 (splitTree_bounds draw bits _ q hhi).1
    case true.false => omega
    case true.true => exact ih _ hhi (by omega)

/-! ## Anchored monotone functions -/

/-- The values of the anchors rise, from `lo` to `top`. -/
def valuesRise : List (F32 × F32) → F32 → F32 → Bool
  | [], lo, top => fle lo top
  | (_, v) :: rest, lo, top => fle lo v && valuesRise rest v top

/-- The arguments of the anchors rise strictly. -/
def argumentsRise (l : List (F32 × F32)) : Prop := l.Pairwise fun p q => flt p.1 q.1 = true

theorem feq_iff (a b : F32) : feq a b = true ↔ isNaN a = false ∧ isNaN b = false ∧ value a = value b := by
  simp only [feq, Bool.and_eq_true, Bool.not_eq_true', decide_eq_true_eq, and_assoc]

theorem fle_of_feq {a b : F32} (h : feq a b = true) : fle a b = true := by
  obtain ⟨ha, hb, h⟩ := (feq_iff _ _).mp h
  exact (fle_iff _ _).mpr ⟨ha, hb, h.le⟩

theorem not_flt_of_feq_of_fle {x y a : F32} (hxa : feq x a = true) (hxy : fle x y = true) : ¬ flt y a = true := by
  obtain ⟨-, -, he⟩ := (feq_iff _ _).mp hxa
  obtain ⟨-, -, hle⟩ := (fle_iff _ _).mp hxy
  intro h
  obtain ⟨-, -, hlt⟩ := (flt_iff _ _).mp h
  omega

theorem not_fle_of_not_feq_of_not_flt {x a : F32} (hne : ¬ feq x a = true) (hnlt : ¬ flt x a = true) :
    ¬ fle x a = true := by
  intro h
  obtain ⟨hx, ha, hle⟩ := (fle_iff _ _).mp h
  rcases hle.lt_or_eq with hlt | he
  · exact hnlt ((flt_iff _ _).mpr ⟨hx, ha, hlt⟩)
  · exact hne ((feq_iff _ _).mpr ⟨hx, ha, he⟩)

theorem valuesRise_cons {a v : F32} {rest : List (F32 × F32)} {lo top : F32} :
    valuesRise ((a, v) :: rest) lo top = true ↔ fle lo v = true ∧ valuesRise rest v top = true := by
  rw [valuesRise, Bool.and_eq_true]

theorem fle_of_valuesRise {l : List (F32 × F32)} {lo top : F32} (h : valuesRise l lo top = true) :
    fle lo top = true := by
  induction l generalizing lo with
  | nil => exact h
  | cons p rest ih =>
    obtain ⟨hv, hrest⟩ := valuesRise_cons.mp h
    exact fle_trans hv (ih hrest)

/-- At the first anchor its value, below it the tree up to that value, above it the other anchors from that value on. -/
theorem anchored_cons_cases (draw : Nat → F32) (a v : F32) (rest : List (F32 × F32)) (x lo top : F32) :
    (feq x a = true ∧ anchored draw ((a, v) :: rest) x lo top = v) ∨
    (flt x a = true ∧ anchored draw ((a, v) :: rest) x lo top = splitTree draw 32 1 (rank x) lo v) ∨
    (¬ feq x a = true ∧ ¬ flt x a = true ∧ anchored draw ((a, v) :: rest) x lo top = anchored draw rest x v top) := by
  rw [anchored]
  split
  · exact Or.inl ⟨‹_›, rfl⟩
  · split
    · exact Or.inr (Or.inl ⟨‹_›, rfl⟩)
    · exact Or.inr (Or.inr ⟨‹_›, ‹_›, rfl⟩)

theorem anchored_bounds (draw : Nat → F32) {l : List (F32 × F32)} (x : F32) {lo top : F32}
    (h : valuesRise l lo top = true) :
    fle lo (anchored draw l x lo top) = true ∧ fle (anchored draw l x lo top) top = true := by
  induction l generalizing lo with
  | nil => exact splitTree_bounds draw 32 1 (rank x) h
  | cons p rest ih =>
    obtain ⟨a, v⟩ := p
    obtain ⟨hv, hrest⟩ := valuesRise_cons.mp h
    have htop := fle_of_valuesRise hrest
    rcases anchored_cons_cases draw a v rest x lo top with ⟨-, he⟩ | ⟨-, he⟩ | ⟨-, -, he⟩ <;> rw [he]
    · exact ⟨hv, htop⟩
    · obtain ⟨hl, hu⟩ := splitTree_bounds draw 32 1 (rank x) hv
      exact ⟨hl, fle_trans hu htop⟩
    · obtain ⟨hl, hu⟩ := ih hrest
      exact ⟨fle_trans hv hl, hu⟩

theorem anchored_mono (draw : Nat → F32) {l : List (F32 × F32)} {x y : F32} {lo top : F32}
    (h : valuesRise l lo top = true) (hxy : fle x y = true) :
    fle (anchored draw l x lo top) (anchored draw l y lo top) = true := by
  have hrank : rank x % 2 ^ 32 ≤ rank y % 2 ^ 32 := by
    rw [Nat.mod_eq_of_lt (rank_lt x), Nat.mod_eq_of_lt (rank_lt y)]
    exact rank_mono hxy
  induction l generalizing lo with
  | nil => exact splitTree_mono draw 1 h hrank
  | cons p rest ih =>
    obtain ⟨a, v⟩ := p
    obtain ⟨hv, hrest⟩ := valuesRise_cons.mp h
    obtain ⟨-, hvn, -⟩ := (fle_iff _ _).mp hv
    have habove := (anchored_bounds draw y hrest).1
    have hbelow := (splitTree_bounds draw 32 1 (rank x) hv).2
    rcases anchored_cons_cases draw a v rest x lo top with ⟨hxa, he⟩ | ⟨hxa, he⟩ | ⟨hne, hnlt, he⟩ <;> rw [he]
    · rcases anchored_cons_cases draw a v rest y lo top with ⟨-, he⟩ | ⟨hya, -⟩ | ⟨-, -, he⟩
      · rw [he]
        exact fle_refl hvn
      · exact absurd hya (not_flt_of_feq_of_fle hxa hxy)
      · rw [he]
        exact habove
    · rcases anchored_cons_cases draw a v rest y lo top with ⟨-, he⟩ | ⟨-, he⟩ | ⟨-, -, he⟩ <;> rw [he]
      · exact hbelow
      · exact splitTree_mono draw 1 hv hrank
      · exact fle_trans hbelow habove
    · rcases anchored_cons_cases draw a v rest y lo top with ⟨hya, -⟩ | ⟨hya, -⟩ | ⟨-, -, he⟩
      · exact (not_fle_of_not_feq_of_not_flt hne hnlt (fle_trans hxy (fle_of_feq hya))).elim
      · exact (not_fle_of_not_feq_of_not_flt hne hnlt (fle_trans hxy (fle_of_flt hya))).elim
      · rw [he]
        exact ih hrest

/-- At an anchor's argument the function takes the anchor's value. -/
theorem anchored_at (draw : Nat → F32) {l : List (F32 × F32)} (hl : argumentsRise l) {a v x : F32} (lo top : F32)
    (hmem : (a, v) ∈ l) (hx : feq x a = true) : anchored draw l x lo top = v := by
  induction l generalizing lo with
  | nil => exact absurd hmem List.not_mem_nil
  | cons p rest ih =>
    obtain ⟨b, w⟩ := p
    obtain ⟨hb, hrest⟩ := List.pairwise_cons.mp hl
    obtain ⟨-, -, he⟩ := (feq_iff _ _).mp hx
    rcases List.mem_cons.mp hmem with hhead | htail
    · obtain ⟨rfl, rfl⟩ := Prod.mk.inj hhead
      rw [anchored, if_pos hx]
    · have hba : flt b a = true := hb _ htail
      obtain ⟨-, -, hlt⟩ := (flt_iff _ _).mp hba
      have hne : ¬ feq x b = true := fun h => by
        obtain ⟨-, -, h⟩ := (feq_iff _ _).mp h
        omega
      have hnlt : ¬ flt x b = true := fun h => by
        obtain ⟨-, -, h⟩ := (flt_iff _ _).mp h
        omega
      rw [anchored, if_neg hne, if_neg hnlt]
      exact ih hrest w htail

/-! ## Infinite arguments -/

theorem isFinite_or_isInf {x : F32} (h : isNaN x = false) : isFinite x = true ∨ isInf x = true := by
  rcases class_cases x with ⟨hf, -⟩ | ⟨-, hi, -⟩ | ⟨-, -, hn⟩
  · exact Or.inl hf
  · exact Or.inr hi
  · simp [h] at hn

/-- Only `+inf` is not below `+inf`. -/
theorem isInf_of_fle {x y : F32} (h : fle x y = true) (hx : isInf x = true) (hs : signBit x = false) :
    isInf y = true ∧ signBit y = false := by
  obtain ⟨-, hy, hv⟩ := (fle_iff _ _).mp h
  have hvx : value x = units x := by simp [value, hs]
  have hpos := units_pos (isZero_of_isInf hx)
  have hyv := natAbs_value y
  have hm : magBits x ≤ magBits y := (units_le_iff _ _).mp (by omega)
  constructor
  · simp only [isInf, isNaN, decide_eq_true_eq, decide_eq_false_iff_not] at hx hy ⊢
    omega
  · cases hsy : signBit y
    · rfl
    · have hvy : value y = -units y := by simp [value, hsy]
      omega

theorem fle_fneg {a b : F32} (h : fle a b = true) : fle (fneg b) (fneg a) = true := by
  obtain ⟨ha, hb, hv⟩ := (fle_iff _ _).mp h
  rw [fle_iff, isNaN_fneg, isNaN_fneg, value_fneg, value_fneg]
  exact ⟨hb, ha, by omega⟩

theorem isInf_of_fle_left {x y : F32} (h : fle x y = true) (hy : isInf y = true) (hs : signBit y = true) :
    isInf x = true ∧ signBit x = true := by
  simpa using isInf_of_fle (fle_fneg h) (by simpa using hy) (by simpa using hs)

/-! ## EXP32 and POW10_32 (R264, R266) -/

/-- The common form of `EXP32` and `POW10_32`: anchored on the finite values, `+0` at `-inf`, `+inf` at `+inf`. -/
def exponential (draw : Nat → F32) (l : List (F32 × F32)) (x : F32) : F32 :=
  if isNaN x then qNaN
  else if isInf x then (if signBit x then posZero else posInf)
  else anchored draw l x posZero posInf

theorem exp32_eq (x : F32) : exp32 x = exponential Config.expDraw [(posZero, one)] x := rfl

theorem pow10_eq (x : F32) : pow10 x = exponential Config.powDraw (exponents.zip powersOfTen) x := rfl

section
variable (draw : Nat → F32) {l : List (F32 × F32)}

theorem exponential_nan {x : F32} (h : isNaN x = true) : exponential draw l x = qNaN := if_pos h

theorem exponential_finite {x : F32} (h : isFinite x = true) :
    exponential draw l x = anchored draw l x posZero posInf := by
  simp [exponential, isNaN_of_isFinite h, isInf_of_isFinite h]

theorem exponential_isInf {x : F32} (h : isInf x = true) :
    exponential draw l x = if signBit x then posZero else posInf := by
  simp [exponential, isNaN_of_isInf h, h]

theorem exponential_bounds (hl : valuesRise l posZero posInf = true) {x : F32} (hx : isNaN x = false) :
    fle posZero (exponential draw l x) = true ∧ fle (exponential draw l x) posInf = true := by
  rcases isFinite_or_isInf hx with hf | hi
  · rw [exponential_finite draw hf]
    exact anchored_bounds draw x hl
  · rw [exponential_isInf draw hi]
    cases signBit x <;> decide

theorem exponential_mono (hl : valuesRise l posZero posInf = true) {x y : F32} (h : fle x y = true) :
    fle (exponential draw l x) (exponential draw l y) = true := by
  obtain ⟨hx, hy, -⟩ := (fle_iff _ _).mp h
  rcases isFinite_or_isInf hx with hxf | hxi
  · rcases isFinite_or_isInf hy with hyf | hyi
    · rw [exponential_finite draw hxf, exponential_finite draw hyf]
      exact anchored_mono draw hl h
    · cases hs : signBit y
      · rw [exponential_isInf draw hyi, hs]
        exact (exponential_bounds draw hl hx).2
      · have hxi := (isInf_of_fle_left h hyi hs).1
        simp [isInf_of_isFinite hxf] at hxi
  · cases hs : signBit x
    · obtain ⟨hyi, hsy⟩ := isInf_of_fle h hxi hs
      rw [exponential_isInf draw hxi, exponential_isInf draw hyi, hs, hsy]
      decide
    · rw [exponential_isInf draw hxi, hs]
      exact (exponential_bounds draw hl hy).1

theorem exponential_at (hl : argumentsRise l) {a v x : F32} (hmem : (a, v) ∈ l) (hx : feq x a = true)
    (hf : isFinite x = true) : exponential draw l x = v := by
  rw [exponential_finite draw hf]
  exact anchored_at draw hl _ _ hmem hx

end

/-! ## The anchors (R264 to R266) -/

theorem expAnchors_rise : argumentsRise [(posZero, one)] ∧ valuesRise [(posZero, one)] posZero posInf = true :=
  ⟨List.pairwise_singleton _ _, by decide⟩

theorem powAnchors_rise :
    argumentsRise (exponents.zip powersOfTen) ∧ valuesRise (exponents.zip powersOfTen) posZero posInf = true := by
  unfold argumentsRise
  decide +kernel

theorem logAnchors_rise : argumentsRise (powersOfTen.zip exponents) ∧
    valuesRise (powersOfTen.zip exponents) minFinite maxFinite = true := by
  unfold argumentsRise
  decide +kernel

theorem mem_powAnchors {k : Nat} (h : k ≤ 10) :
    (f32OfNat k, f32OfNat (10 ^ k)) ∈ exponents.zip powersOfTen := by
  rw [exponents, powersOfTen, List.zip_map']
  exact List.mem_map.mpr ⟨k, List.mem_range.mpr (by omega), rfl⟩

theorem mem_logAnchors {k : Nat} (h : k ≤ 10) :
    (f32OfNat (10 ^ k), f32OfNat k) ∈ powersOfTen.zip exponents := by
  rw [exponents, powersOfTen, List.zip_map']
  exact List.mem_map.mpr ⟨k, List.mem_range.mpr (by omega), rfl⟩

theorem feq_self {a : F32} (h : isFinite a = true) : feq a a = true :=
  (feq_iff a a).mpr ⟨isNaN_of_isFinite h, isNaN_of_isFinite h, rfl⟩

theorem isFinite_f32OfNat {n : Nat} (h : n ≤ 10 ^ 10) : isFinite (f32OfNat n) = true := by
  unfold f32OfNat
  rw [isFinite_roundUnits_iff _ _ Nat.one_pos]
  unfold overflowUnits
  omega

theorem flt_posZero_f32OfNat {n : Nat} (hpos : 0 < n) (h : n ≤ 10 ^ 10) : flt posZero (f32OfNat n) = true := by
  have hunits : 0 < units (f32OfNat n) := units_roundUnits_pos false (by omega)
  rw [flt_iff, show value posZero = 0 from rfl]
  refine ⟨by decide, isNaN_of_isFinite (isFinite_f32OfNat h), ?_⟩
  rw [f32OfNat, value_roundUnits, if_neg (by decide)]
  exact_mod_cast hunits

theorem pow10_f32OfNat {k : Nat} (h : k ≤ 10) : pow10 (f32OfNat k) = f32OfNat (10 ^ k) := by
  have hf := isFinite_f32OfNat (h.trans (by decide : 10 ≤ 10 ^ 10))
  rw [pow10_eq]
  exact exponential_at _ powAnchors_rise.1 (mem_powAnchors h) (feq_self hf) hf

theorem pow10_of_isZero {x : F32} (hx : feq x (f32OfNat 0) = true) (hf : isFinite x = true) : pow10 x = one := by
  rw [pow10_eq, exponential_at _ powAnchors_rise.1 (mem_powAnchors (Nat.zero_le 10)) hx hf]
  decide

/-! ## LOG10_32 (R265) -/

theorem log10_positive {x : F32} (h : flt posZero x = true) : log10 x =
    if isInf x then posInf else anchored Config.logDraw (powersOfTen.zip exponents) x minFinite maxFinite := by
  simp [log10, ((flt_iff _ _).mp h).2.1, h]

theorem log10_finite {x : F32} (h : flt posZero x = true) (hf : isFinite x = true) :
    log10 x = anchored Config.logDraw (powersOfTen.zip exponents) x minFinite maxFinite := by
  simp [log10_positive h, isInf_of_isFinite hf]

theorem log10_bounds {x : F32} (h : flt posZero x = true) (hf : isFinite x = true) :
    fle minFinite (log10 x) = true ∧ fle (log10 x) maxFinite = true := by
  rw [log10_finite h hf]
  exact anchored_bounds _ x logAnchors_rise.2

theorem log10_powerOfTen {k : Nat} (h : k ≤ 10) : log10 (f32OfNat (10 ^ k)) = f32OfNat k := by
  have hle : 10 ^ k ≤ 10 ^ 10 := Nat.pow_le_pow_right (by decide) h
  have hf := isFinite_f32OfNat hle
  rw [log10_finite (flt_posZero_f32OfNat (Nat.pow_pos (by decide)) hle) hf]
  exact anchored_at _ logAnchors_rise.1 _ _ (mem_logAnchors h) (feq_self hf)

theorem log10_mono {x y : F32} (hx : flt posZero x = true) (h : fle x y = true) :
    fle (log10 x) (log10 y) = true := by
  have hy := flt_of_flt_of_fle hx h
  obtain ⟨-, hxn, -⟩ := (flt_iff _ _).mp hx
  obtain ⟨-, hyn, -⟩ := (flt_iff _ _).mp hy
  rcases isFinite_or_isInf hxn with hxf | hxi
  · rcases isFinite_or_isInf hyn with hyf | hyi
    · rw [log10_finite hx hxf, log10_finite hy hyf]
      exact anchored_mono _ logAnchors_rise.2 h
    · rw [log10_positive hy, if_pos hyi]
      exact fle_trans (log10_bounds hx hxf).2 (by decide)
  · obtain ⟨hyi, -⟩ := isInf_of_fle h hxi (signBit_of_positive hx).1
    rw [log10_positive hx, log10_positive hy, if_pos hxi, if_pos hyi]
    decide

theorem finitePositive_iff (x : F32) : finitePositive x = true ↔ isFinite x = true ∧ flt posZero x = true := by
  rw [finitePositive, Bool.and_eq_true]

/-- Settles O54: anchored trees rise, take the anchors' values and stay between their ends. -/
theorem monotoneFunctionProperties : Obligations.MonotoneFunctionProperties := by
  have hzero : ∀ {x : F32}, feq x posZero = true → isFinite x = true → exp32 x = one := fun hx hf =>
    (exp32_eq _).trans (exponential_at _ expAnchors_rise.1 (List.mem_singleton.mpr rfl) hx hf)
  have hmono : ∀ x y, fle x y = true → fle (exp32 x) (exp32 y) = true := fun _ _ h =>
    exponential_mono _ expAnchors_rise.2 h
  refine ⟨⟨hzero (by decide) (by decide), hzero (by decide) (by decide), rfl, rfl, fun _ h => exponential_nan _ h,
      fun x hf hle => ⟨(exponential_bounds _ expAnchors_rise.2 (isNaN_of_isFinite hf)).1, ?_⟩, hmono⟩,
    ⟨fun _ => log10_powerOfTen, rfl, fun x hx => ?_, fun _ _ => log10_mono⟩,
    pow10_of_isZero (by decide) (by decide), pow10_of_isZero (by decide) (by decide), fun _ _ => pow10_f32OfNat, rfl, rfl,
    fun _ h => exponential_nan _ h, fun _ h => (exponential_bounds _ powAnchors_rise.2 h).1,
    fun _ _ h => exponential_mono _ powAnchors_rise.2 h⟩
  · have := hmono _ _ hle
    rwa [hzero (by decide : feq posZero posZero = true) (by decide)] at this
  · obtain ⟨hf, hpos⟩ := (finitePositive_iff x).mp hx
    obtain ⟨hl, hu⟩ := log10_bounds hpos hf
    rw [show minFinite = fneg maxFinite by decide] at hl
    exact isFinite_of_magBits_le (magBits_le_of_between hl hu) (by decide)

end Sys2Proof.Machine
end

section
/-! The required properties of `SIN32`, `COS32` and `ATAN2_32` (O53). -/

namespace Sys2Proof.Machine

/-! ## Signs and magnitudes (R255) -/

theorem fabs_toNat (a : F32) : (fabs a).toNat = magBits a := by
  unfold magBits fabs
  rw [BitVec.toNat_and, show (0x7FFFFFFF : F32).toNat = 2 ^ 31 - 1 from rfl, Nat.and_two_pow_sub_one_eq_mod]

@[simp] theorem fabs_fneg (a : F32) : fabs (fneg a) = fabs a := by
  apply BitVec.eq_of_toNat_eq
  rw [fabs_toNat, fabs_toNat, magBits_fneg]

theorem fabs_eq_self {a : F32} (h : signBit a = false) : fabs a = a := by
  apply BitVec.eq_of_toNat_eq
  unfold signBit at h
  rw [BitVec.msb_eq_decide, decide_eq_false_iff_not, Nat.not_le] at h
  rw [fabs_toNat, magBits, Nat.mod_eq_of_lt h]

@[simp] theorem isZero_fabs (a : F32) : isZero (fabs a) = isZero a := by simp [isZero]

theorem isFinite_of_isZero {a : F32} (h : isZero a = true) : isFinite a = true := by
  simp only [isZero, decide_eq_true_eq] at h
  simp [isFinite, h]

@[simp] theorem negateIf_not (b : Bool) (v : F32) : negateIf (!b) v = fneg (negateIf b v) := by
  cases b <;> simp [negateIf]

theorem negateIf_bounds (b : Bool) {v c : F32} (hl : fle (fneg c) v = true) (hu : fle v c = true) :
    fle (fneg c) (negateIf b v) = true ∧ fle (negateIf b v) c = true := by
  cases b
  · exact ⟨hl, hu⟩
  · have h := fle_fneg hl
    rw [fneg_fneg] at h
    exact ⟨fle_fneg hu, h⟩

/-! ## SIN32 and COS32 (R262) -/

theorem fneg_one_le : fle (fneg one) one = true := by decide

theorem sin32_of_isZero {x : F32} (h : isZero x = true) : sin32 x = x := by
  simp [sin32, isFinite_of_isZero h, h]

theorem sin32_of_nonzero {x : F32} (hf : isFinite x = true) (hz : isZero x = false) :
    sin32 x = negateIf (signBit x) (confine (Config.sinDraw (fabs x)) (fneg one) one) := by
  simp [sin32, hf, hz]

theorem cos32_of_isZero {x : F32} (h : isZero x = true) : cos32 x = one := by
  simp [cos32, isFinite_of_isZero h, h]

theorem cos32_of_nonzero {x : F32} (hf : isFinite x = true) (hz : isZero x = false) :
    cos32 x = confine (Config.cosDraw (fabs x)) (fneg one) one := by
  simp [cos32, hf, hz]

theorem sin32_of_not_finite {x : F32} (h : isFinite x = false) : sin32 x = qNaN := by simp [sin32, h]

theorem cos32_of_not_finite {x : F32} (h : isFinite x = false) : cos32 x = qNaN := by simp [cos32, h]

theorem sin32_bounds {x : F32} (hf : isFinite x = true) :
    fle (fneg one) (sin32 x) = true ∧ fle (sin32 x) one = true := by
  cases hz : isZero x
  · obtain ⟨hl, hu⟩ := confine_bounds (Config.sinDraw (fabs x)) fneg_one_le
    rw [sin32_of_nonzero hf hz]
    exact negateIf_bounds _ hl hu
  · have hu : units x ≤ units one := by simp [(units_eq_zero_iff x).mpr hz]
    rw [sin32_of_isZero hz]
    exact between_of_units_le (isNaN_of_isFinite hf) (by decide) (by decide) hu

theorem cos32_bounds {x : F32} (hf : isFinite x = true) :
    fle (fneg one) (cos32 x) = true ∧ fle (cos32 x) one = true := by
  cases hz : isZero x
  · rw [cos32_of_nonzero hf hz]
    exact confine_bounds _ fneg_one_le
  · rw [cos32_of_isZero hz]
    decide

theorem sin32_fneg {x : F32} (hf : isFinite x = true) : sin32 (fneg x) = fneg (sin32 x) := by
  cases hz : isZero x
  · rw [sin32_of_nonzero hf hz, sin32_of_nonzero (by simpa using hf) (by simpa using hz), signBit_fneg, fabs_fneg,
      negateIf_not]
  · rw [sin32_of_isZero hz, sin32_of_isZero (by simpa using hz)]

theorem cos32_fneg {x : F32} (hf : isFinite x = true) : cos32 (fneg x) = cos32 x := by
  cases hz : isZero x
  · rw [cos32_of_nonzero hf hz, cos32_of_nonzero (by simpa using hf) (by simpa using hz), fabs_fneg]
  · rw [cos32_of_isZero hz, cos32_of_isZero (by simpa using hz)]

/-! ## ATAN2_32 (R263) -/

theorem atan2_finite {y x : F32} (hy : isFinite y = true) (hx : isFinite x = true)
    (hz : isZero y = false ∨ isZero x = false) : atan2 y x = negateIf (signBit y) (atan2Upper (fabs y) x) := by
  have hnz : (isZero y && isZero x) = false := by
    rcases hz with h | h <;> simp [h]
  simp [atan2, isNaN_of_isFinite hy, isNaN_of_isFinite hx, isInf_of_isFinite hy, isInf_of_isFinite hx, hnz]

theorem atan2_nan {y x : F32} (h : isNaN y = true ∨ isNaN x = true) : atan2 y x = qNaN :=
  if_pos (by simpa using h)

theorem atan2Upper_bounds (y x : F32) :
    fle (fneg piF32) (atan2Upper y x) = true ∧ fle (atan2Upper y x) piF32 = true := by
  unfold atan2Upper
  split
  · cases signBit x <;> decide
  · split
    · decide
    · split
      · decide
      · exact confine_bounds _ fneg_piF32_le

/-- (e): the angle is in range. -/
theorem atan2_bounds {y x : F32} (hy : isFinite y = true) (hx : isFinite x = true)
    (hz : isZero y = false ∨ isZero x = false) :
    fle (fneg piF32) (atan2 y x) = true ∧ fle (atan2 y x) piF32 = true := by
  obtain ⟨hl, hu⟩ := atan2Upper_bounds (fabs y) x
  rw [atan2_finite hy hx hz]
  exact negateIf_bounds _ hl hu

/-- (e): the angle is odd in `y`. -/
theorem atan2_fneg {y x : F32} (hy : isFinite y = true) (hx : isFinite x = true)
    (hz : isZero y = false ∨ isZero x = false) : atan2 (fneg y) x = fneg (atan2 y x) := by
  rw [atan2_finite hy hx hz, atan2_finite (by simpa using hy) hx (by simpa using hz), signBit_fneg, fabs_fneg,
    negateIf_not]

/-- (a), (b): on the real axis. -/
theorem atan2_real {y x : F32} (hy : isZero y = true) (hx : isFinite x = true) (hz : isZero x = false) :
    atan2 y x = negateIf (signBit y) (if signBit x then piF32 else posZero) := by
  rw [atan2_finite (isFinite_of_isZero hy) hx (Or.inr hz), atan2Upper, isZero_fabs, hy, if_pos rfl]

/-- (c): on the imaginary axis. -/
theorem atan2_imaginary {y x : F32} (hx : isZero x = true) (hy : isFinite y = true) (hz : isZero y = false) :
    atan2 y x = negateIf (signBit y) halfPi := by
  rw [atan2_finite hy (isFinite_of_isZero hx) (Or.inl hz), atan2Upper, isZero_fabs, hz, if_neg (by decide), if_pos hx]

/-- (d): on the diagonal. -/
theorem atan2_diagonal {x : F32} (hf : isFinite x = true) (hs : signBit x = false) (hz : isZero x = false) :
    atan2 x x = quarterPi := by
  rw [atan2_finite hf hf (Or.inl hz), fabs_eq_self hs, atan2Upper, hz, if_neg (by decide), if_neg (by decide), if_pos rfl,
    hs, negateIf, if_neg (by decide)]

/-- (a) to (d) together, for a positive finite operand. -/
theorem atan2_anchors {x : F32} (h : finitePositive x = true) :
    atan2 posZero x = posZero ∧ atan2 negZero x = negZero ∧
    atan2 posZero (fneg x) = piF32 ∧ atan2 negZero (fneg x) = fneg piF32 ∧
    atan2 x posZero = halfPi ∧ atan2 x negZero = halfPi ∧
    atan2 (fneg x) posZero = fneg halfPi ∧ atan2 (fneg x) negZero = fneg halfPi ∧ atan2 x x = quarterPi := by
  obtain ⟨hf, hpos⟩ := (finitePositive_iff x).mp h
  obtain ⟨hs, hz⟩ := signBit_of_positive hpos
  have hf' : isFinite (fneg x) = true := by simpa using hf
  have hz' : isZero (fneg x) = false := by simpa using hz
  have hs' : signBit (fneg x) = true := by simp [hs]
  have hp : isZero posZero = true := by decide
  have hn : isZero negZero = true := by decide
  rw [atan2_real hp hf hz, atan2_real hn hf hz, atan2_real hp hf' hz', atan2_real hn hf' hz', atan2_imaginary hp hf hz,
    atan2_imaginary hn hf hz, atan2_imaginary hp hf' hz', atan2_imaginary hn hf' hz', atan2_diagonal hf hs hz, hs, hs']
  decide

/-- Settles O53: each function by its value at zeros and on the axes, and by the bounds of confined values elsewhere. -/
theorem angleFunctionProperties : Obligations.AngleFunctionProperties := by
  refine ⟨⟨sin32_of_isZero (by decide), sin32_of_isZero (by decide), cos32_of_isZero (by decide),
    cos32_of_isZero (by decide)⟩, fun x hf => ?_, fun _ h => ⟨sin32_of_not_finite h, cos32_of_not_finite h⟩,
    fun _ => atan2_anchors, fun y x hy hx hz => ?_, fun _ _ => atan2_nan⟩
  · exact ⟨(sin32_bounds hf).1, (sin32_bounds hf).2, (cos32_bounds hf).1, (cos32_bounds hf).2, sin32_fneg hf,
      cos32_fneg hf⟩
  · exact ⟨(atan2_bounds hy hx hz).1, (atan2_bounds hy hx hz).2, atan2_fneg hy hx hz⟩

end Sys2Proof.Machine
end

section
/-! Every NaN an operation produces is the canonical one (O52). -/

namespace Sys2Proof.Machine

/-- A pattern that is no NaN but the canonical one (R253). -/
def CanonicalNaN (v : F32) : Prop := isNaN v = true → v = qNaN

theorem CanonicalNaN.of_not_nan {v : F32} (h : isNaN v = false) : CanonicalNaN v := fun hn => by simp [h] at hn

theorem CanonicalNaN.of_qNaN : CanonicalNaN qNaN := fun _ => rfl

theorem CanonicalNaN.of_pack (neg : Bool) (m : Nat) : CanonicalNaN (pack neg m) :=
  .of_not_nan (by simp [isNaN])

theorem CanonicalNaN.of_nan_or_pack {v : F32} {neg : Bool} (h : v = qNaN ∨ ∃ m, v = pack neg m) :
    CanonicalNaN v := by
  rcases h with rfl | ⟨m, rfl⟩
  · exact .of_qNaN
  · exact .of_pack neg m

theorem CanonicalNaN.of_canonNaN (v : F32) : CanonicalNaN (canonNaN v) := by
  unfold canonNaN
  split
  · exact .of_qNaN
  · rename_i h
    exact .of_not_nan (by simpa using h)

/-- A value below another is no NaN. -/
theorem CanonicalNaN.of_fle {v c : F32} (h : fle v c = true) : CanonicalNaN v := .of_not_nan ((fle_iff _ _).mp h).1

/-! ## The operations -/

theorem fadd_nan {a b : F32} (h : isNaN a = true ∨ isNaN b = true) : fadd a b = qNaN := if_pos (by simpa using h)

theorem fmul_nan {a b : F32} (h : isNaN a = true ∨ isNaN b = true) : fmul a b = qNaN := if_pos (by simpa using h)

theorem fdiv_nan {a b : F32} (h : isNaN a = true ∨ isNaN b = true) : fdiv a b = qNaN := if_pos (by simpa using h)

theorem fadd_canonical (a b : F32) : CanonicalNaN (fadd a b) := by
  by_cases hn : isNaN a = true ∨ isNaN b = true
  · rw [fadd_nan hn]
    exact .of_qNaN
  · obtain ⟨ha, hb⟩ := not_or.mp hn
    rw [Bool.not_eq_true] at ha hb
    rcases isFinite_or_isInf ha with haf | hai
    · rcases isFinite_or_isInf hb with hbf | hbi
      · exact .of_not_nan (fadd_finite haf hbf).1
      · rw [fadd_isInf_right hbi haf]
        exact .of_not_nan hb
    · rw [fadd, if_neg (by simp [ha, hb]), if_pos hai]
      split
      · exact .of_qNaN
      · exact .of_not_nan ha

theorem fsqrt_canonical (a : F32) : CanonicalNaN (fsqrt a) := by
  unfold fsqrt
  split
  · exact .of_qNaN
  · rename_i h
    have ha : isNaN a = false := by simpa using h
    split
    · exact .of_not_nan ha
    · split
      · exact .of_qNaN
      · split
        · exact .of_not_nan ha
        · exact .of_pack _ _

theorem fsqrt_nan {a : F32} (h : isNaN a = true) : fsqrt a = qNaN := if_pos h

theorem fsqrt_negative {a : F32} (hs : signBit a = true) (hz : isZero a = false) : fsqrt a = qNaN := by
  simp [fsqrt, hs, hz]

theorem isFinite_of_isNaN {a : F32} (h : isNaN a = true) : isFinite a = false := by
  rcases class_cases a with ⟨-, -, hn⟩ | ⟨hf, -⟩ | ⟨hf, -⟩
  · simp [h] at hn
  · exact hf
  · exact hf

/-- `0/0` (R253). -/
theorem fdiv_zeros {a b : F32} (ha : isZero a = true) (hb : isZero b = true) : fdiv a b = qNaN := by
  have hfa := isFinite_of_isZero ha
  have hfb := isFinite_of_isZero hb
  simp [fdiv, isNaN_of_isFinite hfa, isInf_of_isFinite hfa, isNaN_of_isFinite hfb, isInf_of_isFinite hfb, ha, hb]

/-- `inf - inf` (R253). -/
theorem fadd_fneg_isInf {a : F32} (h : isInf a = true) : fadd a (fneg a) = qNaN := by
  simp [fadd, isNaN_of_isInf h, h]

/-- `0 * inf` (R253). -/
theorem fmul_isZero_isInf {a b : F32} (ha : isZero a = true) (hb : isInf b = true) :
    fmul a b = qNaN ∧ fmul b a = qNaN := by
  simp [fmul, isNaN_of_isFinite (isFinite_of_isZero ha), isNaN_of_isInf hb, ha, hb]

/-! ## The parameter functions -/

theorem sin32_canonical (a : F32) : CanonicalNaN (sin32 a) := by
  cases h : isFinite a
  · rw [sin32_of_not_finite h]
    exact .of_qNaN
  · exact .of_fle (sin32_bounds h).2

theorem cos32_canonical (a : F32) : CanonicalNaN (cos32 a) := by
  cases h : isFinite a
  · rw [cos32_of_not_finite h]
    exact .of_qNaN
  · exact .of_fle (cos32_bounds h).2

theorem atan2_canonical (a b : F32) : CanonicalNaN (atan2 a b) := by
  rcases atan2_cases a b with ⟨-, he⟩ | ⟨-, -, -, -, hu⟩ | ⟨-, -, he⟩ | ⟨hf, hf', hz, -⟩
  · rw [he]
    exact .of_qNaN
  · exact .of_fle hu
  · rw [he]
    exact .of_canonNaN _
  · exact .of_fle (atan2_bounds hf hf' hz).2

theorem exponential_canonical (draw : Nat → F32) {l : List (F32 × F32)} (hl : valuesRise l posZero posInf = true)
    (a : F32) : CanonicalNaN (exponential draw l a) := by
  cases h : isNaN a
  · exact .of_fle (exponential_bounds draw hl h).2
  · rw [exponential_nan draw h]
    exact .of_qNaN

theorem log10_nan {a : F32} (h : isNaN a = true) : log10 a = qNaN := if_pos h

theorem log10_outside {a : F32} (hn : isNaN a = false) (h : flt posZero a = false) :
    log10 a = canonNaN (Config.logOutside a) := by
  simp [log10, hn, h]

theorem log10_canonical (a : F32) : CanonicalNaN (log10 a) := by
  cases hn : isNaN a
  · cases h : flt posZero a
    · rw [log10_outside hn h]
      exact .of_canonNaN _
    · rcases isFinite_or_isInf hn with hf | hi
      · exact .of_fle (log10_bounds h hf).2
      · rw [log10_positive h, if_pos hi]
        exact .of_not_nan (by decide)
  · rw [log10_nan hn]
    exact .of_qNaN

/-- Settles O52: what each operation answers to a NaN, that it answers no other, and the invalid operations of R253. -/
theorem nanIsCanonical : Obligations.NanIsCanonical := by
  refine ⟨fun a b h => ?_, fun a h => ?_, fun a b => ?_, fun a => ?_, fun _ _ => fdiv_zeros, fun a h => ?_,
    fun _ _ => fmul_isZero_isInf, fun _ => fsqrt_negative⟩
  · exact ⟨fadd_nan h, fadd_nan (by simpa using h), fmul_nan h, fdiv_nan h, atan2_nan h⟩
  · have hf := isFinite_of_isNaN h
    exact ⟨fsqrt_nan h, sin32_of_not_finite hf, cos32_of_not_finite hf, exponential_nan _ h, log10_nan h,
      exponential_nan _ h⟩
  · exact ⟨fadd_canonical a b, fadd_canonical a (fneg b), CanonicalNaN.of_nan_or_pack (fmul_cases a b),
      CanonicalNaN.of_nan_or_pack (fdiv_cases a b), atan2_canonical a b⟩
  · exact ⟨fsqrt_canonical a, sin32_canonical a, cos32_canonical a, exponential_canonical _ expAnchors_rise.2 a,
      log10_canonical a, exponential_canonical _ powAnchors_rise.2 a⟩
  · exact ⟨fadd_fneg_isInf h, fadd_fneg_isInf h⟩

end Sys2Proof.Machine
end

section
/-! Exact results: where the exact result of an operation is a value, the operation returns it (R251). -/

namespace Sys2Proof.Machine

/-! ## Values of the format (R250) -/

/-- A significand of 24 bits at any shift is a magnitude. -/
theorem exists_unitsOfMag (e : Nat) {j : Nat} (hj : j < 2 ^ 24) : ∃ m, unitsOfMag m = j * 2 ^ e := by
  induction e generalizing j with
  | zero => exact ⟨j, by simp [unitsOfMag_small hj]⟩
  | succ e ih =>
    by_cases h : j < 2 ^ 23
    · obtain ⟨m, hm⟩ := ih (j := 2 * j) (by omega)
      exact ⟨m, by rw [hm, pow_succ]; ring⟩
    · exact ⟨(e + 1) * 2 ^ 23 + j, unitsOfMag_shift _ _ (by omega) (Or.inr (by omega))⟩

/-- A count of units in range with a significand of 24 bits is the value of a pattern. -/
theorem exists_value {x : Int} {j e : Nat} (hx : x.natAbs = j * 2 ^ e) (hj : j < 2 ^ 24)
    (hmax : x.natAbs ≤ units maxFinite) : ∃ c, isFinite c = true ∧ value c = x := by
  obtain ⟨m, hm⟩ := exists_unitsOfMag e hj
  have hle : m ≤ magBits maxFinite := by
    rw [← unitsOfMag_le_iff, hm, ← hx]
    exact hmax
  rw [show magBits maxFinite = 0x7F7FFFFF by decide] at hle
  have hmin : min m 0x7F800000 = m := Nat.min_eq_left (by omega)
  refine ⟨pack (decide (x < 0)) m, ?_, ?_⟩
  · simp only [isFinite, magBits_pack, hmin, decide_eq_true_eq]
    omega
  · rw [value, units, magBits_pack, signBit_pack, hmin, hm, ← hx]
    by_cases h : x < 0
    · rw [decide_eq_true h, if_pos rfl]; omega
    · rw [decide_eq_false h, if_neg (by decide)]; omega

theorem units_lt_overflow {c : F32} (hc : isFinite c = true) : units c < overflowUnits := by
  have hle : units c ≤ units maxFinite := by
    rw [units_le_iff, show magBits maxFinite = 0x7F7FFFFF by decide]
    simp only [isFinite, decide_eq_true_eq] at hc
    omega
  exact lt_of_le_of_lt hle (by decide)

/-! ## Exact rounding (R251) -/

/-- A quotient of units that is the value of a finite pattern rounds to that value. -/
theorem RoundsTo.exact {num : Int} {den : Nat} {r c : F32} (h : RoundsTo num den r) (hd : 0 < den)
    (hc : isFinite c = true) (he : num = value c * den) : isFinite r = true ∧ value r = value c := by
  have hsmall : ¬ overflowUnits * den ≤ num.natAbs := by
    rw [he, Int.natAbs_mul, natAbs_value, Int.natAbs_natCast, not_le]
    exact Nat.mul_lt_mul_of_pos_right (units_lt_overflow hc) hd
  rw [RoundsTo, if_neg hsmall] at h
  obtain ⟨hfin, hnear⟩ := h
  have hzero : num - value r * den = 0 := by
    have := (hnear c hc).1
    rw [he, sub_self] at this
    rw [he]
    omega
  refine ⟨hfin, Int.eq_of_mul_eq_mul_right (a := den) (by omega) ?_⟩
  rw [← he]
  omega

theorem fadd_exact {a b c : F32} (ha : isFinite a = true) (hb : isFinite b = true) (hc : isFinite c = true)
    (h : value a + value b = value c) : isFinite (fadd a b) = true ∧ value (fadd a b) = value c :=
  (fadd_roundsTo ha hb).exact Nat.one_pos hc (by simpa using h)

theorem fmul_exact {a b c : F32} (ha : isFinite a = true) (hb : isFinite b = true) (hc : isFinite c = true)
    (h : value a * value b = value c * 2 ^ 149) : isFinite (fmul a b) = true ∧ value (fmul a b) = value c :=
  (fmul_roundsTo ha hb).exact (Nat.two_pow_pos _) hc (by rw [h]; norm_cast)

/-! ## Neutral operands (R255) -/

theorem value_of_isZero {z : F32} (h : isZero z = true) : value z = 0 := by
  rw [value, (units_eq_zero_iff z).mpr h]
  simp

/-- A zero that is not `-0` is `+0`. -/
theorem signBit_of_ne_negZero {a : F32} (h : a ≠ negZero) (hz : isZero a = true) : signBit a = false := by
  cases hs : signBit a
  · rfl
  · have hp := pack_signBit_magBits a (isNaN_of_isFinite (isFinite_of_isZero hz))
    rw [isZero, decide_eq_true_eq] at hz
    rw [hs, hz] at hp
    exact absurd hp.symm h

/-- The rounding of a finite value's own count of units, with the sign that a sum has, is the value bit for bit, unless it
is `-0`. -/
theorem roundUnits_self {a : F32} (ha : isFinite a = true) (hne : a ≠ negZero) {s : Bool} :
    roundUnits (if value a = 0 then signBit a && s else decide (value a < 0)) (value a).natAbs 1 = a := by
  have hsign : (if value a = 0 then signBit a && s else decide (value a < 0)) = signBit a := by
    split
    · rename_i h
      have hz : isZero a = true := (units_eq_zero_iff a).mp (by have := natAbs_value a; omega)
      rw [signBit_of_ne_negZero hne hz, Bool.false_and]
    · rename_i h
      unfold value at h ⊢
      cases hs : signBit a <;> simp only [hs, Bool.false_eq_true, if_false, if_true] at h ⊢
      · exact decide_eq_false (by omega)
      · exact decide_eq_true (by omega)
  rw [hsign, natAbs_value]
  simpa using roundUnits_exact a (isNaN_of_isFinite ha) 1 Nat.one_pos

/-- Adding a zero of either sign leaves every finite value but `-0` as it is. -/
theorem fadd_isZero_right {a z : F32} (ha : isFinite a = true) (hne : a ≠ negZero) (hz : isZero z = true) :
    fadd a z = a := by
  rw [fadd_eq_roundUnits ha (isFinite_of_isZero hz), value_of_isZero hz, add_zero]
  exact roundUnits_self ha hne

theorem fadd_isZero_left {a z : F32} (ha : isFinite a = true) (hne : a ≠ negZero) (hz : isZero z = true) :
    fadd z a = a := by
  rw [fadd_eq_roundUnits (isFinite_of_isZero hz) ha, value_of_isZero hz, zero_add, Bool.and_comm]
  exact roundUnits_self ha hne

theorem units_one : units one = 2 ^ 149 := by decide

/-- Multiplying by 1 leaves every finite value as it is, bit for bit. -/
theorem fmul_one {a : F32} (ha : isFinite a = true) : fmul a one = a := by
  rw [fmul_eq_roundUnits ha (by decide), units_one, show signBit one = false by decide, Bool.bne_false]
  exact roundUnits_exact a (isNaN_of_isFinite ha) _ (Nat.two_pow_pos _)

theorem isZero_fmul_posZero {a : F32} (ha : isFinite a = true) : isZero (fmul a posZero) = true := by
  rw [fmul_eq_roundUnits ha (by decide), show units posZero = 0 by decide, Nat.mul_zero, roundUnits,
    roundMag_zero (Nat.two_pow_pos _)]
  exact isZero_pack_zero _

end Sys2Proof.Machine
end

section
/-! The NCO: every wrap is exact (O39), and at rest the mixer is the identity (O38). -/

namespace Sys2Proof.Machine

/-! ## Exact wraps (R323) -/

theorem units_piF32 : units piF32 = 0xC90FDB * 2 ^ 127 := by decide

theorem units_twoPiF32 : units twoPiF32 = 2 * units piF32 := by decide

/-- From `PI_F32` on, the spacing of values is a multiple of that at `PI_F32`. -/
theorem spacing_dvd_units {p : F32} (h : units piF32 ≤ units p) : 2 ^ 127 ∣ units p := by
  rcases unitsOfMag_dvd_or_lt (magBits p) 127 with hd | ⟨-, hlt⟩
  · exact hd
  · rw [units_piF32] at h
    unfold units at h
    omega

/-- What is left of a magnitude between `PI_F32` and `TWO_PI_F32` when it is taken from `TWO_PI_F32` is a value: it is a
multiple of the spacing at `PI_F32` and not above `PI_F32`. -/
theorem exists_wrapped_value {p : F32} {x : Int} (hl : units piF32 ≤ units p) (hu : units p ≤ units twoPiF32)
    (hx : x.natAbs = units twoPiF32 - units p) : ∃ c, isFinite c = true ∧ value c = x := by
  obtain ⟨q, hq⟩ := spacing_dvd_units hl
  rw [units_twoPiF32, units_piF32] at hu hx
  rw [units_piF32] at hl
  have hj : x.natAbs = (2 * 0xC90FDB - q) * 2 ^ 127 := by rw [hx, hq]; omega
  have hmax : units piF32 ≤ units maxFinite := by decide
  refine exists_value hj (by omega) (le_trans ?_ hmax)
  rw [units_piF32, hx]
  omega

theorem wrap_from_above_exact {p : F32} (h : flt piF32 p = true) (hu : fle p twoPiF32 = true) :
    value (fsub p twoPiF32) = value p - value twoPiF32 := by
  obtain ⟨-, hn, hlt⟩ := (flt_iff _ _).mp h
  obtain ⟨-, -, hle⟩ := (fle_iff _ _).mp hu
  have hpi := value_belowPi
  have hp : value p = units p := by have := natAbs_value p; omega
  have hpiu : value piF32 = units piF32 := by decide
  have htwo : value twoPiF32 = units twoPiF32 := by decide
  have hf : isFinite p = true :=
    isFinite_of_magBits_le ((units_le_iff p twoPiF32).mp (by omega)) (by decide)
  obtain ⟨c, hc, hv⟩ := exists_wrapped_value (p := p) (x := value p - value twoPiF32) (by omega) (by omega) (by omega)
  obtain ⟨-, hr⟩ := fadd_exact hf (b := fneg twoPiF32) (by decide) hc (by rw [value_fneg, hv]; omega)
  exact hr.trans hv

theorem wrap_from_below_exact {p : F32} (h : fle p (fneg piF32) = true) (hl : fle (fneg twoPiF32) p = true) :
    value (fadd p twoPiF32) = value p + value twoPiF32 := by
  obtain ⟨-, -, hle⟩ := (fle_iff _ _).mp h
  obtain ⟨-, -, hge⟩ := (fle_iff _ _).mp hl
  rw [value_fneg] at hle hge
  have hpi := value_belowPi
  have hp : value p = -units p := by have := natAbs_value p; omega
  have hpiu : value piF32 = units piF32 := by decide
  have htwo : value twoPiF32 = units twoPiF32 := by decide
  have hf : isFinite p = true :=
    isFinite_of_magBits_le ((units_le_iff p twoPiF32).mp (by omega)) (by decide)
  obtain ⟨c, hc, hv⟩ := exists_wrapped_value (p := p) (x := value p + value twoPiF32) (by omega) (by omega) (by omega)
  obtain ⟨-, hr⟩ := fadd_exact hf (b := twoPiF32) (by decide) hc hv.symm
  exact hr.trans hv

/-- Settles O39: the bounds of the sum and of the wraps are the NCO's invariant, and a wrapped sum is a value, so the wrap
does not round. -/
theorem phaseStaysWrapped : Obligations.PhaseStaysWrapped := by
  intro phase inc hl hu hil hiu p
  obtain ⟨hsl, hsu⟩ := phase_sum_bounds hl hu hil hiu
  exact ⟨hsl, hsu, fun h => ⟨wrap_from_above_exact h hsu, wrap_from_above h hsu⟩,
    fun h => ⟨wrap_from_below_exact h hsl, wrap_from_below h hsl⟩, ncoAdvance_bounds hl hu hil hiu⟩

/-! ## The mixer at rest (R325) -/

/-- At phase `+0` the rotation multiplies by 1 and adds zeros (R322). -/
theorem rotate_posZero {x : C32} (hi : isFinite x.i = true) (hq : isFinite x.q = true) (hni : x.i ≠ negZero)
    (hnq : x.q ≠ negZero) : rotate posZero x = x := by
  have hcos : cos32 posZero = one := cos32_of_isZero (by decide)
  have hsin : sin32 posZero = posZero := sin32_of_isZero (by decide)
  rw [rotate, hcos, hsin, fmul_one hi, fmul_one hq, fsub,
    fadd_isZero_right hi hni (by rw [isZero_fneg]; exact isZero_fmul_posZero hq),
    fadd_isZero_left hq hnq (isZero_fmul_posZero hi)]

/-- Settles O38: the rotation by `+0`, and the two sums of zeros. -/
theorem ncoIdentity : Obligations.NcoIdentity :=
  fun _ hi hq hni hnq => ⟨rotate_posZero hi hq hni hnq, by decide, by decide⟩

end Sys2Proof.Machine
end

section
/-! The decimating FIR: how many outputs it gives (O35), and which (O36). -/

namespace Sys2Proof.Machine

/-! ## The delay line (R301, R305) -/

/-- Reading the delay line after a write: the written place holds the new value, every other place what it held. -/
theorem lineGet_lineSet {α : Type} (zero : α) (l : List α) (i j : Nat) (x : α) :
    lineGet zero (lineSet zero l i x) j = if j = i then x else lineGet zero l j := by
  unfold lineGet lineSet
  split
  · rename_i hi
    simp only [List.getD_eq_getElem?_getD, List.getElem?_set, hi, if_true]
    by_cases hj : j = i
    · simp [hj]
    · simp [hj, Ne.symm hj]
  · rename_i hi
    have hlen : (l ++ List.replicate (i - l.length) zero).length = i := by simp; omega
    rcases Nat.lt_trichotomy j i with hj | rfl | hj
    · rw [if_neg (by omega), List.getD_append _ _ _ _ (by omega)]
      rcases Nat.lt_or_ge j l.length with hjl | hjl
      · rw [List.getD_append _ _ _ _ hjl]
      · rw [List.getD_append_right _ _ _ _ hjl, List.getD_eq_default _ _ hjl, List.getD_replicate _ (by omega)]
    · rw [List.getD_append_right _ _ _ _ (by omega), hlen]
      simp
    · rw [if_neg (by omega), List.getD_eq_default _ _ (by rw [List.length_append, hlen]; simp; omega),
        List.getD_eq_default _ _ (by omega)]

theorem lineSet_length_le {α : Type} {zero : α} {l : List α} {i t : Nat} {x : α} (hl : l.length ≤ t) (hi : i < t) :
    (lineSet zero l i x).length ≤ t := by
  unfold lineSet
  split
  · simpa using hl
  · simp
    omega

@[simp] theorem firTaps_length {α : Type} (zero : α) (t : Nat) (f : Fir α) : (firTaps zero t f).length = t := by
  simp [firTaps]

theorem firTaps_cleared {α : Type} (zero : α) (t : Nat) : firTaps zero t Fir.cleared = List.replicate t zero := by
  simp [firTaps, lineGet, Fir.cleared, List.map_const']

/-- Taking an input in puts it before the others, and the oldest one falls off (R306). -/
theorem firTaps_firShift {α : Type} (zero : α) {t : Nat} {f : Fir α} (x : α) (h : f.pos < t) :
    firTaps zero t (firShift zero t f x) = (x :: firTaps zero t f).take t := by
  apply List.ext_getElem
  · simp
  · intro k hk _
    rw [firTaps_length] at hk
    simp only [firTaps, firShift, List.getElem_map, List.getElem_range, lineGet_lineSet, Nat.mod_add_mod,
      List.getElem_take]
    cases k with
    | zero =>
      have hpos : (f.pos + 1 + (t - 1 - 0)) % t = f.pos := by
        rw [show f.pos + 1 + (t - 1 - 0) = f.pos + t by omega, Nat.add_mod_right, Nat.mod_eq_of_lt h]
      rw [if_pos hpos, List.getElem_cons_zero]
    | succ k =>
      have hsame : f.pos + 1 + (t - 1 - (k + 1)) = f.pos + (t - 1 - k) := by omega
      have hother : (f.pos + (t - 1 - k)) % t ≠ f.pos := by
        rcases Nat.lt_or_ge (f.pos + (t - 1 - k)) t with hlt | hge
        · rw [Nat.mod_eq_of_lt hlt]; omega
        · rw [Nat.mod_eq_sub_mod hge, Nat.mod_eq_of_lt (by omega)]; omega
      rw [hsame, if_neg hother, List.getElem_cons_succ, List.getElem_map, List.getElem_range]

/-! ## One push (R306, R307) -/

/-- The common form of `FIR_PUSH_R` and `FIR_PUSH_C`: `out` is what they compute from the delay line. -/
def firPush {α β : Type} (zero : α) (out : List α → β) (r t : Nat) (f : Fir α) (x : α) : Fir α × Option β :=
  let g := firShift zero t f x
  if g.cnt = r then ({ g with cnt := 0 }, some (out (firTaps zero t g))) else (g, none)

/-- The output of the complex FIR (R307). -/
def innerProductC (h : List F32) (d : List C32) : C32 :=
  { i := innerProduct h (d.map C32.i), q := innerProduct h (d.map C32.q) }

theorem firPushR_eq (r t : Nat) (h : List F32) : firPushR r t h = firPush posZero (innerProduct h) r t := rfl

theorem firPushC_eq (r t : Nat) (h : List F32) : firPushC r t h = firPush C32.zero (innerProductC h) r t := rfl

section
variable {α β : Type} (zero : α) (out : List α → β) {r t : Nat}

/-- Everything a push can do: complete a group of `r` inputs and give an output, or only count. -/
theorem firPush_cases (f : Fir α) (x : α) :
    (f.cnt + 1 = r ∧ firPush zero out r t f x =
      ({ firShift zero t f x with cnt := 0 }, some (out (firTaps zero t (firShift zero t f x))))) ∨
    (f.cnt + 1 ≠ r ∧ firPush zero out r t f x = (firShift zero t f x, none)) := by
  by_cases h : f.cnt + 1 = r
  · exact Or.inl ⟨h, if_pos h⟩
  · exact Or.inr ⟨h, if_neg h⟩

/-- The counter counts modulo `r`, and an output comes where it wraps. -/
theorem firPush_cnt {f : Fir α} (h : f.cnt < r) (x : α) :
    (firPush zero out r t f x).1.cnt = (f.cnt + 1) % r ∧
      (firPush zero out r t f x).2.toList.length = (f.cnt + 1) / r := by
  rcases firPush_cases zero out (r := r) (t := t) f x with ⟨hr, e⟩ | ⟨hr, e⟩ <;> rw [e]
  · simp [hr, Nat.div_self (by omega : 0 < r)]
  · have hlt : f.cnt + 1 < r := by omega
    simp [firShift, Nat.mod_eq_of_lt hlt, Nat.div_eq_of_lt hlt]

/-- The output, where there is one, is computed from the newest input and the delay line before it. -/
theorem firPush_output {f : Fir α} (hc : f.cnt < r) (hp : f.pos < t) (x : α) :
    (firPush zero out r t f x).2 =
      if (f.cnt + 1) % r = 0 then some (out ((x :: firTaps zero t f).take t)) else none := by
  rcases firPush_cases zero out (r := r) (t := t) f x with ⟨hr, e⟩ | ⟨hr, e⟩ <;> rw [e]
  · rw [hr, Nat.mod_self, if_pos rfl, firTaps_firShift zero x hp]
  · rw [Nat.mod_eq_of_lt (by omega), if_neg (by omega)]

theorem firPush_pos (f : Fir α) (x : α) : (firPush zero out r t f x).1.pos = (f.pos + 1) % t := by
  rcases firPush_cases zero out (r := r) (t := t) f x with ⟨-, e⟩ | ⟨-, e⟩ <;> rw [e] <;> rfl

theorem firPush_taps {f : Fir α} (h : f.pos < t) (x : α) :
    firTaps zero t (firPush zero out r t f x).1 = (x :: firTaps zero t f).take t := by
  rw [← firTaps_firShift zero x h]
  rcases firPush_cases zero out (r := r) (t := t) f x with ⟨-, e⟩ | ⟨-, e⟩
  · rw [e]; rfl
  · rw [e]

/-- A push keeps position, counter and delay line in range (R301). -/
theorem firPush_inRange {f : Fir α} (h : f.inRange r t = true) (x : α) :
    (firPush zero out r t f x).1.inRange r t = true := by
  simp only [Fir.inRange, Bool.and_eq_true, decide_eq_true_eq] at h ⊢
  obtain ⟨⟨hp, hc⟩, hl⟩ := h
  refine ⟨⟨?_, ?_⟩, ?_⟩
  · rw [firPush_pos]
    exact Nat.mod_lt _ (by omega)
  · rw [(firPush_cnt zero out hc x).1]
    exact Nat.mod_lt _ (by omega)
  · have hset := lineSet_length_le (zero := zero) (x := x) hl hp
    rcases firPush_cases zero out (r := r) (t := t) f x with ⟨-, e⟩ | ⟨-, e⟩ <;> rw [e] <;> exact hset

/-! ## A stream of inputs -/

/-- The number of outputs of a stream, and the counter it leaves (R308). -/
theorem runStream_firPush_count {f : Fir α} (h : f.cnt < r) (xs : List α) :
    (runStream (firPush zero out r t) f xs).2.length = (f.cnt + xs.length) / r ∧
      (runStream (firPush zero out r t) f xs).1.cnt = (f.cnt + xs.length) % r := by
  induction xs generalizing f with
  | nil => exact ⟨(Nat.div_eq_of_lt h).symm, (Nat.mod_eq_of_lt h).symm⟩
  | cons x xs ih =>
    obtain ⟨hcnt, hout⟩ := firPush_cnt zero out (t := t) h x
    have hr : 0 < r := by omega
    obtain ⟨hlen, hrest⟩ := ih (f := (firPush zero out r t f x).1) (by rw [hcnt]; exact Nat.mod_lt _ hr)
    have hsplit : f.cnt + (xs.length + 1) = r * ((f.cnt + 1) / r) + ((f.cnt + 1) % r + xs.length) := by
      have := Nat.div_add_mod (f.cnt + 1) r
      omega
    simp only [runStream, List.length_append, List.length_cons]
    rw [hout, hlen, hrest, hcnt, hsplit, Nat.mul_add_div hr, Nat.mul_add_mod]
    exact ⟨rfl, rfl⟩

/-- The delay line after a stream: the newest inputs first, then what it held before (R306). -/
theorem runStream_firPush_taps {f : Fir α} (h : f.pos < t) (xs : List α) :
    (runStream (firPush zero out r t) f xs).1.pos < t ∧
      firTaps zero t (runStream (firPush zero out r t) f xs).1 = (xs.reverse ++ firTaps zero t f).take t := by
  induction xs generalizing f with
  | nil => exact ⟨h, by simp [runStream]⟩
  | cons x xs ih =>
    obtain ⟨hpos, htaps⟩ := ih (f := (firPush zero out r t f x).1)
      (by rw [firPush_pos]; exact Nat.mod_lt _ (by omega))
    refine ⟨hpos, ?_⟩
    rw [runStream, htaps, firPush_taps zero out h]
    simp [List.take_append, List.take_take]

/-- The first `t` of a list continued by zeros, one by one. -/
theorem take_append_replicate (l : List α) (t : Nat) :
    (l ++ List.replicate t zero).take t = (List.range t).map fun k => l.getD k zero := by
  apply List.ext_getElem
  · simp
  · intro k hk _
    have hkt : k < t := by simpa using hk
    rw [List.getElem_take, List.getElem_map, List.getElem_range]
    rcases Nat.lt_or_ge k l.length with hl | hl
    · rw [List.getElem_append_left hl, List.getD_eq_getElem _ _ hl]
    · rw [List.getElem_append_right hl, List.getElem_replicate, List.getD_eq_default _ _ hl]

/-- After a stream from a cleared FIR, the next input gives an output at every `r`-th place, computed from the last `t`
inputs (R305, R306). -/
theorem firPush_after_stream (hr : 0 < r) (ht : 0 < t) (xs : List α) (x : α) :
    (firPush zero out r t (runStream (firPush zero out r t) Fir.cleared xs).1 x).2 =
      if (xs.length + 1) % r = 0 then some (out ((List.range t).map fun k => (x :: xs.reverse).getD k zero))
      else none := by
  obtain ⟨-, hcnt⟩ := runStream_firPush_count zero out (r := r) (t := t) (f := Fir.cleared) hr xs
  obtain ⟨hpos, htaps⟩ := runStream_firPush_taps zero out (r := r) (t := t) (f := Fir.cleared) ht xs
  rw [show (Fir.cleared : Fir α).cnt = 0 from rfl, Nat.zero_add] at hcnt
  rw [firPush_output zero out (by rw [hcnt]; exact Nat.mod_lt _ hr) hpos, hcnt, Nat.mod_add_mod, htaps,
    firTaps_cleared, ← take_append_replicate]
  simp [List.take_cons ht, List.take_take]

end

/-- Settles O35: the count of a stream, for both forms. -/
theorem firOutputCount : Obligations.FirOutputCount :=
  ⟨fun r t h _ xs hc => firPushR_eq r t h ▸ runStream_firPush_count _ _ hc xs,
    fun r t h _ xs hc => firPushC_eq r t h ▸ runStream_firPush_count _ _ hc xs⟩

/-- Settles O36: the delay line holds the last inputs, for both forms. -/
theorem firOutputIsInnerProduct : Obligations.FirOutputIsInnerProduct := by
  constructor
  · intro r t h xs x hr ht
    exact firPush_after_stream posZero (innerProduct h) hr ht xs x
  · intro r t h xs x hr ht
    have hout := firPush_after_stream C32.zero (innerProductC h) hr ht xs x
    rw [innerProductC, List.map_map, List.map_map] at hout
    exact hout

end Sys2Proof.Machine
end

section
/-! One sample through the demodulation chain (O60), and the tap counts of the two stages (O15). -/

namespace Sys2Proof.Machine

/-! ## The detectors and the audio output (R501, R510, R511) -/

theorem detect_fm {d : Demod} (h : d.actMod = 0) (z : C32) :
    detect z d = ({ d with discPrev := z }, disc z d.discPrev) := by
  rw [detect, h]
  rfl

theorem detect_am {d : Demod} (h : d.actMod = 1) (z : C32) :
    detect z d = ({ d with amDcb := dcbStepR d.alphaAct d.amDcb (envelope z) },
      (dcbStepR d.alphaAct d.amDcb (envelope z)).yp) := by
  rw [detect, h]
  rfl

theorem audioOut_fm {d : Demod} (h : d.actMod = 0) (o : F32) :
    audioOut o d =
      ({ d with deYp := deemphStep d.deemphA d.deYp o }, fmul (deemphStep d.deemphA d.deYp o) d.volAct) := by
  rw [audioOut, h]
  rfl

theorem audioOut_am {d : Demod} (h : d.actMod = 1) (o : F32) : audioOut o d = (d, fmul o d.volAct) := by
  rw [audioOut, h]
  rfl

/-- The discriminator with its test for the origin as a proposition. -/
theorem disc_eq (z p : C32) :
    disc z p =
      let re := fadd (fmul z.i p.i) (fmul z.q p.q)
      let im := fsub (fmul z.q p.i) (fmul z.i p.q)
      if feq re posZero = true ∧ feq im posZero = true then posZero else atan2 im re := by
  simp only [disc, Bool.and_eq_true]

/-! ## The three ways a sample can go (R501) -/

/-- Stage 1 on the mixed sample (R307, R322). -/
def stage1 (h1 : List F32) (d : Demod) (x : C32) : Fir C32 × Option C32 :=
  firPushC d.r1.toNat d.t1.toNat h1 d.fir1 (rotate d.ncoPhase x)

/-- The engine after mixer and stage 1: the phase advanced, the sample taken in. -/
def mixed (h1 : List F32) (d : Demod) (x : C32) : Demod :=
  { d with ncoPhase := ncoAdvance d.ncoPhase d.ncoInc, fir1 := (stage1 h1 d x).1 }

/-- Stage 2 on a detected sample (R306). -/
def stage2 (h2 : List F32) (d : Demod) (o : F32) : Fir F32 × Option F32 :=
  firPushR d.r2.toNat d.t2.toNat h2 d.fir2 o

/-- The engine after detector and stage 2, from an output `z` of stage 1. -/
def detected (h1 h2 : List F32) (d : Demod) (x z : C32) : Demod :=
  { (detect z (mixed h1 d x)).1 with fir2 := (stage2 h2 d (detect z (mixed h1 d x)).2).1 }

section
variable {h1 h2 : List F32} {d : Demod} {x : C32}

theorem processSample_of_no_stage1 (h : (stage1 h1 d x).2 = none) :
    processSample h1 h2 d x = (mixed h1 d x, none) := by
  have hfirst : firPushC d.r1.toNat d.t1.toNat h1 d.fir1 (rotate d.ncoPhase x) = ((stage1 h1 d x).1, none) :=
    Prod.ext rfl h
  simp only [processSample, hfirst]
  rfl

/-- After an output of stage 1 the sample goes on through the detector and stage 2. -/
theorem processSample_of_stage1 {z : C32} (h : (stage1 h1 d x).2 = some z) :
    processSample h1 h2 d x =
      let p := detect z (mixed h1 d x)
      match firPushR d.r2.toNat d.t2.toNat h2 d.fir2 p.2 with
      | (f2, none) => ({ p.1 with fir2 := f2 }, none)
      | (f2, some v) => ((audioOut v { p.1 with fir2 := f2 }).1, some (audioOut v { p.1 with fir2 := f2 }).2) := by
  have hfirst : firPushC d.r1.toNat d.t1.toNat h1 d.fir1 (rotate d.ncoPhase x) = ((stage1 h1 d x).1, some z) :=
    Prod.ext rfl h
  simp only [processSample, hfirst]
  rfl

theorem processSample_of_no_stage2 {z : C32} (h : (stage1 h1 d x).2 = some z)
    (hs : (stage2 h2 d (detect z (mixed h1 d x)).2).2 = none) :
    processSample h1 h2 d x = (detected h1 h2 d x z, none) := by
  have hsecond : firPushR d.r2.toNat d.t2.toNat h2 d.fir2 (detect z (mixed h1 d x)).2 =
      ((stage2 h2 d (detect z (mixed h1 d x)).2).1, none) := Prod.ext rfl hs
  simp only [processSample_of_stage1 h, hsecond]
  rfl

theorem processSample_of_stage2 {z : C32} {v : F32} (h : (stage1 h1 d x).2 = some z)
    (hs : (stage2 h2 d (detect z (mixed h1 d x)).2).2 = some v) :
    processSample h1 h2 d x =
      ((audioOut v (detected h1 h2 d x z)).1, some (audioOut v (detected h1 h2 d x z)).2) := by
  have hsecond : firPushR d.r2.toNat d.t2.toNat h2 d.fir2 (detect z (mixed h1 d x)).2 =
      ((stage2 h2 d (detect z (mixed h1 d x)).2).1, some v) := Prod.ext rfl hs
  simp only [processSample_of_stage1 h, hsecond]
  rfl

/-- What follows an output `z` of stage 1. -/
theorem processSample_after_stage1 {z : C32} (h : (stage1 h1 d x).2 = some z) :
    ((stage2 h2 d (detect z (mixed h1 d x)).2).2 = none → processSample h1 h2 d x = (detected h1 h2 d x z, none)) ∧
    ∀ v, (stage2 h2 d (detect z (mixed h1 d x)).2).2 = some v → processSample h1 h2 d x =
      ((audioOut v (detected h1 h2 d x z)).1, some (audioOut v (detected h1 h2 d x z)).2) :=
  ⟨processSample_of_no_stage2 h, fun _ => processSample_of_stage2 h⟩

end

/-- Settles O60: the three ways a sample can go, with the detector and the audio output of each kind. -/
theorem sampleChain : Obligations.SampleChain := by
  refine ⟨fun h1 h2 d x hmod => ?_, fun _ _ _ => rfl, fun _ _ _ _ _ => rfl⟩
  refine ⟨fun h => processSample_of_no_stage1 h, fun z hz => ?_⟩
  obtain ⟨hnone, hsome⟩ := processSample_after_stage1 (h2 := h2) hz
  have hmod1 : (mixed h1 d x).actMod = d.actMod := rfl
  rcases hmod with hm | hm
  · simp only [detected, detect_fm (hmod1.trans hm), disc_eq] at hnone hsome
    simp only [if_pos hm]
    exact ⟨hnone, fun v hv => (hsome v hv).trans (by rw [audioOut_fm]; exacts [rfl, hm])⟩
  · have hne : d.actMod ≠ 0 := by rw [hm]; decide
    simp only [detected, detect_am (hmod1.trans hm)] at hnone hsome
    simp only [if_neg hne]
    exact ⟨hnone, fun v hv => (hsome v hv).trans (by rw [audioOut_am]; exacts [rfl, hm])⟩

/-! ## Tap counts (R302, R494, R495) -/

theorem tapCount_odd (r : Nat) : tapCount r % 2 = 1 := by
  unfold tapCount
  omega

theorem le_tapCount (r : Nat) : 15 ≤ tapCount r := Nat.le_max_left _ _

theorem firTMax_lt_tapCount_iff (r : Nat) : 4096 < tapCount r ↔ 1024 ≤ r := by
  unfold tapCount
  omega

theorem one_le_stage1Factor (mod : Word) (fs : F32) : 1 ≤ stage1Factor mod fs := Nat.le_max_left _ _

/-- From factor 1024 on the first check of a build fails (R495). -/
theorem rebuildDesigns_of_large {mod : Word} {fs : F32} (tau : F32) (h : 1024 ≤ stage1Factor mod fs) :
    rebuildDesigns mod fs tau = .error 1 := if_pos ((firTMax_lt_tapCount_iff _).mpr h)

/-- Settles O15: the shape of the tap count and the first check of a build; the named counts are evaluated. -/
theorem tapCountsAndLimit : Obligations.TapCountsAndLimit :=
  ⟨fun r => ⟨tapCount_odd r, le_tapCount r, firTMax_lt_tapCount_iff r⟩, by decide, by decide, by decide, by decide,
    by decide, by decide, fun mod fs tau => ⟨one_le_stage1Factor mod fs, rebuildDesigns_of_large tau⟩⟩

end Sys2Proof.Machine
end

section
/-! Every step keeps both engines in agreement with their active configuration (O58). -/

namespace Sys2Proof.Machine

/-! ## DEMOD: the filters stay in range (R301) -/

theorem Fir.cleared_inRange {α : Type} {r t : Nat} (hr : 0 < r) (ht : 0 < t) :
    (Fir.cleared : Fir α).inRange r t = true := by
  simp [Fir.inRange, Fir.cleared, hr, ht]

/-- What a sample leaves of the two filters: stage 1 has taken the sample in, stage 2 has taken an input in or not. -/
theorem processSample_filters (h1 h2 : List F32) (d : Demod) (x : C32) :
    (processSample h1 h2 d x).1.fir1 = (stage1 h1 d x).1 ∧
      ((processSample h1 h2 d x).1.fir2 = d.fir2 ∨
        ∃ o, (processSample h1 h2 d x).1.fir2 = (stage2 h2 d o).1) := by
  cases hz : (stage1 h1 d x).2 with
  | none =>
    rw [processSample_of_no_stage1 hz]
    exact ⟨rfl, Or.inl rfl⟩
  | some z =>
    have hfir : (detected h1 h2 d x z).fir1 = (stage1 h1 d x).1 := by rw [detected, detect_frame]; rfl
    cases hv : (stage2 h2 d (detect z (mixed h1 d x)).2).2 with
    | none =>
      rw [processSample_of_no_stage2 hz hv]
      exact ⟨hfir, Or.inr ⟨_, rfl⟩⟩
    | some v =>
      rw [processSample_of_stage2 hz hv, audioOut_frame]
      exact ⟨hfir, Or.inr ⟨_, rfl⟩⟩

/-- Both filters of an engine are in range for its factors and tap counts. -/
def Demod.FiltersInRange (d : Demod) : Prop :=
  d.fir1.inRange d.r1.toNat d.t1.toNat = true ∧ d.fir2.inRange d.r2.toNat d.t2.toNat = true

theorem processSample_filtersInRange {d : Demod} (h : d.FiltersInRange) (h1 h2 : List F32) (x : C32) :
    (processSample h1 h2 d x).1.FiltersInRange := by
  obtain ⟨hr1, hr2⟩ := h
  obtain ⟨hfir1, hfir2⟩ := processSample_filters h1 h2 d x
  have hstage2 : (processSample h1 h2 d x).1.fir2.inRange d.r2.toNat d.t2.toNat = true := by
    rcases hfir2 with e | ⟨o, e⟩ <;> rw [e]
    · exact hr2
    · exact firPush_inRange posZero (innerProduct h2) hr2 o
  have hstage1 := firPush_inRange C32.zero (innerProductC h1) hr1 (rotate d.ncoPhase x)
  unfold Demod.FiltersInRange
  rw [hfir1]
  rw [processSample_frame]
  exact ⟨hstage1, hstage2⟩

theorem processAll_filtersInRange {d : Demod} (h : d.FiltersInRange) (h1 h2 : List F32) (xs : List C32) :
    (processAll h1 h2 d xs).1.FiltersInRange := by
  induction xs generalizing d with
  | nil => exact h
  | cons x xs ih => exact ih (processSample_filtersInRange h h1 h2 x)

/-! ## DEMOD: agreement with the active configuration (R494) -/

/-- What `EnginesConsistent` says of DEMOD. -/
structure Demod.Consistent (d : Demod) : Prop where
  configured : d.valid = true → d.Configured
  unbuilt : d.valid = false → d.Unbuilt
  audio : d.audCount.toNat ≤ Config.iqDepth

/-- The registers of the active configuration (R47) on their own. -/
def Demod.active (d : Demod) : Demod :=
  { Demod.reset with
    valid := d.valid, actMod := d.actMod, actFs := d.actFs, actTau := d.actTau, r1 := d.r1, r2 := d.r2, t1 := d.t1,
    t2 := d.t2, fint := d.fint, faud := d.faud, c1 := d.c1, c2 := d.c2, deemphA := d.deemphA }

theorem Demod.Derived.of_active {d e : Demod} (h : d.Derived) (ha : e.active = d.active) : e.Derived := by
  have hd : d.active.Derived := ⟨h.r1, h.r2, h.t1, h.t2, h.fint, h.faud, h.c1, h.c2, h.deemphA⟩
  rw [← ha] at hd
  exact ⟨hd.r1, hd.r2, hd.t1, hd.t2, hd.fint, hd.faud, hd.c1, hd.c2, hd.deemphA⟩

theorem Demod.Configured.of_active {d e : Demod} (h : d.Configured) (ha : e.active = d.active)
    (hf : e.FiltersInRange) : e.Configured := by
  have hlegal : e.active.activeLegal = true := ha ▸ h.legal
  exact ⟨hlegal, h.derived.of_active ha, hf.1, hf.2⟩

theorem Demod.Configured.filtersInRange {d : Demod} (h : d.Configured) : d.FiltersInRange := ⟨h.fir1, h.fir2⟩

theorem stage2Factor_pos (mod : Word) : 0 < stage2Factor mod := by
  unfold stage2Factor
  split <;> decide

/-- Cleared filters are in range for every built configuration. -/
theorem Demod.Derived.cleared_inRange {d : Demod} (h : d.Derived) (h1 : d.fir1 = Fir.cleared)
    (h2 : d.fir2 = Fir.cleared) : d.FiltersInRange := by
  unfold Demod.FiltersInRange
  rw [h1, h2, h.r1, h.r2, h.t1, h.t2]
  exact ⟨Fir.cleared_inRange (one_le_stage1Factor _ _) (lt_of_lt_of_le (by decide) (le_tapCount _)),
    Fir.cleared_inRange (stage2Factor_pos _) (lt_of_lt_of_le (by decide) (le_tapCount _))⟩

/-- An update that leaves active configuration and filters alone. -/
theorem Demod.Consistent.of_active {d e : Demod} (h : d.Consistent) (ha : e.active = d.active)
    (h1 : e.fir1 = d.fir1) (h2 : e.fir2 = d.fir2) (hc : e.audCount.toNat ≤ Config.iqDepth) : e.Consistent := by
  have hv : e.valid = d.valid := (congrArg Demod.valid ha :)
  have hr1 : e.r1 = d.r1 := (congrArg Demod.r1 ha :)
  have hr2 : e.r2 = d.r2 := (congrArg Demod.r2 ha :)
  have ht1 : e.t1 = d.t1 := (congrArg Demod.t1 ha :)
  have ht2 : e.t2 = d.t2 := (congrArg Demod.t2 ha :)
  refine ⟨fun he => ?_, fun he => ?_, hc⟩
  · have hconf := h.configured (hv ▸ he)
    refine hconf.of_active ha ?_
    rw [Demod.FiltersInRange, h1, h2, hr1, hr2, ht1, ht2]
    exact hconf.filtersInRange
  · obtain ⟨ht, hr, hf1, hf2⟩ := h.unbuilt (hv ▸ he)
    exact ⟨by rwa [ht1, ht2], by rwa [hr1, hr2], h1.trans hf1, h2.trans hf2⟩

/-- An update of shadows and pending flags. -/
theorem Demod.Consistent.of_withoutShadows {d e : Demod} (h : d.Consistent)
    (he : e.withoutShadows = d.withoutShadows) : e.Consistent := by
  have hcount : e.audCount = d.audCount := (congrArg Demod.audCount he :)
  exact h.of_active (congrArg Demod.active he :) (congrArg Demod.fir1 he :) (congrArg Demod.fir2 he :)
    (hcount ▸ h.audio)

/-! ## DEMOD: the step of a `DM_RUN` (R491) -/

theorem Demod.Consistent.clearAll {d : Demod} (h : d.Consistent) : (dmClearAll d).Consistent := by
  refine ⟨fun hv => ?_, fun hv => ?_, h.audio⟩
  · have hconf := h.configured hv
    have hd : (dmClearAll d).Derived := hconf.derived.of_active rfl
    exact hconf.of_active rfl (hd.cleared_inRange rfl rfl)
  · obtain ⟨ht, hr, -, -⟩ := h.unbuilt hv
    exact ⟨ht, hr, rfl, rfl⟩

/-- The factors of a build that succeeds fit their registers. -/
theorem rebuiltDemod_derived {mod : Word} {fs : F32} (tau : F32) (d : Demod)
    (h : tapCount (stage1Factor mod fs) ≤ Config.firTMax) : (rebuiltDemod mod fs tau d).Derived := by
  have hsmall : stage1Factor mod fs < 1024 := Nat.lt_of_not_le fun hge =>
    absurd ((firTMax_lt_tapCount_iff _).mpr hge) (Nat.not_lt.mpr h)
  have htap2 := tapCount_stage2 mod
  have hr2 : stage2Factor mod ≤ 8 := by unfold stage2Factor; split <;> decide
  refine ⟨?_, ?_, ?_, ?_, rfl, rfl, rfl, rfl, rfl⟩ <;>
    simp only [rebuiltDemod, BitVec.toNat_ofNat, Config.firTMax] at h ⊢ <;> omega

/-- A build that succeeds leaves the engine in agreement with it (R496). -/
theorem rebuiltDemod_configured {mod : Word} {fs tau : F32} {designs : List F32 × List F32} (d : Demod)
    (hmod : legalValue .dmMod mod = true) (hfs : legalValue .dmFs fs = true) (htau : legalValue .dmTau tau = true)
    (h : rebuildDesigns mod fs tau = .ok designs) : (rebuiltDemod mod fs tau d).Configured := by
  obtain ⟨htaps, -⟩ := rebuildDesigns_ok h
  have hd := rebuiltDemod_derived tau d htaps
  obtain ⟨hr1, hr2⟩ := hd.cleared_inRange rfl rfl
  refine ⟨?_, hd, hr1, hr2⟩
  show (legalValue .dmMod mod && legalValue .dmFs fs && legalValue .dmTau tau &&
    decide (tapCount (stage1Factor mod fs) ≤ Config.firTMax)) = true
  rw [hmod, hfs, htau, decide_eq_true htaps]
  rfl

theorem Demod.Consistent.dmRunConfigured {s : State} (h : s.dm.Consistent) {c : DmRun} (hc : c.legal = true) :
    (dmRunConfigured c s).dm.Consistent := by
  have hr : (dmRunReset c s).dm.Consistent := by
    unfold dmRunReset
    split
    · exact h.clearAll
    · exact h
  simp only [DmRun.legal, Bool.and_eq_true, and_assoc] at hc
  obtain ⟨-, hmod, hfs, htau, -⟩ := hc
  unfold Machine.dmRunConfigured
  dsimp only
  split
  · rcases rebuild_cases c.mod c.fs c.tau (dmRunReset c s) with ⟨r, -, e⟩ | ⟨h1, h2, hok, e⟩ <;> rw [e]
    · rw [raise_dm]; exact hr
    · exact ⟨fun _ => rebuiltDemod_configured _ hmod hfs htau hok, fun hv => absurd hv (by simp [rebuiltDemod]), hr.audio⟩
  · exact hr

/-- The samples of a run leave the active configuration, and the filters in range (R501, R502). -/
theorem Demod.Consistent.dmRunProcess {s : State} (h : s.dm.Consistent) (hv : s.dm.valid = true) {c : DmRun}
    (hn : c.n ≤ Config.iqDepth) : (dmRunProcess c s).dm.Consistent := by
  have hconf := h.configured hv
  have hframe := processAll_frame (s.mem.block .dmH1 (dmRunTuned c s.dm).t1.toNat)
    (s.mem.block .dmH2 (dmRunTuned c s.dm).t2.toNat) (dmRunTuned c s.dm) (iqSamples s.mem .dmIq c.n)
  have hfilters := processAll_filtersInRange (d := dmRunTuned c s.dm) hconf.filtersInRange
    (s.mem.block .dmH1 (dmRunTuned c s.dm).t1.toNat) (s.mem.block .dmH2 (dmRunTuned c s.dm).t2.toNat)
    (iqSamples s.mem .dmIq c.n)
  have hlen := processAll_length_le (s.mem.block .dmH1 (dmRunTuned c s.dm).t1.toNat)
    (s.mem.block .dmH2 (dmRunTuned c s.dm).t2.toNat) (dmRunTuned c s.dm) (iqSamples s.mem .dmIq c.n)
  rw [iqSamples_length] at hlen
  unfold Machine.dmRunProcess
  dsimp only [setDm_dm]
  generalize processAll _ _ (dmRunTuned c s.dm) _ = p at *
  have hvalid : p.1.valid = true := (congrArg Demod.valid hframe).trans hv
  refine ⟨fun _ => hconf.of_active (congrArg Demod.active hframe :) hfilters, fun hn => ?_, ?_⟩
  · exact absurd hn (by simp [hvalid])
  · exact le_trans (BitVec.toNat_ofNat .. ▸ Nat.mod_le _ _) (hlen.trans hn)

theorem Demod.Consistent.completeDemod {s : State} (h : s.dm.Consistent)
    (hl : s.dm.pending.all DmRun.legal = true) : (completeDemod s).dm.Consistent := by
  cases hp : s.dm.pending with
  | none => rw [completeDemod_idle hp]; exact h
  | some c =>
    have hc : c.legal = true := by simpa [hp] using hl
    have hcompute : (dmRunCompute c s).dm.Consistent := by
      have hconf := h.dmRunConfigured hc
      unfold dmRunCompute
      dsimp only
      split
      · exact hconf.dmRunProcess ‹_› (DmRun.legal_count hc)
      · exact hconf.of_active rfl rfl rfl (Nat.zero_le _)
    rw [completeDemod_busy hp]
    exact hcompute.of_active rfl rfl rfl hcompute.audio

theorem Demod.reset_consistent : Demod.reset.Consistent :=
  ⟨fun h => absurd h (by decide), fun _ => ⟨⟨rfl, rfl⟩, ⟨rfl, rfl⟩, rfl, rfl⟩, Nat.zero_le _⟩

/-- Every operation keeps DEMOD consistent; only its completion needs the latched command to be legal. -/
theorem demodConsistent_kept : Kept fun s => RegistersLegal s ∧ s.dm.Consistent where
  schedule h l := ⟨registersLegal_kept.schedule h.1 l, h.2⟩
  rdata h v := ⟨registersLegal_kept.rdata h.1 v, h.2⟩
  raised {s} h c info := ⟨h.1.raise c info, by rw [raise_dm]; exact h.2⟩
  written {s _ v place} h ho :=
    ⟨registersLegal_kept.written h.1 ho, h.2.of_withoutShadows (writeTarget_withoutShadows place v s)⟩
  dmReset h := ⟨registersLegal_kept.dmReset h.1, h.2.of_active rfl rfl rfl h.2.audio⟩
  dmRun h hn := ⟨registersLegal_kept.dmRun h.1 hn, h.2.of_active rfl rfl rfl h.2.audio⟩
  spReset h := ⟨registersLegal_kept.spReset h.1, h.2⟩
  spPrep h := ⟨registersLegal_kept.spPrep h.1, h.2⟩
  spPost h := ⟨registersLegal_kept.spPost h.1, h.2⟩
  spStats h := ⟨registersLegal_kept.spStats h.1, h.2⟩
  demod h := ⟨h.1.completeDemod, h.2.completeDemod h.1.demodLatched⟩
  spec {s} h := ⟨h.1.completeSpec, (completeSpec_frame s).1 ▸ h.2⟩
  reset {s} _ := ⟨resetBlock_registersLegal s, Demod.reset_consistent⟩

/-! ## SPEC: the peak list (R446) -/

theorem mem_insertDescending {p q : Peak} {ps : List Peak} :
    q ∈ insertDescending p ps ↔ q = p ∨ q ∈ ps := by
  induction ps with
  | nil => simp [insertDescending]
  | cons r rs ih =>
    rw [insertDescending]
    split
    · simp
    · simp only [List.mem_cons, ih]
      tauto

/-- A list as the scan of a frame of at most `NMAX` bins keeps it: besides what R446 asks, no power is NaN. -/
structure ScannedPeaks (ps : List Peak) : Prop extends PeakListOk ps where
  numbers : ∀ p ∈ ps, isNaN p.pwr = false

theorem fle_of_not_flt {a b : F32} (ha : isNaN a = false) (hb : isNaN b = false) (h : ¬ flt a b = true) :
    fle b a = true := by
  rw [flt_iff] at h
  simp only [ha, hb, true_and, not_lt] at h
  exact (fle_iff _ _).mpr ⟨hb, ha, h⟩

theorem insertDescending_descending {p : Peak} {ps : List Peak} (hp : isNaN p.pwr = false)
    (hn : ∀ q ∈ ps, isNaN q.pwr = false) (h : ps.Pairwise fun p q => fle q.pwr p.pwr = true) :
    (insertDescending p ps).Pairwise fun p q => fle q.pwr p.pwr = true := by
  induction ps with
  | nil => exact List.pairwise_singleton _ _
  | cons q qs ih =>
    obtain ⟨hq, hqs⟩ := List.pairwise_cons.mp h
    rw [insertDescending]
    split
    · rename_i hlt
      refine List.pairwise_cons.mpr ⟨fun r hr => ?_, h⟩
      rcases List.mem_cons.mp hr with rfl | hr
      · exact fle_of_flt hlt
      · exact fle_trans (hq r hr) (fle_of_flt hlt)
    · rename_i hlt
      refine List.pairwise_cons.mpr ⟨fun r hr => ?_, ih (fun r hr => hn r (List.mem_cons_of_mem _ hr)) hqs⟩
      rcases mem_insertDescending.mp hr with rfl | hr
      · exact fle_of_not_flt (hn q List.mem_cons_self) hp hlt
      · exact hq r hr

theorem ScannedPeaks.insertPeak {ps : List Peak} (h : ScannedPeaks ps) {k : Nat} {v : F32}
    (hk : 1 ≤ k ∧ k + 2 ≤ Config.nMax) (hv : isNaN v = false) : ScannedPeaks (insertPeak k v ps) := by
  have hmem : ∀ p ∈ Machine.insertPeak k v ps, p = { bin := k, pwr := v } ∨ p ∈ ps := fun p hp =>
    mem_insertDescending.mp (List.mem_of_mem_take hp)
  refine ⟨⟨?_, fun p hp => ?_, ?_⟩, fun p hp => ?_⟩
  · rw [Machine.insertPeak, List.length_take]
    exact Nat.min_le_left _ _
  · rcases hmem p hp with rfl | hp
    · exact hk
    · exact h.bins p hp
  · exact (insertDescending_descending (p := { bin := k, pwr := v }) hv h.numbers h.descending).sublist
      (List.take_sublist _ _)
  · rcases hmem p hp with rfl | hp
    · exact hv
    · exact h.numbers p hp

theorem candidate_range {d : List F32} {thr : F32} {k : Nat} (h : candidate d thr k = true) :
    1 ≤ k ∧ k + 2 ≤ d.length ∧ isNaN (binAt d k) = false := by
  simp only [candidate, Bool.and_eq_true, decide_eq_true_eq, flt_iff] at h
  obtain ⟨⟨⟨⟨hk, hlen⟩, -, hn, -⟩, -⟩, -⟩ := h
  exact ⟨hk, hlen, hn⟩

theorem ScannedPeaks.scanPeaks {d : List F32} (hd : d.length ≤ Config.nMax) (thr : F32) (sep : Nat) (ks : List Nat)
    {last : Option Nat} {ps : List Peak} (h : ScannedPeaks ps) : ScannedPeaks (scanPeaks d thr sep ks last ps) := by
  induction ks generalizing last ps with
  | nil => exact h
  | cons k ks ih =>
    rw [Machine.scanPeaks]
    split
    · exact ih h
    · rename_i hc
      simp only [Bool.or_eq_true, not_or, Bool.not_eq_true, Bool.not_eq_false'] at hc
      obtain ⟨hk, hlen, hn⟩ := candidate_range hc.1
      exact ih (h.insertPeak ⟨hk, by omega⟩ hn)

/-- The peaks of a frame of at most `NMAX` bins are a list as R446 keeps it. -/
theorem framePeaks_ok {d : List F32} (hd : d.length ≤ Config.nMax) (sep : Nat) : PeakListOk (framePeaks d sep) :=
  (ScannedPeaks.scanPeaks hd _ sep _ (ps := []) ⟨⟨by simp, by simp, .nil⟩, by simp⟩).toPeakListOk

/-! ## SPEC: agreement with the active configuration (R377, R378) -/

/-- What `EnginesConsistent` says of SPEC. -/
structure Spec.Consistent (e : Spec) : Prop where
  windowed : e.valid = true → e.activeLegal = true
  unwindowed : e.valid = false → e.actN = 0
  firstPrep : e.valid = false → e.dirtyN = true ∨ e.pending.any regeneratesSize = true
  window : e.pending.any needsWindow = true → e.valid = true
  averaging : e.emaInit = true → e.valid = true
  holding : e.holdInit = true → e.emaInit = true
  peaks : PeakListOk e.stPeaks

theorem enginesConsistent_iff (s : State) : EnginesConsistent s ↔ s.dm.Consistent ∧ s.sp.Consistent := by
  constructor
  · intro h
    exact ⟨⟨h.configured, h.unbuilt, h.audio⟩,
      ⟨h.windowed, h.unwindowed, h.firstPrep, h.window, h.averaging, h.holding, h.peaks⟩⟩
  · rintro ⟨hd, he⟩
    exact ⟨hd.configured, hd.unbuilt, hd.audio, he.windowed, he.unwindowed, he.firstPrep, he.window, he.averaging,
      he.holding, he.peaks⟩

/-- A write changes of SPEC what the HOST configures and the correction, and `SP_N` sets its dirty flag (R48). -/
theorem Spec.Consistent.writeTarget {s : State} (h : s.sp.Consistent) (place : Target) (v : Word) :
    (writeTarget place v s).sp.Consistent := by
  obtain ⟨hwin, hunwin, hfirst, hneed, havg, hhold, hpeaks⟩ := h
  cases place with
  | ram w a => exact ⟨hwin, hunwin, hfirst, hneed, havg, hhold, hpeaks⟩
  | reg r =>
    cases r with
    | status =>
      rcases writeStatus_eq v s with e | e <;> rw [Machine.writeTarget, writeReg, e] <;>
        exact ⟨hwin, hunwin, hfirst, hneed, havg, hhold, hpeaks⟩
    | spN => exact ⟨hwin, hunwin, fun _ => Or.inl rfl, hneed, havg, hhold, hpeaks⟩
    | _ => exact ⟨hwin, hunwin, hfirst, hneed, havg, hhold, hpeaks⟩

/-! ## SPEC: acceptance (R203, R378) -/

theorem acceptSpPrep_consistent {s : State} (h : s.sp.Consistent) (hp : s.sp.pending = none) :
    (acceptSpPrep s).sp.Consistent := by
  refine ⟨h.windowed, h.unwindowed, fun hv => Or.inr ?_, fun hw => absurd hw Bool.false_ne_true, h.averaging, h.holding,
    h.peaks⟩
  have := h.firstPrep hv
  show s.sp.dirtyN = true
  simpa [hp] using this

/-- A command that needs a window is accepted only after a regeneration (R378). -/
theorem accepted_consistent {e : Spec} (h : e.Consistent) (hv : e.valid = true) (c : SpCmd) :
    Spec.Consistent { e with pending := some c } :=
  ⟨h.windowed, h.unwindowed, fun hn => absurd hn (by simp [hv]), fun _ => hv, h.averaging, h.holding, h.peaks⟩

theorem Spec.reset_consistent : Spec.reset.Consistent :=
  ⟨fun h => absurd h (by decide), fun _ => rfl, fun _ => Or.inl rfl, fun h => absurd h (by decide),
    fun h => absurd h (by decide), fun h => absurd h (by decide), ⟨by decide, by simp [Spec.reset], .nil⟩⟩

theorem Spec.Consistent.exec {i : Instr} {s t : State} (h : s.sp.Consistent) (he : exec i s = .next t) :
    t.sp.Consistent := by
  have hraise : ∀ c info, (raise c info s).sp.Consistent := fun c info => by rw [raise_sp]; exact h
  cases i with
  | nop => cases he; exact h
  | softReset => cases he; exact Spec.reset_consistent
  | dmReset => cases he; exact h
  | spReset => cases he; exact ⟨h.windowed, h.unwindowed, h.firstPrep, h.window, h.averaging, h.holding, h.peaks⟩
  | dmRun n =>
    rcases exec_dmRun_cases n s with ⟨-, e⟩ | ⟨-, -, e⟩ | ⟨-, -, e⟩ <;> rw [e] at he <;> cases he
    · exact hraise _ _
    · exact hraise _ _
    · exact h
  | spPrep =>
    rcases exec_spPrep_cases s with ⟨-, e⟩ | ⟨hp, e⟩ <;> rw [e] at he <;> cases he
    · exact hraise _ _
    · exact acceptSpPrep_consistent h hp
  | spPost =>
    rcases exec_spPost_cases s with ⟨-, e⟩ | ⟨-, -, e⟩ | ⟨-, hv, e⟩ <;> rw [e] at he <;> cases he
    · exact hraise _ _
    · exact hraise _ _
    · exact accepted_consistent h hv _
  | spStats =>
    rcases exec_spStats_cases s with ⟨-, e⟩ | ⟨-, -, e⟩ | ⟨-, hv, e⟩ <;> rw [e] at he <;> cases he
    · exact hraise _ _
    · exact hraise _ _
    · exact accepted_consistent h hv _

/-! ## SPEC: completion (R381, R390, R440) -/

theorem regenerated_activeLegal {e : Spec} {l : SpPrep} (hl : (SpCmd.prep l).legal = true) (hn : e.actN = l.n)
    (hw : e.actWin = l.win) (hs : e.minSep = BitVec.ofNat 32 (minSeparation l.win)) : e.activeLegal = true := by
  simp only [SpCmd.legal, Bool.and_eq_true, and_assoc] at hl
  obtain ⟨hsize, hwin, -⟩ := hl
  have hsize : legalFftSize l.n = true := hsize
  simp [Spec.activeLegal, hn, hw, hs, hsize, hwin]

/-- An `SP_PREP` regenerates for a new size or window; where there is no window yet, the size is new (R381, R382). -/
theorem spPrepCompute_consistent {s : State} (h : s.sp.Consistent) {l : SpPrep} (hp : s.sp.pending = some (.prep l))
    (hl : (SpCmd.prep l).legal = true) : Spec.Consistent { (spPrepCompute l s).sp with pending := none } := by
  have hema : (if l.resetPend || l.dirtyN then false else s.sp.emaInit) = true → s.sp.valid = true := by
    split
    · exact fun hf => absurd hf Bool.false_ne_true
    · exact h.averaging
  have hhold : (if l.resetPend || l.dirtyN then false else s.sp.holdInit) = true →
      (if l.resetPend || l.dirtyN then false else s.sp.emaInit) = true := by
    split
    · exact id
    · exact h.holding
  unfold spPrepCompute
  dsimp only [setSp_sp]
  rw [spPrepConfigured_sp]
  cases hg : (l.dirtyN || l.dirtyWin) with
  | true =>
    have hvalid : (s.sp.valid || true) = true := Bool.or_true _
    exact ⟨fun _ => regenerated_activeLegal hl rfl rfl rfl, fun hv => absurd (hvalid.symm.trans hv) (by decide),
      fun hv => absurd (hvalid.symm.trans hv) (by decide), fun hw => absurd hw Bool.false_ne_true, fun _ => hvalid, hhold,
      h.peaks⟩
  | false =>
    have hvalid : (s.sp.valid || false) = s.sp.valid := Bool.or_false _
    obtain ⟨hN, -⟩ := Bool.or_eq_false_iff.mp hg
    refine ⟨fun hv => h.windowed (hvalid.symm.trans hv), fun hv => h.unwindowed (hvalid.symm.trans hv),
      fun hv => Or.inl ?_, fun hw => absurd hw Bool.false_ne_true, fun he => hvalid.trans (hema he), hhold, h.peaks⟩
    simpa [hp, regeneratesSize, hN] using h.firstPrep (hvalid.symm.trans hv)

/-- The completion of a SPEC command: `SP_PREP` as above, `SP_POST` and `SP_STATS` at a window that exists. -/
theorem Spec.Consistent.completeSpec {s : State} (h : s.sp.Consistent) (hN : s.sp.actN.toNat ≤ Config.nMax)
    (hl : s.sp.pending.all SpCmd.legal = true) : (completeSpec s).sp.Consistent := by
  cases hp : s.sp.pending with
  | none => rw [completeSpec_idle hp]; exact h
  | some c =>
    rw [completeSpec_busy hp]
    cases c with
    | prep l => exact spPrepCompute_consistent h hp (by simpa [hp] using hl)
    | post l =>
      have hv : s.sp.valid = true := h.window (by rw [hp]; rfl)
      exact ⟨h.windowed, h.unwindowed, fun hn => absurd (hv.symm.trans hn) (by decide),
        fun hw => absurd hw Bool.false_ne_true, fun _ => hv, fun _ => rfl, h.peaks⟩
    | stats =>
      have hv : s.sp.valid = true := h.window (by rw [hp]; rfl)
      have hpeaks := framePeaks_ok (d := s.mem.block .spDisp s.sp.actN.toNat) (by rwa [block_length]) s.sp.minSep.toNat
      exact ⟨h.windowed, h.unwindowed, fun hn => absurd (hv.symm.trans hn) (by decide),
        fun hw => absurd hw Bool.false_ne_true, h.averaging, h.holding, hpeaks⟩

/-! ## Every step -/

theorem Spec.Consistent.takeStep {e : Event} {s t : State} (h : s.sp.Consistent) (hN : s.sp.actN.toNat ≤ Config.nMax)
    (hl : s.sp.pending.all SpCmd.legal = true) (he : takeStep e s = .next t) : t.sp.Consistent := by
  rcases takeStep_cases he with ⟨off, -, rfl⟩ | ⟨off, v, -, -, rfl⟩ | ⟨w, x, -, -, rfl⟩ | ⟨w, i, -, -, he⟩ | ⟨-, rfl⟩ |
    ⟨-, rfl⟩ | ⟨-, rfl⟩
  · rcases hostRead_cases off s with ⟨v, -, e⟩ | ⟨c, -, e⟩ <;> rw [e]
    · exact h
    · rw [setRdata_sp, raise_sp]; exact h
  · rcases hostWrite_cases off v s with ⟨place, -, e⟩ | ⟨c, -, e⟩ <;> rw [e]
    · exact h.writeTarget place v
    · rw [raise_sp]; exact h
  · rw [raise_sp]; exact h
  · exact h.exec he
  · rw [(completeDemod_frame s).1]; exact h
  · exact h.completeSpec hN hl
  · exact Spec.reset_consistent

theorem Spec.Consistent.step {s t : State} (h : s.sp.Consistent) (hN : s.sp.actN.toNat ≤ Config.nMax)
    (hl : s.sp.pending.all SpCmd.legal = true) (he : step s = .next t) : t.sp.Consistent := by
  rcases step_cases he with ⟨e, rest, -, he⟩ | ⟨-, rfl⟩ | ⟨-, rfl⟩ | ⟨-, rfl⟩
  · exact Spec.Consistent.takeStep (s := s.setSchedule rest) h hN hl he
  · rw [(completeDemod_frame s).1]; exact h
  · exact h.completeSpec hN hl
  · exact h

/-- Settles O58: engine by engine; the legal registers give the configuration of a build and the size of a window. -/
theorem enginesStayConsistent : Obligations.EnginesStayConsistent := by
  intro s t hregs heng he
  obtain ⟨hd, hsp⟩ := (enginesConsistent_iff s).mp heng
  obtain ⟨-, hd'⟩ := demodConsistent_kept.step ⟨hregs, hd⟩ he
  exact (enginesConsistent_iff t).mpr ⟨hd', hsp.step heng.actN_le hregs.specLatched he⟩

end Sys2Proof.Machine
end

section
/-! The de-emphasis coefficient lies in `[+0, 1]` (O40), and without a window the spectrum is exact (O43). -/

namespace Sys2Proof.Machine

/-! ## The de-emphasis coefficient (R326) -/

theorem signBit_fmul {a b : F32} (h : isNaN (fmul a b) = false) : signBit (fmul a b) = (signBit a != signBit b) :=
  signBit_of_nan_or_pack (fmul_cases a b) h

theorem signBit_fdiv {a b : F32} (h : isNaN (fdiv a b) = false) : signBit (fdiv a b) = (signBit a != signBit b) :=
  signBit_of_nan_or_pack (fdiv_cases a b) h

theorem isNaN_fmul_of_finite {a b : F32} (ha : isFinite a = true) (hb : isFinite b = true) :
    isNaN (fmul a b) = false := by
  rw [fmul_eq_roundUnits ha hb]
  exact isNaN_roundUnits _ _ _

/-- A reciprocal is a number, infinite operands and zero included (R254). -/
theorem isNaN_fdiv_one {b : F32} (hb : isNaN b = false) : isNaN (fdiv one b) = false := by
  rcases isFinite_or_isInf hb with hf | hi
  · cases hz : isZero b with
    | true => exact isNaN_of_isInf (isInf_fdiv_of_isZero (by decide) hf (by decide) hz)
    | false =>
      rw [fdiv_eq_roundUnits (by decide) hf hz]
      exact isNaN_roundUnits _ _ _
  · exact isNaN_of_isFinite (isFinite_of_isZero (isZero_fdiv_of_isInf hi (by decide)))

/-- The exponent of R326 is not above zero. -/
theorem deemphExponent_le {rate tau : F32} (hr : finitePositive rate = true) (ht : finitePositive tau = true) :
    fle (fneg (fdiv one (fmul rate tau))) posZero = true := by
  obtain ⟨hrf, hrp⟩ := (finitePositive_iff rate).mp hr
  obtain ⟨htf, htp⟩ := (finitePositive_iff tau).mp ht
  have hprod := isNaN_fmul_of_finite hrf htf
  have hn := isNaN_fdiv_one hprod
  have hs : signBit (fdiv one (fmul rate tau)) = false := by
    rw [signBit_fdiv hn, signBit_fmul hprod, (signBit_of_positive hrp).1, (signBit_of_positive htp).1]
    decide
  rw [fle_iff, isNaN_fneg, value_fneg, value, hs]
  exact ⟨hn, by decide, by simp [show value posZero = 0 from rfl]⟩

/-- `EXP32` takes an argument not above zero into `[+0, 1]` (R264). -/
theorem exp32_bounds {x : F32} (h : fle x posZero = true) :
    fle posZero (exp32 x) = true ∧ fle (exp32 x) one = true := by
  obtain ⟨hargs, hvals⟩ := expAnchors_rise
  obtain ⟨hx, -, -⟩ := (fle_iff _ _).mp h
  have hone : exp32 posZero = one :=
    exponential_at Config.expDraw hargs (List.mem_singleton.mpr rfl) (by decide) (by decide)
  exact ⟨(exponential_bounds Config.expDraw hvals hx).1, hone ▸ exponential_mono Config.expDraw hvals h⟩

/-- What is left of 1 when a value of `[+0, 1]` is taken from it. -/
theorem fsub_one_bounds {v : F32} (hl : fle posZero v = true) (hu : fle v one = true) :
    fle posZero (fsub one v) = true ∧ fle (fsub one v) one = true ∧ signBit (fsub one v) = false := by
  obtain ⟨-, -, hvl⟩ := (fle_iff _ _).mp hl
  obtain ⟨-, -, hvu⟩ := (fle_iff _ _).mp hu
  rw [show value posZero = 0 from rfl] at hvl
  have hle : magBits v ≤ magBits one := magBits_le_of_between (fle_trans (by decide) hl) hu
  have hf : isFinite (fneg v) = true := by
    rw [isFinite_fneg]
    exact isFinite_of_magBits_le hle (by decide)
  have hone : isFinite one = true := by decide
  refine ⟨le_fadd hone hf (by decide) ?_, fadd_le hone hf (by decide) ?_, ?_⟩
  · rw [value_fneg, show value posZero = 0 from rfl]; omega
  · rw [value_fneg]; omega
  · rw [fsub, fadd_eq_roundUnits hone hf, signBit_roundUnits, value_fneg]
    split
    · rw [show signBit one = false by decide, Bool.false_and]
    · exact decide_eq_false (by omega)

/-- Settles O40: the exponent is not above zero, so the exponential is in `[+0, 1]`. -/
theorem deemphasisCoefficientRange : Obligations.DeemphasisCoefficientRange := by
  intro rate tau hr ht
  obtain ⟨hl, hu⟩ := exp32_bounds (deemphExponent_le hr ht)
  exact fsub_one_bounds hl hu

/-! ## The table without a window (R374, R377) -/

theorem windowTable_none (n : Nat) : windowTable 0 n = List.replicate n one := by
  have hvalue : windowValue 0 n = fun _ => one := rfl
  rw [windowTable, hvalue, List.map_const', List.length_range]

theorem natAbs_mul_two_pow (i : Int) (e : Nat) : (i * 2 ^ e).natAbs = i.natAbs * 2 ^ e := by
  rw [Int.natAbs_mul, Int.natAbs_pow]
  rfl

/-- An integer of at most 24 bits times a power of two that is not too large is the value of a pattern. -/
theorem exists_scaled_integer {i : Int} {e : Nat} (hi : i.natAbs < 2 ^ 24) (he : e ≤ 200) :
    ∃ c, isFinite c = true ∧ value c = i * 2 ^ e := by
  have hmax : 2 ^ 24 * 2 ^ 200 ≤ units maxFinite := by decide
  have hle : i.natAbs * 2 ^ e ≤ 2 ^ 24 * 2 ^ 200 := Nat.mul_le_mul hi.le (Nat.pow_le_pow_right (by decide) he)
  exact exists_value (natAbs_mul_two_pow i e) hi (natAbs_mul_two_pow i e ▸ hle.trans hmax)

theorem exists_power {e : Nat} (he : e ≤ 200) : ∃ c, isFinite c = true ∧ value c = 2 ^ e := by
  simpa using exists_scaled_integer (i := 1) (by decide) he

theorem value_one : value one = 2 ^ 149 := by decide

/-- A sum of ones is exact up to 24 bits. -/
theorem sumF_ones {n : Nat} (hn : n < 2 ^ 24) :
    isFinite (sumF (List.replicate n one)) = true ∧ value (sumF (List.replicate n one)) = n * 2 ^ 149 := by
  induction n with
  | zero => decide
  | succ n ih =>
    obtain ⟨hf, hv⟩ := ih (by omega)
    obtain ⟨c, hc, hvc⟩ := exists_scaled_integer (i := (n + 1 : Nat)) (e := 149) (by omega) (by decide)
    have hstep : sumF (List.replicate (n + 1) one) = fadd (sumF (List.replicate n one)) one := by
      rw [List.replicate_succ', sumF, sumF, List.foldl_append]
      rfl
    rw [hstep, ← hvc]
    exact fadd_exact hf (by decide) hc (by rw [hv, hvc, value_one]; push_cast; ring)

/-- The legal sizes are powers of two (R48). -/
theorem legalFftSize_power {v : Word} (h : legalFftSize v = true) : ∃ k, k ≤ 13 ∧ v.toNat = 2 ^ k := by
  simp only [legalFftSize, List.contains_iff_mem, List.mem_cons, List.not_mem_nil, or_false] at h
  rcases h with rfl | rfl | rfl | rfl | rfl | rfl | rfl | rfl
  · exact ⟨6, by decide⟩
  · exact ⟨7, by decide⟩
  · exact ⟨8, by decide⟩
  · exact ⟨9, by decide⟩
  · exact ⟨10, by decide⟩
  · exact ⟨11, by decide⟩
  · exact ⟨12, by decide⟩
  · exact ⟨13, by decide⟩

/-- The square of a power of two is exact. -/
theorem fmul_self_power {a : F32} {k : Nat} (hk : k ≤ 13) (ha : isFinite a = true) (hv : value a = 2 ^ k * 2 ^ 149) :
    isFinite (fmul a a) = true ∧ value (fmul a a) = 2 ^ (2 * k + 149) := by
  obtain ⟨c, hc, hvc⟩ := exists_power (e := 2 * k + 149) (by omega)
  rw [← hvc]
  exact fmul_exact ha ha hc (by rw [hv, hvc, pow_add, two_mul, pow_add]; ring)

/-- The reciprocal of a power of two is exact. -/
theorem fdiv_one_power {b : F32} {k : Nat} (hk : k ≤ 149) (hb : isFinite b = true) (hv : value b = 2 ^ (k + 149)) :
    isFinite (fdiv one b) = true ∧ value (fdiv one b) = 2 ^ (149 - k) := by
  obtain ⟨c, hc, hvc⟩ := exists_power (e := 149 - k) (by omega)
  have hpos : flt posZero b = true :=
    (flt_iff _ _).mpr ⟨by decide, isNaN_of_isFinite hb, by rw [hv]; exact pow_pos (by decide) _⟩
  obtain ⟨hs, hz⟩ := signBit_of_positive hpos
  have hunits : (units b : Int) = 2 ^ (k + 149) := by rw [← value_eq_units (fle_of_flt hpos), hv]
  have hround := fdiv_roundsTo (a := one) (by decide) hb hz
  rw [if_neg (by simp [hs])] at hround
  rw [← hvc]
  refine hround.exact (units_pos hz) hc ?_
  rw [hunits, hvc, value_one, ← pow_add, ← pow_add]
  congr 1
  omega

/-- Without a window the correction is exactly `1 / N^2` (R377). -/
theorem coherentCorrection_ones {k : Nat} (hk : k ≤ 13) :
    isFinite (coherentCorrection (List.replicate (2 ^ k) one)) = true ∧
      value (coherentCorrection (List.replicate (2 ^ k) one)) = 2 ^ (149 - 2 * k) := by
  have hsize : 2 ^ k < 2 ^ 24 := Nat.pow_lt_pow_right (by decide) (by omega)
  obtain ⟨hf, hv⟩ := sumF_ones hsize
  obtain ⟨hsf, hsv⟩ := fmul_self_power hk hf (by rw [hv]; push_cast; ring)
  exact fdiv_one_power (by omega) hsf hsv

/-! ## Normalised samples (R300) -/

theorem norm_i (i q : Byte) : (norm i q).i = normComponent i := by rw [norm]

theorem norm_q (i q : Byte) : (norm i q).q = normComponent q := by rw [norm]

theorem f32OfInt_exact {i : Int} (hi : i.natAbs < 2 ^ 24) :
    isFinite (f32OfInt i) = true ∧ value (f32OfInt i) = i * 2 ^ 149 := by
  obtain ⟨c, hc, hvc⟩ := exists_scaled_integer (e := 149) hi (by decide)
  have hround := roundUnits_roundsTo (i * 2 ^ 149) Nat.one_pos (neg := decide (i < 0))
    (Or.inr (decide_eq_decide.mpr (by omega)))
  rw [natAbs_mul_two_pow] at hround
  rw [← hvc]
  exact hround.exact Nat.one_pos hc (by rw [hvc]; simp)

theorem signBit_f32OfInt (i : Int) : signBit (f32OfInt i) = decide (i < 0) := signBit_roundUnits _ _ _

theorem value_inv128 : value inv128 = 2 ^ 142 := by decide

/-- A normalised component is its integer over 128, and a zero one is `+0`. -/
theorem normComponent_exact (b : Byte) :
    isFinite (normComponent b) = true ∧ value (normComponent b) * 128 = b.toInt * 2 ^ 149 ∧
      normComponent b ≠ negZero := by
  have hb : b.toInt.natAbs < 2 ^ 24 := by
    have := b.toInt_lt
    have := b.le_toInt
    omega
  obtain ⟨hf, hv⟩ := f32OfInt_exact hb
  obtain ⟨c, hc, hvc⟩ := exists_scaled_integer (e := 142) hb (by decide)
  have hinv : isFinite inv128 = true := by decide
  obtain ⟨hnf, hnv⟩ := fmul_exact hf hinv hc (by rw [hv, hvc, value_inv128]; ring)
  refine ⟨hnf, by rw [normComponent, hnv, hvc]; ring, fun hneg => ?_⟩
  have hsign : signBit (normComponent b) = decide (b.toInt < 0) := by
    rw [normComponent, signBit_fmul (isNaN_of_isFinite hnf), signBit_f32OfInt, show signBit inv128 = false by decide,
      Bool.bne_false]
  have hzero : value (normComponent b) = b.toInt * 2 ^ 142 := hnv.trans hvc
  rw [hneg, show value negZero = 0 by decide] at hzero
  rw [hneg, show signBit negZero = true by decide, eq_comm, decide_eq_true_eq] at hsign
  omega

/-- Settles O43: sum, square and reciprocal of the table are powers of two, and a normalised component times 1 is itself. -/
theorem noneWindowIsExact : Obligations.NoneWindowIsExact := by
  constructor
  · intro n hn
    obtain ⟨k, hk, hsize⟩ := legalFftSize_power hn
    obtain ⟨hf, hv⟩ := coherentCorrection_ones hk
    rw [windowTable_none, hsize]
    refine ⟨rfl, hf, ?_⟩
    rw [hv]
    rw [Nat.cast_mul, Nat.cast_pow, Nat.cast_ofNat, ← pow_add, ← pow_add]
    congr 1
    omega
  · intro i q
    obtain ⟨hif, hiv, hin⟩ := normComponent_exact i
    obtain ⟨hqf, hqv, hqn⟩ := normComponent_exact q
    rw [windowed, norm_i, norm_q, fmul_one hif, fmul_one hqf]
    exact ⟨rfl, hif, hiv, hqf, hqv, hin, hqn⟩

end Sys2Proof.Machine
end

section
/-! The value of a bin: its dB has a floor and rises with the magnitude (O44), and averaging it with itself or holding
it without decay leaves it (O45). -/

namespace Sys2Proof.Machine

/-! ## Products are monotone (R251, R254) -/

/-- Nothing is above `+inf`. -/
theorem fle_of_isInf {a b : F32} (ha : isNaN a = false) (hb : isInf b = true) (hs : signBit b = false) :
    fle a b = true := by
  refine (between_of_units_le ha (isNaN_of_isInf hb) hs ((units_le_iff a b).mpr ?_)).2
  simp only [isNaN, isInf, decide_eq_false_iff_not, decide_eq_true_eq] at ha hb
  omega

theorem units_roundUnits_mono (s t : Bool) {m n den : Nat} (hd : 0 < den) (h : m ≤ n) :
    units (roundUnits s m den) ≤ units (roundUnits t n den) := by
  have hmag := roundMag_mono m den n den hd hd (Nat.mul_le_mul_right den h)
  rw [units_le_iff, magBits_roundUnits, magBits_roundUnits]
  omega

/-- Rounding a quotient of units with a sign is monotone. -/
theorem roundUnits_mono {s t : Bool} {m n den : Nat} (hd : 0 < den)
    (h : (if s then -(m : Int) else m) ≤ if t then -(n : Int) else n) :
    fle (roundUnits s m den) (roundUnits t n den) = true := by
  refine (fle_iff _ _).mpr ⟨isNaN_roundUnits s m den, isNaN_roundUnits t n den, ?_⟩
  rw [value_roundUnits, value_roundUnits]
  cases s <;> cases t <;> simp only [Bool.false_eq_true, if_false, if_true] at h ⊢
  · have := units_roundUnits_mono false false hd (show m ≤ n by omega)
    omega
  · have hm := units_roundUnits_mono false false hd (show m ≤ 0 by omega)
    have hn := units_roundUnits_mono true false hd (show n ≤ 0 by omega)
    have hzero : units (roundUnits false 0 den) = 0 := by
      rw [roundUnits, roundMag_zero hd]
      decide
    omega
  · omega
  · have := units_roundUnits_mono true true hd (show n ≤ m by omega)
    omega

theorem fmul_comm (a b : F32) : fmul a b = fmul b a := by
  simp only [fmul, Bool.or_comm, Nat.mul_comm (units a), bne_comm (a := signBit a)]

/-- A product of units with the sign of R255 is the product of the values. -/
theorem value_mul_value (a b : F32) : value a * value b =
    if signBit a != signBit b then -((units a * units b : Nat) : Int) else (units a * units b : Nat) := by
  unfold value
  cases signBit a <;> cases signBit b <;> simp

theorem fmul_mono_of_finite {a b c d : F32} (ha : isFinite a = true) (hb : isFinite b = true) (hc : isFinite c = true)
    (hd : isFinite d = true) (h : value a * value b ≤ value c * value d) : fle (fmul a b) (fmul c d) = true := by
  rw [fmul_eq_roundUnits ha hb, fmul_eq_roundUnits hc hd]
  rw [value_mul_value, value_mul_value] at h
  exact roundUnits_mono (Nat.two_pow_pos _) h

/-- A positive finite factor keeps the class of infinity and its sign. -/
theorem fmul_isInf_of_positive {c x : F32} (hc : finitePositive c = true) (hx : isInf x = true) :
    isInf (fmul c x) = true ∧ signBit (fmul c x) = signBit x := by
  obtain ⟨hcf, hcp⟩ := (finitePositive_iff c).mp hc
  obtain ⟨hs, hz⟩ := signBit_of_positive hcp
  have hi := (isInf_fmul_of_isInf hx (isNaN_of_isFinite hcf) hz).2
  refine ⟨hi, ?_⟩
  rw [signBit_fmul (isNaN_of_isInf hi), hs, Bool.false_bne]

theorem isNaN_fmul_of_positive {c x : F32} (hc : finitePositive c = true) (hx : isNaN x = false) :
    isNaN (fmul c x) = false := by
  rcases isFinite_or_isInf hx with hf | hi
  · exact isNaN_fmul_of_finite ((finitePositive_iff c).mp hc).1 hf
  · exact isNaN_of_isInf (fmul_isInf_of_positive hc hi).1

/-- Multiplying by a positive finite value is monotone, infinities included. -/
theorem fmul_mono {c x y : F32} (hc : finitePositive c = true) (h : fle x y = true) :
    fle (fmul c x) (fmul c y) = true := by
  obtain ⟨hx, hy, hle⟩ := (fle_iff _ _).mp h
  have hnx := isNaN_fmul_of_positive hc hx
  have hny := isNaN_fmul_of_positive hc hy
  obtain ⟨hcf, hcp⟩ := (finitePositive_iff c).mp hc
  obtain ⟨-, -, hpos⟩ := (flt_iff _ _).mp hcp
  rw [show value posZero = 0 from rfl] at hpos
  rcases isFinite_or_isInf hx with hxf | hxi
  · rcases isFinite_or_isInf hy with hyf | hyi
    · exact fmul_mono_of_finite hcf hxf hcf hyf (Int.mul_le_mul_of_nonneg_left hle hpos.le)
    · cases hs : signBit y
      · obtain ⟨hi, hsy⟩ := fmul_isInf_of_positive hc hyi
        exact fle_of_isInf hnx hi (hsy.trans hs)
      · have hxi := (isInf_of_fle_left h hyi hs).1
        simp [isInf_of_isFinite hxf] at hxi
  · obtain ⟨hi, hsx⟩ := fmul_isInf_of_positive hc hxi
    cases hs : signBit x
    · obtain ⟨hyi, hsy⟩ := isInf_of_fle h hxi hs
      obtain ⟨hiy, hsy'⟩ := fmul_isInf_of_positive hc hyi
      exact fle_of_isInf hnx hiy (hsy'.trans hsy)
    · have hle := fle_fneg (fle_of_isInf (b := fneg (fmul c x)) (a := fneg (fmul c y)) (by simpa using hny)
        (by simpa using hi) (by simp [hsx, hs]))
      simpa using hle

/-- Squaring is monotone from zero up. -/
theorem fmul_self_mono {x y : F32} (h0 : fle posZero x = true) (h : fle x y = true) :
    fle (fmul x x) (fmul y y) = true := by
  obtain ⟨-, hx, hle0⟩ := (fle_iff _ _).mp h0
  obtain ⟨-, hy, hle⟩ := (fle_iff _ _).mp h
  rw [show value posZero = 0 from rfl] at hle0
  have hnx : isNaN (fmul x x) = false := by
    rcases isFinite_or_isInf hx with hf | hi
    · exact isNaN_fmul_of_finite hf hf
    · exact isNaN_of_isInf (isInf_fmul_of_isInf hi hx (isZero_of_isInf hi)).1
  rcases isFinite_or_isInf hy with hyf | hyi
  · have hbelow : fle (fneg y) x = true :=
      fle_trans (fle_fneg (fle_trans h0 h)) (fle_trans (by decide : fle (fneg posZero) posZero = true) h0)
    have hxf := isFinite_of_magBits_le (magBits_le_of_between hbelow h) hyf
    exact fmul_mono_of_finite hxf hxf hyf hyf (Int.mul_le_mul hle hle hle0 (hle0.trans hle))
  · have hi := (isInf_fmul_of_isInf hyi hy (isZero_of_isInf hyi)).1
    refine fle_of_isInf hnx hi ?_
    rw [signBit_fmul (isNaN_of_isInf hi), bne_self_eq_false]

/-! ## Selecting the larger value (R256) -/

theorem le_pickMax_right (a : F32) {b : F32} (hb : isNaN b = false) : fle b (pickMax a b) = true := by
  unfold pickMax
  split
  · exact fle_of_flt ‹_›
  · exact fle_refl hb

theorem pickMax_mono {a b : F32} (h : fle a b = true) {c : F32} (hc : isNaN c = false) :
    fle (pickMax a c) (pickMax b c) = true := by
  by_cases hlt : flt c a = true
  · rw [pickMax, pickMax, if_pos hlt, if_pos (flt_of_flt_of_fle hlt h)]
    exact h
  · rw [pickMax, if_neg hlt]
    exact le_pickMax_right b hc

/-! ## The dB value of a bin (R385) -/

/-- The corrected power of a bin, before the logarithm. -/
def binPower (corr m : F32) : F32 := fmul (fmul m m) corr

theorem magnitudeDb_eq (corr m : F32) : magnitudeDb corr m =
    if flt posZero (binPower corr m) then pickMax (fmul ten (log10 (binPower corr m))) dbFloor else dbFloor := rfl

theorem dbFloor_le_magnitudeDb (corr m : F32) : fle dbFloor (magnitudeDb corr m) = true := by
  rw [magnitudeDb_eq]
  split
  · exact le_pickMax_right _ (by decide)
  · decide

theorem binPower_mono {corr m1 m2 : F32} (hcorr : finitePositive corr = true) (h0 : fle posZero m1 = true)
    (h : fle m1 m2 = true) : fle (binPower corr m1) (binPower corr m2) = true := by
  rw [binPower, binPower, fmul_comm _ corr, fmul_comm _ corr]
  exact fmul_mono hcorr (fmul_self_mono h0 h)

theorem magnitudeDb_mono {corr m1 m2 : F32} (hcorr : finitePositive corr = true) (h0 : fle posZero m1 = true)
    (h : fle m1 m2 = true) : fle (magnitudeDb corr m1) (magnitudeDb corr m2) = true := by
  have hpower := binPower_mono hcorr h0 h
  by_cases hpos : flt posZero (binPower corr m1) = true
  · rw [magnitudeDb_eq corr m1, magnitudeDb_eq corr m2, if_pos hpos, if_pos (flt_of_flt_of_fle hpos hpower)]
    exact pickMax_mono (fmul_mono (by decide) (log10_mono hpos hpower)) (by decide)
  · rw [magnitudeDb_eq corr m1, if_neg hpos]
    exact dbFloor_le_magnitudeDb corr m2

/-- Settles O44: the floor is what the larger of two values is selected against, and every operation of the dB value
rises with its argument. -/
theorem decibelFloorAndOrder : Obligations.DecibelFloorAndOrder :=
  ⟨dbFloor_le_magnitudeDb, fun _ _ _ => magnitudeDb_mono⟩

/-! ## Averaging and hold of a settled bin (R386, R387, R396) -/

theorem averaged_eq (avg : Word) (emaInit : Bool) (d r : F32) : averaged avg emaInit d r =
    if 1 < avg.toNat ∧ emaInit = true then fadd d (fmul (fdiv one (f32OfNat avg.toNat)) (fsub r d)) else r := by
  simp [averaged]

theorem held_eq (phEn holdInit : Bool) (dec h d : F32) : held phEn holdInit dec h d =
    if phEn = true ∧ holdInit = true then pickMax (fsub h dec) d else d := by
  simp [held]

theorem fsub_self {r : F32} (hr : isFinite r = true) : fsub r r = posZero := by
  have hn : isFinite (fneg r) = true := by simpa using hr
  rw [fsub, fadd_eq_roundUnits hr hn, value_fneg, signBit_fneg, add_neg_cancel, if_pos rfl, Bool.and_not_self]
  decide

/-- Adding a zero gives an equal value. -/
theorem value_fadd_of_isZero {a z : F32} (ha : isFinite a = true) (hz : isZero z = true) :
    isFinite (fadd a z) = true ∧ value (fadd a z) = value a :=
  fadd_exact ha (isFinite_of_isZero hz) ha (by rw [value_of_isZero hz, add_zero])

/-- The reciprocal of a value not below 1 is finite. -/
theorem isFinite_fdiv_one {b : F32} (hb : isFinite b = true) (h : units one ≤ units b) :
    isFinite (fdiv one b) = true := by
  have hpos : 0 < units b := lt_of_lt_of_le (by decide) h
  have hz : isZero b = false := by
    rw [← Bool.not_eq_true, ← units_eq_zero_iff]
    omega
  have hle : units (fdiv one b) ≤ units one := by
    rw [fdiv_eq_roundUnits (by decide) hb hz]
    refine units_roundUnits_le _ hpos (Nat.mul_le_mul_left _ ?_)
    rwa [← units_one]
  exact isFinite_of_magBits_le ((units_le_iff _ _).mp hle) (by decide)

/-- The weight of the averaging is finite (R386). -/
theorem isFinite_averageWeight {avg : Word} (h : 0 < avg.toNat) : isFinite (fdiv one (f32OfNat avg.toNat)) = true := by
  have hmax := avg.isLt
  refine isFinite_fdiv_one (isFinite_f32OfNat (by omega)) ?_
  exact le_units_roundUnits false Nat.one_pos (by decide) (by rw [units_one]; omega)

theorem averaged_self {r : F32} (hr : isFinite r = true) (avg : Word) (emaInit : Bool) :
    feq (averaged avg emaInit r r) r = true := by
  rw [averaged_eq]
  split
  · rename_i h
    have hz := isZero_fmul_posZero (isFinite_averageWeight (avg := avg) (by omega))
    obtain ⟨hf, hv⟩ := value_fadd_of_isZero hr hz
    rw [fsub_self hr]
    exact (feq_iff _ _).mpr ⟨isNaN_of_isFinite hf, isNaN_of_isFinite hr, hv⟩
  · exact feq_self hr

theorem isZero_of_feq_posZero {a : F32} (h : feq a posZero = true) : isZero a = true := by
  obtain ⟨-, -, hv⟩ := (feq_iff _ _).mp h
  have hu := natAbs_value a
  rw [hv, show value posZero = 0 from rfl, Int.natAbs_zero] at hu
  exact (units_eq_zero_iff a).mp hu.symm

theorem held_self {r dec : F32} (hr : isFinite r = true) (hdec : feq dec posZero = true) (phEn holdInit : Bool) :
    held phEn holdInit dec r r = r := by
  rw [held_eq]
  split
  · have hz : isZero (fneg dec) = true := by simpa using isZero_of_feq_posZero hdec
    have hv : value (fsub r dec) = value r := (value_fadd_of_isZero hr hz).2
    have hnot : ¬ flt r (fsub r dec) = true := fun hlt => by
      obtain ⟨-, -, hlt⟩ := (flt_iff _ _).mp hlt
      omega
    rw [pickMax, if_neg hnot]
  · rfl

/-- Settles O45: both changes of a settled bin are zeros. -/
theorem averageAndHoldSettle : Obligations.AverageAndHoldSettle := fun _ hr =>
  ⟨averaged_self hr, fun phEn hold _ hdec => held_self hr hdec phEn hold⟩

end Sys2Proof.Machine
end

section
/-! What a step of SPEC computes: the regenerated tables and windowed samples of an `SP_PREP` (O18), and every bin of an
`SP_POST` (O19). -/

namespace Sys2Proof.Machine

/-! ## The completion step (R205) -/

/-- The step of a busy SPEC that is scheduled next: what the computation leaves in RAM and engine, and the frame. -/
theorem step_completes_spec {s : State} {rest : List Event} {c : SpCmd} (hs : s.schedule = .spec :: rest)
    (hp : s.sp.pending = some c) :
    ∃ t, step s = .next t ∧ t.mem = (spCompute c (s.setSchedule rest)).mem ∧
      t.sp = { (spCompute c (s.setSchedule rest)).sp with pending := none } ∧
      t.spDone = true ∧ t.frameNew = (s.frameNew || publishes c) ∧ t.dmDone = s.dmDone ∧ t.dm = s.dm ∧
      SameError s t ∧ t.irqEn = s.irqEn ∧ t.schedule = rest ∧ t.rdata = s.rdata := by
  have hbusy : (s.setSchedule rest).sp.pending = some c := hp
  refine ⟨finishSp c (spCompute c (s.setSchedule rest)), ?_, rfl, rfl, rfl, ?_⟩
  · rw [step_scheduled hs, takeStep_spec, completeSpec_busy hbusy]
  · rw [(spCompute_frame c (s.setSchedule rest)).1]
    exact ⟨rfl, rfl, rfl, ⟨rfl, rfl, rfl⟩, rfl, rfl, rfl⟩

/-! ## Words of a written block -/

theorem get_setBlock_getD (m : Memory) (w : Ram) {vs : List Word} {i : Nat} (h : i < vs.length) :
    (m.setBlock w vs).get w i = vs.getD i 0 := by
  rw [get_setBlock m w vs i h, List.getD_eq_getElem _ _ h]

theorem readByte_setBlock_of_not_inWords (m : Memory) (w : Ram) {vs : List Word} {n a : Nat} (hn : vs.length = n)
    (h : ¬ inWords w n a) : (m.setBlock w vs).readByte a = m.readByte a := by
  apply readByte_setBlock_of_outside
  rw [hn]
  unfold inWords at h
  omega

/-! ## `SP_PREP` (R381) -/

section
variable (l : SpPrep) (s : State)

/-- Whether averaging, hold and DC blocker are cleared (R380, R382). -/
def prepClears : Bool := l.resetPend || l.dirtyN

/-- Whether the window is regenerated (R377, R382). -/
def prepRegenerates : Bool := l.dirtyN || l.dirtyWin

def prepSize : Nat := (if prepRegenerates l then l.n else s.sp.actN).toNat

def prepTable : List F32 :=
  if prepRegenerates l then windowTable l.win (prepSize l s) else s.mem.block .spWlut (prepSize l s)

/-- The state of the DC blocker from which the samples run (R383). -/
def prepDcb : DcBlock C32 := if prepClears l then dcbClearC else s.sp.dcb

/-- The samples after the optional DC blocker, with the state it is left in. -/
def prepSamples : DcBlock C32 × List C32 :=
  if l.dcbEn then dcbAll l.dcbAlpha (prepDcb l s) (iqSamples s.mem .spIq (prepSize l s))
  else (prepDcb l s, iqSamples s.mem .spIq (prepSize l s))

/-- RAM after the regeneration. -/
def prepMemory : Memory := if prepRegenerates l then s.mem.setBlock .spWlut (prepTable l s) else s.mem

theorem prepTable_length : (prepTable l s).length = prepSize l s := by
  unfold prepTable
  split
  · exact windowTable_length _ _
  · exact block_length _ _ _

theorem prepSamples_length : (prepSamples l s).2.length = prepSize l s := by
  unfold prepSamples
  split
  · rw [dcbAll_length, iqSamples_length]
  · exact iqSamples_length _ _ _

theorem prepWords_length : (windowedWords (prepSamples l s).2 (prepTable l s)).length = 2 * prepSize l s := by
  rw [windowedWords_length _ _ ((prepTable_length l s).trans (prepSamples_length l s).symm), prepSamples_length]

theorem prepSize_le (hn : l.n.toNat ≤ Config.nMax) (hN : s.sp.actN.toNat ≤ Config.nMax) :
    prepSize l s ≤ Config.nMax := by
  unfold prepSize
  split <;> assumption

/-! ### The named parts are those of the model -/

theorem spPrepConfigured_size : (spPrepConfigured l s).sp.actN.toNat = prepSize l s := by
  rw [spPrepConfigured_actN]
  rfl

theorem spPrepConfigured_prepMemory : (spPrepConfigured l s).mem = prepMemory l s := by
  rw [spPrepConfigured_mem, prepMemory, prepTable, prepSize, prepRegenerates]
  split <;> rfl

theorem spPrepConfigured_dcb : (spPrepConfigured l s).sp.dcb = prepDcb l s := by
  rw [spPrepConfigured_sp]
  rfl

/-- The table that is read back is the regenerated one, or the one that stood in RAM. -/
theorem prepMemory_block : (prepMemory l s).block .spWlut (prepSize l s) = prepTable l s := by
  unfold prepMemory
  split
  · rw [← prepTable_length l s, block_setBlock]
  · rw [prepTable, if_neg ‹_›]

/-- The regeneration leaves the samples alone. -/
theorem iqSamples_prepMemory (h : prepSize l s ≤ Config.nMax) :
    iqSamples (prepMemory l s) .spIq (prepSize l s) = iqSamples s.mem .spIq (prepSize l s) := by
  refine iqSamples_congr h fun a ha => ?_
  unfold prepMemory
  split
  · apply readByte_setBlock_of_outside
    simp only [holds_iff, Ram.base, Ram.words, Config.nMax] at ha ⊢
    omega
  · rfl

theorem spPrepSamples_configured (h : prepSize l s ≤ Config.nMax) :
    spPrepSamples l (spPrepConfigured l s) = prepSamples l s := by
  rw [spPrepSamples, spPrepConfigured_size, spPrepConfigured_prepMemory, spPrepConfigured_dcb,
    iqSamples_prepMemory l s h]
  rfl

/-- The words of `SP_WOUT` and the table in RAM. -/
theorem spPrepCompute_mem (h : prepSize l s ≤ Config.nMax) :
    (spPrepCompute l s).mem =
      (prepMemory l s).setBlock .spWout (windowedWords (prepSamples l s).2 (prepTable l s)) := by
  rw [spPrepCompute, setSp_mem, setMem_mem, spPrepConfigured_size, spPrepConfigured_prepMemory, prepMemory_block,
    spPrepSamples_configured l s h]

/-- The engine that an `SP_PREP` leaves. -/
theorem spPrepCompute_sp (h : prepSize l s ≤ Config.nMax) :
    (spPrepCompute l s).sp =
      { s.sp with
        emaInit := if prepClears l then false else s.sp.emaInit,
        holdInit := if prepClears l then false else s.sp.holdInit,
        dcb := (prepSamples l s).1, dcbEn := l.dcbEn, alphaAct := l.dcbAlpha,
        corr := if prepRegenerates l then coherentCorrection (prepTable l s) else s.sp.corr,
        actN := if prepRegenerates l then l.n else s.sp.actN,
        actWin := if prepRegenerates l then l.win else s.sp.actWin,
        minSep := if prepRegenerates l then BitVec.ofNat 32 (minSeparation l.win) else s.sp.minSep,
        valid := s.sp.valid || prepRegenerates l } := by
  have hcorr : (if l.dirtyN || l.dirtyWin then coherentCorrection (windowTable l.win l.n.toNat) else s.sp.corr) =
      if prepRegenerates l then coherentCorrection (prepTable l s) else s.sp.corr := by
    rw [prepTable, prepSize, prepRegenerates]
    split <;> rfl
  rw [spPrepCompute, setSp_sp, spPrepSamples_configured l s h, spPrepConfigured_sp, hcorr]
  rfl

/-! ### RAM, word by word and byte by byte -/

/-- Word `2i` is the `I` of windowed sample `i`, word `2i + 1` its `Q`. -/
theorem spPrepCompute_wout (h : prepSize l s ≤ Config.nMax) {i : Nat} (hi : i < prepSize l s) :
    (spPrepCompute l s).mem.get .spWout (2 * i) =
        fmul ((prepSamples l s).2.getD i C32.zero).i ((prepTable l s).getD i 0) ∧
      (spPrepCompute l s).mem.get .spWout (2 * i + 1) =
        fmul ((prepSamples l s).2.getD i C32.zero).q ((prepTable l s).getD i 0) := by
  have hlen := prepWords_length l s
  rw [spPrepCompute_mem l s h, get_setBlock_getD _ _ (by omega), get_setBlock_getD _ _ (by omega)]
  exact windowedWords_getD _ _ ((prepTable_length l s).trans (prepSamples_length l s).symm) i
    (by rwa [prepSamples_length])

theorem spPrepCompute_wlut (h : prepSize l s ≤ Config.nMax) (hr : prepRegenerates l = true) {i : Nat}
    (hi : i < prepSize l s) : (spPrepCompute l s).mem.get .spWlut i = windowValue l.win (prepSize l s) i := by
  have hbelow : Ram.spWlut.base + 4 * i + 4 ≤ Ram.spWout.base := by
    simp only [Ram.base, Config.nMax] at h ⊢
    omega
  rw [spPrepCompute_mem l s h, get_setBlock_of_outside _ _ _ _ _ (Or.inl hbelow), prepMemory, if_pos hr,
    get_setBlock_getD _ _ (by rwa [prepTable_length]), prepTable, if_pos hr, windowTable_getD _ _ _ hi]

theorem spPrepCompute_readByte (h : prepSize l s ≤ Config.nMax) {a : Nat}
    (hout : ¬ inWords .spWout (2 * prepSize l s) a)
    (hlut : ¬ (prepRegenerates l = true ∧ inWords .spWlut (prepSize l s) a)) :
    (spPrepCompute l s).mem.readByte a = s.mem.readByte a := by
  rw [spPrepCompute_mem l s h, readByte_setBlock_of_not_inWords _ _ (prepWords_length l s) hout, prepMemory]
  split
  · rename_i hr
    exact readByte_setBlock_of_not_inWords _ _ (prepTable_length l s) fun hin => hlut ⟨hr, hin⟩
  · rfl

end

/-- Settles O18: the command latches the registers at acceptance, and its completion leaves the engine, the words and
the bytes that the laws of `spPrepCompute` give. -/
theorem spPrepResult : Obligations.SpPrepResult := by
  intro s rest hidle hlegal hN hsched
  have hsize := prepSize_le (latchSpPrep s.sp) ((acceptSpPrep s).setSchedule rest) (legalFftSize_le hlegal) hN
  obtain ⟨t, hstep, hmem, hsp, hdone, hframe, hdmDone, hdm, herr, hirq, hrest, hrdata⟩ :=
    step_completes_spec (s := acceptSpPrep s) hsched rfl
  refine ⟨acceptSpPrep s, t, exec_spPrep_idle hidle, hstep, ?_, ?_, ?_, ?_, hdone, hdmDone,
    hframe.trans (Bool.or_false _), hdm, herr, hirq, hrest, hrdata⟩
  · rw [hsp, spCompute, spPrepCompute_sp _ _ hsize, ← hidle]
    rfl
  · rw [hmem]
    exact fun i hi => spPrepCompute_wout _ _ hsize hi
  · rw [hmem]
    exact fun hr i hi => spPrepCompute_wlut _ _ hsize hr hi
  · intro a ha
    rw [hmem]
    exact spPrepCompute_readByte _ _ hsize ha.1 ha.2

/-! ## `SP_POST` (R390) -/

section
variable (l : SpPost) (s : State) (k : Nat)

/-- The raw value of bin `k` (R385). -/
def binRaw : F32 := magnitudeDb s.sp.corr (s.mem.get .spMag k)

/-- The display value of bin `k` (R386). -/
def binDisplay : F32 := averaged l.avg s.sp.emaInit (s.mem.get .spDisp k) (binRaw s k)

/-- The hold value of bin `k` (R387). -/
def binHold : F32 := held l.phEn s.sp.holdInit (fmul l.phRate l.phDt) (s.mem.get .spHold k) (binDisplay l s k)

/-- The values of every bin. -/
def everyBin (f : Nat → F32) : List F32 := (List.range s.sp.actN.toNat).map f

theorem everyBin_length (f : Nat → F32) : (everyBin s f).length = s.sp.actN.toNat := by simp [everyBin]

/-- The three frames are computed bin by bin. -/
theorem spPostCompute_mem : (spPostCompute l s).mem =
    ((s.mem.setBlock .spRaw (everyBin s (binRaw s))).setBlock .spDisp (everyBin s (binDisplay l s))).setBlock .spHold
      (everyBin s (binHold l s)) := by
  have hraw : rawFrame s.sp.corr (s.mem.block .spMag s.sp.actN.toNat) = everyBin s (binRaw s) := List.map_map
  have hdisp : displayFrame l s.sp.emaInit (s.mem.block .spDisp s.sp.actN.toNat) (everyBin s (binRaw s)) =
      everyBin s (binDisplay l s) := by
    rw [displayFrame, Memory.block, everyBin, List.zipWith_map, List.zipWith_self]
    rfl
  have hhold : holdFrame l s.sp.holdInit (s.mem.block .spHold s.sp.actN.toNat) (everyBin s (binDisplay l s)) =
      everyBin s (binHold l s) := by
    rw [holdFrame, Memory.block, everyBin, List.zipWith_map, List.zipWith_self]
    rfl
  rw [spPostCompute, hraw, hdisp, hhold]
  rfl

variable {s k}

theorem get_everyBin (m : Memory) (w : Ram) (f : Nat → F32) (hk : k < s.sp.actN.toNat) :
    (m.setBlock w (everyBin s f)).get w k = f k := by
  rw [get_setBlock _ _ _ _ (by rwa [everyBin_length])]
  simp [everyBin]

/-- A frame written past a window leaves the words of that window. -/
theorem get_below_everyBin (m : Memory) {w u : Ram} (f : Nat → F32) (hN : s.sp.actN.toNat ≤ Config.nMax)
    (hk : k < s.sp.actN.toNat) (hwu : u.base + 4 * Config.nMax ≤ w.base) :
    (m.setBlock w (everyBin s f)).get u k = m.get u k :=
  get_setBlock_of_outside _ _ _ _ _ (Or.inl (by omega))

/-- The three words of a bin. -/
theorem spPostCompute_bin (hN : s.sp.actN.toNat ≤ Config.nMax) (hk : k < s.sp.actN.toNat) :
    (spPostCompute l s).mem.get .spRaw k = binRaw s k ∧ (spPostCompute l s).mem.get .spDisp k = binDisplay l s k ∧
      (spPostCompute l s).mem.get .spHold k = binHold l s k := by
  rw [spPostCompute_mem]
  refine ⟨?_, ?_, get_everyBin _ _ _ hk⟩
  · rw [get_below_everyBin _ _ hN hk (by decide), get_below_everyBin _ _ hN hk (by decide), get_everyBin _ _ _ hk]
  · rw [get_below_everyBin _ _ hN hk (by decide), get_everyBin _ _ _ hk]

theorem spPostCompute_readByte {a : Nat} (hraw : ¬ inWords .spRaw s.sp.actN.toNat a)
    (hdisp : ¬ inWords .spDisp s.sp.actN.toNat a) (hhold : ¬ inWords .spHold s.sp.actN.toNat a) :
    (spPostCompute l s).mem.readByte a = s.mem.readByte a := by
  rw [spPostCompute_mem, readByte_setBlock_of_not_inWords _ _ (everyBin_length s _) hhold,
    readByte_setBlock_of_not_inWords _ _ (everyBin_length s _) hdisp,
    readByte_setBlock_of_not_inWords _ _ (everyBin_length s _) hraw]

end

/-- The frame number counts modulo 2^32 (R391). -/
theorem frameSeq_succ (v : Word) : v + 1 = BitVec.ofNat 32 ((v.toNat + 1) % 2 ^ 32) := by
  apply BitVec.eq_of_toNat_eq
  simp

/-- Settles O19: bin by bin, each value by the equation of its rule. -/
theorem spPostResult : Obligations.SpPostResult := by
  intro s rest hidle hvalid hN hsched
  obtain ⟨t, hstep, hmem, hsp, hdone, hframe, hdmDone, hdm, herr, hirq, hrest, hrdata⟩ :=
    step_completes_spec (s := acceptSpPost s) hsched rfl
  refine ⟨acceptSpPost s, t, exec_spPost_configured hidle hvalid, hstep, ?_, ?_, ?_, hdone,
    hframe.trans (Bool.or_true _), hdmDone, hdm, herr, hirq, hrest, hrdata⟩
  · rw [hmem]
    intro k hk
    have hbin := spPostCompute_bin (latchSpPost s.sp) (s := (acceptSpPost s).setSchedule rest) hN hk
    simp only [binHold, binDisplay, held_eq, averaged_eq] at hbin
    exact hbin
  · rintro a ⟨hraw, hdisp, hhold⟩
    rw [hmem]
    exact spPostCompute_readByte _ hraw hdisp hhold
  · rw [hsp, ← frameSeq_succ, ← hidle]
    rfl

end Sys2Proof.Machine
end

section
/-! The statistics of a frame: its median (O46), its peak list (O47, O48), the flat spectrum with one peak (O49), and what
an `SP_STATS` leaves in the registers (O20). -/

namespace Sys2Proof.Machine

/-! ## The median (R443) -/

/-- The order in which the median's sort keeps two entries: the second does not sort before the first. -/
abbrev SortsNotAfter (a b : F32) : Prop := sortsBefore b a = false

theorem flt_eq_false_iff {a b : F32} (ha : isNaN a = false) (hb : isNaN b = false) : flt a b = false ↔ fle b a = true := by
  simp [flt, fle, ha, hb]

theorem flt_of_fle_of_flt {a b c : F32} (hab : fle a b = true) (hbc : flt b c = true) : flt a c = true := by
  obtain ⟨ha, -, hab⟩ := (fle_iff _ _).mp hab
  obtain ⟨-, hc, hbc⟩ := (flt_iff _ _).mp hbc
  exact (flt_iff _ _).mpr ⟨ha, hc, by omega⟩

theorem sortsNotAfter_iff (a b : F32) : SortsNotAfter a b ↔ isNaN b = true ∨ fle a b = true := by
  unfold SortsNotAfter sortsBefore
  cases hb : isNaN b
  · cases ha : isNaN a
    · simp [flt_eq_false_iff hb ha]
    · simp [fle, ha]
  · simp

theorem sortsNotAfter_total (a b : F32) : SortsNotAfter a b ∨ SortsNotAfter b a := by
  simp only [sortsNotAfter_iff]
  cases ha : isNaN a
  · cases hb : isNaN b
    · simpa [fle_iff, ha, hb] using le_total (value a) (value b)
    · simp
  · simp

theorem sortsNotAfter_trans {a b c : F32} (hab : SortsNotAfter a b) (hbc : SortsNotAfter b c) : SortsNotAfter a c := by
  rw [sortsNotAfter_iff] at *
  rcases hbc with hc | hbc
  · exact .inl hc
  · rcases hab with hb | hab
    · rw [((fle_iff _ _).mp hbc).1] at hb
      cases hb
    · exact .inr (fle_trans hab hbc)

theorem insertSorted_eq_orderedInsert (x : F32) (ys : List F32) :
    insertSorted x ys = ys.orderedInsert SortsNotAfter x := by
  induction ys with
  | nil => rfl
  | cons y ys ih =>
    rw [insertSorted, List.orderedInsert_cons, ih]
    by_cases h : sortsBefore y x = true
    · rw [if_pos h, if_neg (by simp [SortsNotAfter, h])]
    · rw [if_neg h, if_pos (by simpa using h)]

/-- The sort of R443 is the library's stable insertion sort. -/
theorem sortAscending_eq_insertionSort (d : List F32) : sortAscending d = d.insertionSort SortsNotAfter := by
  induction d with
  | nil => rfl
  | cons x xs ih => rw [sortAscending, ih, insertSorted_eq_orderedInsert, List.insertionSort_cons]

theorem sortAscending_perm (d : List F32) : (sortAscending d).Perm d := by
  rw [sortAscending_eq_insertionSort]
  exact List.perm_insertionSort _ d

theorem sortAscending_length (d : List F32) : (sortAscending d).length = d.length := (sortAscending_perm d).length_eq

theorem sortAscending_sorted (d : List F32) : (sortAscending d).Pairwise SortsNotAfter := by
  have : Std.Total SortsNotAfter := ⟨sortsNotAfter_total⟩
  have : IsTrans F32 SortsNotAfter := ⟨fun _ _ _ => sortsNotAfter_trans⟩
  rw [sortAscending_eq_insertionSort]
  exact List.pairwise_insertionSort _ d

/-- Whether `y` has the key of `x`: neither sorts before the other. -/
def sameKey (x y : F32) : Bool := !sortsBefore x y && !sortsBefore y x

theorem sameKey_iff (x y : F32) : sameKey x y = true ↔ SortsNotAfter y x ∧ SortsNotAfter x y := by
  simp [sameKey, SortsNotAfter]

/-- Entries of one key are sorted as they stand, so the sort keeps them as a sublist, and there are no more of them. -/
theorem sortAscending_stable (d : List F32) (x : F32) : (sortAscending d).filter (sameKey x) = d.filter (sameKey x) := by
  have hsorted : (d.filter (sameKey x)).Pairwise SortsNotAfter :=
    List.pairwise_of_forall_mem_list fun a ha b hb => sortsNotAfter_trans
      ((sameKey_iff x a).mp (List.mem_filter.mp ha).2).1 ((sameKey_iff x b).mp (List.mem_filter.mp hb).2).2
  have hsub : (d.filter (sameKey x)).Sublist (sortAscending d) := by
    rw [sortAscending_eq_insertionSort]
    exact List.sublist_insertionSort hsorted List.filter_sublist
  have hkeys := hsub.filter (sameKey x)
  simp only [List.filter_filter, Bool.and_self] at hkeys
  exact (hkeys.eq_of_length ((sortAscending_perm d).filter _).length_eq.symm).symm

theorem sortAscending_median {d : List F32} (h : d ≠ []) : (sortAscending d)[d.length / 2]? = some (median d) := by
  have hpos := List.length_pos_iff.mpr h
  have hlen : d.length / 2 < (sortAscending d).length := by
    rw [sortAscending_length]
    omega
  rw [median, List.getD_eq_getElem _ _ hlen, List.getElem?_eq_getElem hlen]

/-- Settles O46: the sort is a stable insertion sort by a total order, and its entry at `N / 2` is an entry of the frame. -/
theorem medianIsUpperMiddle : Obligations.MedianIsUpperMiddle := fun d h =>
  ⟨sortAscending_perm d, (sortAscending_sorted d).imp fun hab => (sortsNotAfter_iff _ _).mp hab, sortAscending_stable d,
    sortAscending_median h, (sortAscending_perm d).mem_iff.mp (List.mem_of_getElem? (sortAscending_median h))⟩

/-! ## The bins that the scan accepts (R444, R445) -/

theorem candidate_iff (d : List F32) (thr : F32) (k : Nat) : candidate d thr k = true ↔
    1 ≤ k ∧ k + 2 ≤ d.length ∧ flt thr (binAt d k) = true ∧ flt (binAt d (k - 1)) (binAt d k) = true ∧
      fle (binAt d (k + 1)) (binAt d k) = true := by
  simp [candidate, and_assoc]

/-- Of two neighbours at most one is a candidate: the right one is above the left one. -/
theorem not_candidate_succ {d : List F32} {thr : F32} {k : Nat} (h : candidate d thr k = true) :
    ¬ candidate d thr (k + 1) = true := by
  rw [candidate_iff] at h ⊢
  obtain ⟨-, -, -, -, hle⟩ := h
  rintro ⟨-, -, -, habove, -⟩
  exact absurd (flt_of_flt_of_fle habove hle) (by simp [flt_iff])

section
variable (d : List F32) (thr : F32) (sep : Nat)

/-- Whether the scan takes bin `k` after the accepted bin `last` (R445). -/
def takes (last : Option Nat) (k : Nat) : Bool := candidate d thr k && last.all fun l => !decide (k - l < sep)

/-- The bins that the scan of R445 accepts among the remaining ones, after the accepted bin `last`. -/
def acceptedBins : List Nat → Option Nat → List Nat
  | [], _ => []
  | k :: ks, last => if takes d thr sep last k then k :: acceptedBins ks (some k) else acceptedBins ks last

/-- The peak at a bin. -/
def peakAt (k : Nat) : Peak := { bin := k, pwr := binAt d k }

variable {d thr sep}

theorem takes_iff {last : Option Nat} {k : Nat} (hlast : ∀ l ∈ last, l < k) :
    takes d thr sep last k = true ↔ candidate d thr k = true ∧ ∀ l ∈ last, l + sep ≤ k := by
  cases last with
  | none => simp [takes]
  | some l =>
    have hlk : l < k := hlast l rfl
    have hsep : sep ≤ k - l ↔ l + sep ≤ k := by omega
    simp [takes, hsep]

/-- The scan inserts the accepted bins from left to right. -/
theorem scanPeaks_eq_foldl (ks : List Nat) (last : Option Nat) (ps : List Peak) :
    scanPeaks d thr sep ks last ps =
      (acceptedBins d thr sep ks last).foldl (fun ps k => insertPeak k (binAt d k) ps) ps := by
  induction ks generalizing last ps with
  | nil => rfl
  | cons k ks ih =>
    have htakes : (!candidate d thr k || last.any fun l => decide (k - l < sep)) = !takes d thr sep last k := by
      cases last <;> simp [takes]
    rw [scanPeaks, acceptedBins, htakes]
    cases takes d thr sep last k
    · exact ih last ps
    · exact ih (some k) _

theorem acceptedBins_sublist (ks : List Nat) (last : Option Nat) : (acceptedBins d thr sep ks last).Sublist ks := by
  induction ks generalizing last with
  | nil => exact .slnil
  | cons k ks ih =>
    rw [acceptedBins]
    split
    · exact (ih _).cons_cons k
    · exact (ih _).cons k

/-- A bin is accepted exactly when it is a candidate far enough from the bins accepted before it. -/
theorem mem_acceptedBins {ks : List Nat} {last : Option Nat} (hks : ks.Pairwise (· < ·))
    (hlast : ∀ l ∈ last, ∀ k ∈ ks, l < k) (k : Nat) :
    k ∈ acceptedBins d thr sep ks last ↔ k ∈ ks ∧ candidate d thr k = true ∧ (∀ l ∈ last, l + sep ≤ k) ∧
      ∀ l ∈ acceptedBins d thr sep ks last, l < k → l + sep ≤ k := by
  induction ks generalizing last with
  | nil => simp [acceptedBins]
  | cons j js ih =>
    obtain ⟨hj, hjs⟩ := List.pairwise_cons.mp hks
    have htakes := takes_iff (d := d) (thr := thr) (sep := sep) fun l hl => hlast l hl j List.mem_cons_self
    have hrest : ∀ l ∈ acceptedBins d thr sep js (some j), j < l := fun l hl =>
      hj l ((acceptedBins_sublist js _).subset hl)
    rw [acceptedBins]
    split
    · rename_i ht
      obtain ⟨hcand, hfar⟩ := htakes.mp ht
      have hmem := ih hjs (last := some j) (by simpa using hj)
      simp only [Option.mem_def, Option.some.injEq, forall_eq'] at hmem
      by_cases hkj : k = j
      · subst hkj
        simp only [List.mem_cons, true_or, hcand, true_and, forall_eq_or_imp, true_iff]
        exact ⟨hfar, by omega, fun l hl hlt => absurd (hrest l hl) (by omega)⟩
      · have hlt : k ∈ js → j < k := hj k
        simp only [List.mem_cons, hkj, false_or, hmem, forall_eq_or_imp]
        constructor
        · rintro ⟨hk, hc, hsep, hall⟩
          exact ⟨hk, hc, fun l hl => (hfar l hl).trans (hlt hk).le, fun _ => hsep, hall⟩
        · rintro ⟨hk, hc, -, hsep, hall⟩
          exact ⟨hk, hc, hsep (hlt hk), hall⟩
    · rename_i ht
      rw [ih hjs fun l hl k hk => hlast l hl k (List.mem_cons_of_mem _ hk), List.mem_cons]
      refine ⟨fun ⟨hk, h⟩ => ⟨.inr hk, h⟩, fun ⟨hk, hc, hfar, hall⟩ => ⟨hk.resolve_left ?_, hc, hfar, hall⟩⟩
      rintro rfl
      exact ht (htakes.mpr ⟨hc, hfar⟩)

end

/-! ## The ranked list (R446) -/

theorem insertDescending_perm (p : Peak) (ps : List Peak) : (insertDescending p ps).Perm (p :: ps) := by
  induction ps with
  | nil => exact .refl _
  | cons q qs ih =>
    rw [insertDescending]
    split
    · exact .refl _
    · exact (ih.cons q).trans (.swap p q qs)

/-- What has fallen off a list does not come back: the capacity may be applied once, after all insertions. -/
theorem insertDescending_take (p : Peak) (ps : List Peak) (n : Nat) :
    (insertDescending p (ps.take n)).take n = (insertDescending p ps).take n := by
  induction ps generalizing n with
  | nil => rw [List.take_nil]
  | cons q qs ih =>
    cases n with
    | zero => simp
    | succ n =>
      rw [List.take_succ_cons, insertDescending, insertDescending]
      split
      · cases n with
        | zero => rfl
        | succ n => simp [List.take_take]
      · rw [List.take_succ_cons, List.take_succ_cons, ih]

/-- Among equal powers the earlier bin comes first, as the new bin comes after all bins of the list. -/
theorem insertDescending_tiesByBin {p : Peak} {ps : List Peak} (hbin : ∀ q ∈ ps, q.bin < p.bin)
    (hdesc : ps.Pairwise fun p q => fle q.pwr p.pwr = true)
    (h : ps.Pairwise fun p q => flt q.pwr p.pwr = true ∨ p.bin < q.bin) :
    (insertDescending p ps).Pairwise fun p q => flt q.pwr p.pwr = true ∨ p.bin < q.bin := by
  induction ps with
  | nil => exact List.pairwise_singleton _ _
  | cons q qs ih =>
    obtain ⟨hdq, hdqs⟩ := List.pairwise_cons.mp hdesc
    obtain ⟨hq, hqs⟩ := List.pairwise_cons.mp h
    rw [insertDescending]
    split
    · rename_i hlt
      refine List.pairwise_cons.mpr ⟨fun r hr => .inl ?_, h⟩
      rcases List.mem_cons.mp hr with rfl | hr
      · exact hlt
      · exact flt_of_fle_of_flt (hdq r hr) hlt
    · refine List.pairwise_cons.mpr ⟨fun r hr => ?_, ih (fun r hr => hbin r (List.mem_cons_of_mem _ hr)) hdqs hqs⟩
      rcases mem_insertDescending.mp hr with rfl | hr
      · exact .inr (hbin q List.mem_cons_self)
      · exact hq r hr

/-- The peaks at the given bins, inserted in order into a list without capacity. -/
def rankedPeaks (d : List F32) (ks : List Nat) : List Peak :=
  ks.foldl (fun ps k => insertDescending (peakAt d k) ps) []

theorem rankedPeaks_concat (d : List F32) (ks : List Nat) (k : Nat) :
    rankedPeaks d (ks ++ [k]) = insertDescending (peakAt d k) (rankedPeaks d ks) := by
  simp [rankedPeaks]

theorem foldl_insertPeak (d : List F32) (ks : List Nat) :
    ks.foldl (fun ps k => insertPeak k (binAt d k) ps) [] = (rankedPeaks d ks).take Config.peakCap := by
  induction ks using List.reverseRecOn with
  | nil => rfl
  | append_singleton ks k ih =>
    rw [List.foldl_append, ih, rankedPeaks_concat, ← insertDescending_take]
    rfl

theorem rankedPeaks_perm (d : List F32) (ks : List Nat) : (rankedPeaks d ks).Perm (ks.map (peakAt d)) := by
  induction ks using List.reverseRecOn with
  | nil => exact .refl _
  | append_singleton ks k ih =>
    rw [rankedPeaks_concat, List.map_append]
    exact (insertDescending_perm _ _).trans ((ih.cons _).trans (List.perm_append_singleton _ _).symm)

theorem mem_rankedPeaks {d : List F32} {ks : List Nat} {p : Peak} :
    p ∈ rankedPeaks d ks ↔ ∃ k ∈ ks, peakAt d k = p := by
  rw [(rankedPeaks_perm d ks).mem_iff, List.mem_map]

theorem rankedPeaks_descending {d : List F32} {ks : List Nat} (hn : ∀ k ∈ ks, isNaN (binAt d k) = false) :
    (rankedPeaks d ks).Pairwise fun p q => fle q.pwr p.pwr = true := by
  induction ks using List.reverseRecOn with
  | nil => exact .nil
  | append_singleton ks k ih =>
    have hks : ∀ l ∈ ks, isNaN (binAt d l) = false := fun l hl => hn l (List.mem_append_left _ hl)
    rw [rankedPeaks_concat]
    refine insertDescending_descending (hn k (by simp)) (fun p hp => ?_) (ih hks)
    obtain ⟨l, hl, rfl⟩ := mem_rankedPeaks.mp hp
    exact hks l hl

theorem rankedPeaks_tiesByBin {d : List F32} {ks : List Nat} (hn : ∀ k ∈ ks, isNaN (binAt d k) = false)
    (hks : ks.Pairwise (· < ·)) :
    (rankedPeaks d ks).Pairwise fun p q => flt q.pwr p.pwr = true ∨ p.bin < q.bin := by
  induction ks using List.reverseRecOn with
  | nil => exact .nil
  | append_singleton ks k ih =>
    have hks' : ∀ l ∈ ks, isNaN (binAt d l) = false := fun l hl => hn l (List.mem_append_left _ hl)
    obtain ⟨hrise, -, hbelow⟩ := List.pairwise_append.mp hks
    rw [rankedPeaks_concat]
    refine insertDescending_tiesByBin (fun p hp => ?_) (rankedPeaks_descending hks') (ih hks' hrise)
    obtain ⟨l, hl, rfl⟩ := mem_rankedPeaks.mp hp
    exact hbelow l hl k List.mem_cons_self

/-- An entry of a ranked list stands among the first `n`, or these are `n` entries not weaker. -/
theorem mem_take_or_full {ps : List Peak} (h : ps.Pairwise fun p q => fle q.pwr p.pwr = true) {p : Peak} (hp : p ∈ ps)
    (n : Nat) : p ∈ ps.take n ∨ (ps.take n).length = n ∧ ∀ q ∈ ps.take n, fle p.pwr q.pwr = true := by
  rw [← List.take_append_drop n ps] at h hp
  rcases List.mem_append.mp hp with hp | hp
  · exact .inl hp
  · have hlen := List.length_pos_of_mem hp
    rw [List.length_drop] at hlen
    refine .inr ⟨?_, fun q hq => (List.pairwise_append.mp h).2.2 q hq p hp⟩
    rw [List.length_take]
    omega

/-! ## The peaks of a frame (R445, R446) -/

section
variable {d : List F32} {thr : F32} {sep : Nat}

/-- The bins that the scan of a whole frame accepts. -/
def frameBins (d : List F32) (thr : F32) (sep : Nat) : List Nat := acceptedBins d thr sep (List.range d.length) none

theorem findPeaks_eq (d : List F32) (thr : F32) (sep : Nat) :
    findPeaks d thr sep = (rankedPeaks d (frameBins d thr sep)).take Config.peakCap :=
  (scanPeaks_eq_foldl _ _ _).trans (foldl_insertPeak d _)

theorem frameBins_rise (d : List F32) (thr : F32) (sep : Nat) : (frameBins d thr sep).Pairwise (· < ·) :=
  List.pairwise_lt_range.sublist (acceptedBins_sublist _ _)

theorem mem_frameBins {k : Nat} : k ∈ frameBins d thr sep ↔
    candidate d thr k = true ∧ ∀ l ∈ frameBins d thr sep, l < k → l + sep ≤ k := by
  have hrange : candidate d thr k = true → k ∈ List.range d.length := fun h =>
    List.mem_range.mpr (by have := candidate_range h; omega)
  rw [frameBins, mem_acceptedBins List.pairwise_lt_range (by simp)]
  simp only [Option.not_mem_none, false_imp_iff, implies_true, true_and]
  exact and_iff_right_of_imp fun h => hrange h.1

theorem frameBins_numbers : ∀ k ∈ frameBins d thr sep, isNaN (binAt d k) = false := fun _ hk =>
  (candidate_range (mem_frameBins.mp hk).1).2.2

/-- Candidates are no neighbours, so a separation of at most 2 rejects none. -/
theorem mem_frameBins_of_candidate (hsep : sep ≤ 2) {k : Nat} (h : candidate d thr k = true) :
    k ∈ frameBins d thr sep := by
  refine mem_frameBins.mpr ⟨h, fun l hl hlt => ?_⟩
  have hne : l + 1 ≠ k := by
    rintro rfl
    exact not_candidate_succ (mem_frameBins.mp hl).1 h
  omega

theorem mem_findPeaks {p : Peak} (h : p ∈ findPeaks d thr sep) : ∃ k ∈ frameBins d thr sep, peakAt d k = p := by
  rw [findPeaks_eq] at h
  exact mem_rankedPeaks.mp (List.mem_of_mem_take h)

theorem findPeaks_length_le (d : List F32) (thr : F32) (sep : Nat) : (findPeaks d thr sep).length ≤ Config.peakCap := by
  rw [findPeaks_eq]
  exact List.length_take_le _ _

theorem findPeaks_descending (d : List F32) (thr : F32) (sep : Nat) :
    (findPeaks d thr sep).Pairwise fun p q => fle q.pwr p.pwr = true := by
  rw [findPeaks_eq]
  exact (rankedPeaks_descending frameBins_numbers).sublist (List.take_sublist _ _)

theorem findPeaks_tiesByBin (d : List F32) (thr : F32) (sep : Nat) :
    (findPeaks d thr sep).Pairwise fun p q => flt q.pwr p.pwr = true ∨ p.bin < q.bin := by
  rw [findPeaks_eq]
  exact (rankedPeaks_tiesByBin frameBins_numbers (frameBins_rise _ _ _)).sublist (List.take_sublist _ _)

theorem findPeaks_bins_distinct (d : List F32) (thr : F32) (sep : Nat) :
    (findPeaks d thr sep).Pairwise fun p q => p.bin ≠ q.bin := by
  have hbins : ((rankedPeaks d (frameBins d thr sep)).map Peak.bin).Perm (frameBins d thr sep) := by
    simpa [Function.comp_def, peakAt] using (rankedPeaks_perm d (frameBins d thr sep)).map Peak.bin
  have hnodup := hbins.nodup_iff.mpr ((frameBins_rise d thr sep).imp Nat.ne_of_lt)
  rw [findPeaks_eq]
  exact (List.pairwise_map.mp hnodup).sublist (List.take_sublist _ _)

/-- Two accepted bins are at least the separation apart. -/
theorem frameBins_separated {k l : Nat} (hk : k ∈ frameBins d thr sep) (hl : l ∈ frameBins d thr sep) (hne : k ≠ l) :
    k + sep ≤ l ∨ l + sep ≤ k := by
  rcases Nat.lt_or_gt_of_ne hne with hlt | hlt
  · exact .inl ((mem_frameBins.mp hl).2 k hk hlt)
  · exact .inr ((mem_frameBins.mp hk).2 l hl hlt)

end

/-- Settles O47: the list is the head of the ranked list of the accepted bins, which are separated candidates. -/
theorem peaksAreSeparatedMaxima : Obligations.PeaksAreSeparatedMaxima := by
  intro d thr sep
  refine ⟨fun p hp => ?_, findPeaks_length_le d thr sep, ?_⟩
  · obtain ⟨k, hk, rfl⟩ := mem_findPeaks hp
    obtain ⟨hlow, hhigh, hthr, hleft, hright⟩ := (candidate_iff d thr k).mp (mem_frameBins.mp hk).1
    exact ⟨hlow, hhigh, rfl, hthr, hleft, hright⟩
  · refine ((findPeaks_descending d thr sep).and (findPeaks_bins_distinct d thr sep)).imp_of_mem
      fun hp hq ⟨hle, hne⟩ => ⟨hle, ?_, hne⟩
    obtain ⟨k, hk, rfl⟩ := mem_findPeaks hp
    obtain ⟨l, hl, rfl⟩ := mem_findPeaks hq
    exact frameBins_separated hk hl hne

/-- Settles O48: the accepted bins are those of the scan, and the list is the head of their ranked list. -/
theorem strongestPeaksKept : Obligations.StrongestPeaksKept := by
  intro d thr sep
  refine ⟨⟨frameBins d thr sep, fun k => ?_, fun k hk => ?_, fun p hp => ?_, fun hsep k hk => ?_⟩,
    findPeaks_tiesByBin d thr sep⟩
  · rw [mem_frameBins, candidate_iff]
    rfl
  · rw [findPeaks_eq]
    exact mem_take_or_full (rankedPeaks_descending frameBins_numbers) (mem_rankedPeaks.mpr ⟨k, hk, rfl⟩) Config.peakCap
  · obtain ⟨k, hk, rfl⟩ := mem_findPeaks hp
    exact hk
  · exact mem_frameBins_of_candidate hsep ((candidate_iff d thr k).mpr hk)

/-! ## A flat spectrum with one peak (R450) -/

/-- `m` bins of `z`, one of `p`, and `n` more of `z`. -/
def spike (m n : Nat) (z p : F32) : List F32 := List.replicate m z ++ p :: List.replicate n z

section
variable {m n : Nat} {z p : F32}

theorem spike_length : (spike m n z p).length = m + n + 1 := by
  simp [spike, Nat.add_assoc]

theorem sortAscending_spike (h : flt z p = true) :
    sortAscending (spike m n z p) = List.replicate (m + n) z ++ [p] := by
  obtain ⟨hz, hp, -⟩ := (flt_iff z p).mp h
  have hsorted : (List.replicate (m + n) z ++ [p]).Pairwise SortsNotAfter := by
    refine List.pairwise_append.mpr ⟨List.pairwise_replicate.mpr (.inr ?_), List.pairwise_singleton _ _, ?_⟩
    · exact (sortsNotAfter_iff z z).mpr (.inr (fle_refl hz))
    · intro a ha b hb
      rw [List.eq_of_mem_replicate ha, List.mem_singleton.mp hb]
      exact (sortsNotAfter_iff z p).mpr (.inr (fle_of_flt h))
  have hperm : (spike m n z p).Perm (List.replicate (m + n) z ++ [p]) := by
    rw [spike, List.replicate_add]
    exact List.perm_middle.trans (List.perm_append_singleton _ _).symm
  have hne : ¬ SortsNotAfter p z := by simp [SortsNotAfter, sortsBefore, hz, h]
  have hmem : ∀ a, a ∈ List.replicate (m + n) z ++ [p] → a = z ∨ a = p := fun a ha =>
    (List.mem_append.mp ha).imp List.eq_of_mem_replicate List.mem_singleton.mp
  refine ((sortAscending_perm _).trans hperm).eq_of_pairwise (fun a b ha hb hab hba => ?_)
    (sortAscending_sorted _) hsorted
  rcases hmem a (((sortAscending_perm _).trans hperm).mem_iff.mp ha) with rfl | rfl <;>
    rcases hmem b hb with rfl | rfl
  · rfl
  · exact absurd hba hne
  · exact absurd hab hne
  · rfl

/-- The one peak does not move the noise floor. -/
theorem median_spike (h : flt z p = true) (hmn : 2 ≤ m + n) : median (spike m n z p) = z := by
  have hmid : (spike m n z p).length / 2 < m + n := by
    rw [spike_length]
    omega
  rw [median, sortAscending_spike h, List.getD_append _ _ _ _ (by simpa using hmid)]
  simp [hmid]

theorem binAt_spike {k : Nat} (hk : k < m + n + 1) : binAt (spike m n z p) k = if k = m then p else z := by
  rw [binAt, spike]
  rcases Nat.lt_trichotomy k m with hlt | rfl | hgt
  · rw [List.getD_append _ _ _ _ (by simpa using hlt), if_neg (by omega)]
    simp [hlt]
  · simp
  · obtain ⟨j, rfl⟩ := Nat.exists_eq_add_of_lt hgt
    rw [List.getD_append_right _ _ _ _ (by simp; omega), if_neg (by omega)]
    have hj : m + j + 1 - m = j + 1 := by omega
    have hjn : j < n := by omega
    simp [hj, hjn]

theorem candidate_spike {thr : F32} (hm : 1 ≤ m) (hn : 1 ≤ n) (h : flt z p = true) (hthr : flt thr p = true)
    (hflat : ¬ flt thr z = true) (k : Nat) : candidate (spike m n z p) thr k = true ↔ k = m := by
  rw [candidate_iff, spike_length]
  constructor
  · rintro ⟨-, hk, hpeak, -⟩
    by_contra hne
    rw [binAt_spike (by omega), if_neg hne] at hpeak
    exact hflat hpeak
  · rintro rfl
    rw [binAt_spike (by omega), binAt_spike (by omega), binAt_spike (by omega), if_pos rfl, if_neg (by omega),
      if_neg (by omega)]
    exact ⟨hm, by omega, hthr, h, fle_of_flt h⟩

theorem findPeaks_spike {thr : F32} {sep : Nat} (hsep : sep ≤ 2) (hm : 1 ≤ m) (hn : 1 ≤ n) (h : flt z p = true)
    (hthr : flt thr p = true) (hflat : ¬ flt thr z = true) :
    findPeaks (spike m n z p) thr sep = [{ bin := m, pwr := p }] := by
  have hcand := candidate_spike hm hn h hthr hflat
  have hbins : frameBins (spike m n z p) thr sep = [m] := by
    refine List.perm_singleton.mp ((List.perm_ext_iff_of_nodup ?_ (List.nodup_singleton m)).mpr fun k => ?_)
    · exact (frameBins_rise _ _ _).imp Nat.ne_of_lt
    · rw [List.mem_singleton, ← hcand k]
      exact ⟨fun hk => (mem_frameBins.mp hk).1, mem_frameBins_of_candidate hsep⟩
  have hpeak : peakAt (spike m n z p) m = { bin := m, pwr := p } := by
    rw [peakAt, binAt_spike (by omega), if_pos rfl]
  rw [findPeaks_eq, hbins, ← hpeak]
  rfl

/-- The far bins leave the peak out, so each adds the same power. -/
theorem farPower_spike (sep : Nat) : farPower (spike m n z p) m sep =
    sumF (List.replicate (farBins (m + n + 1) m sep).length (pow10 (fdiv z ten))) := by
  have hpow : (farBins (m + n + 1) m sep).map (fun k => pow10 (fdiv (binAt (spike m n z p) k) ten)) =
      List.replicate (farBins (m + n + 1) m sep).length (pow10 (fdiv z ten)) := by
    refine List.map_eq_replicate_iff.mpr fun k hk => ?_
    obtain ⟨hrange, hfar⟩ := List.mem_filter.mp hk
    have hne : k ≠ m := by
      rintro rfl
      simp at hfar
    rw [binAt_spike (List.mem_range.mp hrange), if_neg hne]
  rw [← hpow, sumF, List.foldl_map, farPower, spike_length]

end

/-- SNR where some bin is far from the top peak and the mean far power is positive (R448). -/
theorem snrDb_cons {d : List F32} {p : Peak} {ps : List Peak} {sep : Nat} {mean : F32}
    (hfar : (farBins d.length p.bin sep).length ≠ 0)
    (hmean : fdiv (farPower d p.bin sep) (f32OfNat (farBins d.length p.bin sep).length) = mean)
    (hpos : flt posZero mean = true) : snrDb d (p :: ps) sep = fsub p.pwr (fmul ten (log10 mean)) := by
  subst hmean
  rw [snrDb, if_neg hfar]
  simp [hpos]

theorem log10_one : log10 one = posZero :=
  calc log10 one = log10 (f32OfNat (10 ^ 0)) := by rw [show f32OfNat (10 ^ 0) = one by decide]
    _ = f32OfNat 0 := log10_powerOfTen (Nat.zero_le 10)
    _ = posZero := by decide

/-- Settles O49: a spike of 20 dB at bin 10 of 64, whose 61 far bins have power 1 each. -/
theorem flatSpectrumOnePeak : Obligations.FlatSpectrumOnePeak := by
  rintro d (rfl : d = spike 10 53 0x00000000 0x41A00000)
  have hpeak : flt 0x00000000 0x41A00000 = true := by decide
  have hmedian := median_spike (m := 10) (n := 53) hpeak (by decide)
  have hlen : (spike 10 53 0x00000000 0x41A00000).length = 64 := spike_length
  have hcount : (farBins 64 10 1).length = 61 := by decide
  have hpower : farPower (spike 10 53 0x00000000 0x41A00000) 10 1 = 0x42740000 := by
    rw [farPower_spike, hcount, pow10_of_isZero (by decide) (by decide)]
    decide +kernel
  refine ⟨hmedian, ?_, findPeaks_spike (by decide) (by decide) (by decide) hpeak (by decide) (by decide), rfl, ?_, hpower,
    ?_⟩
  · rw [hmedian]
    decide
  · rw [hlen, hcount]
  · rw [snrDb_cons (mean := one) (by rw [hlen, hcount]; decide) (by rw [hlen, hcount, hpower]; decide +kernel) (by decide),
      log10_one]
    decide

/-! ## `SP_STATS` (R440) -/

/-- SFDR by the two strongest peaks (R447). -/
theorem sfdr_eq (ps : List Peak) : sfdr ps =
    if 2 ≤ ps.length then fsub (ps.getD 0 { bin := 0, pwr := 0 }).pwr (ps.getD 1 { bin := 0, pwr := 0 }).pwr
    else posZero := by
  match ps with
  | [] => rfl
  | [_] => rfl
  | _ :: _ :: _ => simp [sfdr]

theorem readReg_stPkBin (s : State) (i : Nat) : readReg s (.stPkBin i) =
    if h : i < s.sp.stPeaks.length then BitVec.ofNat 32 s.sp.stPeaks[i].bin else 0 := by
  rw [readReg]
  split
  · rw [List.getD_eq_getElem]
  · rw [List.getD_eq_default _ _ (by omega)]
    rfl

theorem readReg_stPkPwr (s : State) (i : Nat) : readReg s (.stPkPwr i) =
    if h : i < s.sp.stPeaks.length then s.sp.stPeaks[i].pwr else 0 := by
  rw [readReg]
  split
  · rw [List.getD_eq_getElem]
  · rw [List.getD_eq_default _ _ (by omega)]

/-- Settles O20: the completion stores the statistics of the display array, which the peak registers then read. -/
theorem spStatsResult : Obligations.SpStatsResult := by
  intro s rest hidle hvalid hsched
  obtain ⟨t, hstep, hmem, hsp, hdone, hframe, hdmDone, hdm, herr, hirq, hrest, hrdata⟩ :=
    step_completes_spec (s := s.setSp { s.sp with pending := some .stats }) hsched rfl
  have hpeaks : t.sp.stPeaks = framePeaks (s.mem.block .spDisp s.sp.actN.toNat) s.sp.minSep.toNat := by
    rw [hsp]
    rfl
  refine ⟨_, t, exec_spStats_configured hidle hvalid, hstep, ?_, ?_, fun i _ => ⟨?_, ?_⟩, ?_, hdone, hdmDone,
    hframe.trans (Bool.or_false _), hdm, herr, hirq, hrest, hrdata⟩
  · rw [hsp, ← hidle, ← sfdr_eq]
    rfl
  · rw [readReg, hpeaks]
    rfl
  · simp only [readReg_stPkBin, hpeaks]
    rfl
  · simp only [readReg_stPkPwr, hpeaks]
    rfl
  · intro a
    rw [hmem]
    rfl

end Sys2Proof.Machine
end

section
/-! The DEMOD engine over a stream: how many audio samples a run gives, and that a split stream gives the audio of one run
(O37). -/

namespace Sys2Proof.Machine

/-! ## The counters of the two filters (R308, R501) -/

/-- A count reached in two parts: the groups of the whole are those of the first part and those of the second, counted from
where the first part left the counter. -/
theorem add_div_carry (m n : Nat) {r : Nat} (hr : 0 < r) : (m + n) / r = m / r + (m % r + n) / r := by
  have hsplit : m + n = r * (m / r) + (m % r + n) := by
    have := Nat.div_add_mod m r
    omega
  rw [hsplit, Nat.mul_add_div hr]

/-- The outputs of stage 1 after `n` samples: one for each full group (R308). -/
def Demod.stage1Outputs (d : Demod) (n : Nat) : Nat := (d.fir1.cnt + n) / d.r1.toNat

/-- The engine `e` has the counters that `d` has after `n` samples, and the same factors (R502). -/
structure Demod.CountsAfter (d : Demod) (n : Nat) (e : Demod) : Prop where
  factors : e.r1 = d.r1 ∧ e.r2 = d.r2
  fir1 : e.fir1.cnt = (d.fir1.cnt + n) % d.r1.toNat
  fir2 : e.fir2.cnt = (d.fir2.cnt + d.stage1Outputs n) % d.r2.toNat

/-- The counters of both filters are in range for their factors. -/
def Demod.CountersInRange (d : Demod) : Prop := d.fir1.cnt < d.r1.toNat ∧ d.fir2.cnt < d.r2.toNat

theorem Demod.CountsAfter.inRange {d e : Demod} {n : Nat} (he : d.CountsAfter n e) (hd : d.CountersInRange) :
    e.CountersInRange := by
  obtain ⟨hr1, hr2⟩ := he.factors
  obtain ⟨h1, h2⟩ := hd
  unfold Demod.CountersInRange
  rw [hr1, hr2, he.fir1, he.fir2]
  exact ⟨Nat.mod_lt _ (by omega), Nat.mod_lt _ (by omega)⟩

theorem processSample_factors (h1 h2 : List F32) (d : Demod) (x : C32) :
    (processSample h1 h2 d x).1.r1 = d.r1 ∧ (processSample h1 h2 d x).1.r2 = d.r2 := by
  rw [processSample_frame]
  exact ⟨rfl, rfl⟩

/-- One sample: stage 1 counts it, stage 2 counts what stage 1 gives, and audio comes where stage 2 gives an output. -/
theorem processSample_counts {d : Demod} (hd : d.CountersInRange) (h1 h2 : List F32) (x : C32) :
    d.CountsAfter 1 (processSample h1 h2 d x).1 ∧
      (processSample h1 h2 d x).2.toList.length = (d.fir2.cnt + d.stage1Outputs 1) / d.r2.toNat := by
  obtain ⟨hc1, hc2⟩ := hd
  obtain ⟨hcnt1, hout1⟩ := firPush_cnt C32.zero (innerProductC h1) (t := d.t1.toNat) hc1 (rotate d.ncoPhase x)
  change (stage1 h1 d x).2.toList.length = d.stage1Outputs 1 at hout1
  have hfir1 : (processSample h1 h2 d x).1.fir1.cnt = (d.fir1.cnt + 1) % d.r1.toNat := by
    rw [(processSample_filters h1 h2 d x).1]
    exact hcnt1
  suffices h : (processSample h1 h2 d x).1.fir2.cnt = (d.fir2.cnt + d.stage1Outputs 1) % d.r2.toNat ∧
      (processSample h1 h2 d x).2.toList.length = (d.fir2.cnt + d.stage1Outputs 1) / d.r2.toNat from
    ⟨⟨processSample_factors h1 h2 d x, hfir1, h.1⟩, h.2⟩
  rw [← hout1]
  cases hz : (stage1 h1 d x).2 with
  | none =>
    rw [processSample_of_no_stage1 hz]
    exact ⟨(Nat.mod_eq_of_lt hc2).symm, (Nat.div_eq_of_lt hc2).symm⟩
  | some z =>
    obtain ⟨hcnt2, hout2⟩ := firPush_cnt posZero (innerProduct h2) (t := d.t2.toNat) hc2 (detect z (mixed h1 d x)).2
    change (stage2 h2 d (detect z (mixed h1 d x)).2).2.toList.length = _ at hout2
    cases hv : (stage2 h2 d (detect z (mixed h1 d x)).2).2 with
    | none =>
      rw [processSample_of_no_stage2 hz hv]
      rw [hv] at hout2
      exact ⟨hcnt2, hout2⟩
    | some v =>
      rw [processSample_of_stage2 hz hv, audioOut_frame]
      rw [hv] at hout2
      exact ⟨hcnt2, hout2⟩

/-- R502: the counters a run leaves, and how many audio samples it gives. -/
theorem processAll_counts {d : Demod} (hd : d.CountersInRange) (h1 h2 : List F32) (xs : List C32) :
    d.CountsAfter xs.length (processAll h1 h2 d xs).1 ∧
      (processAll h1 h2 d xs).2.length = (d.fir2.cnt + d.stage1Outputs xs.length) / d.r2.toNat := by
  induction xs generalizing d with
  | nil =>
    obtain ⟨hc1, hc2⟩ := hd
    have hnone : d.stage1Outputs 0 = 0 := Nat.div_eq_of_lt hc1
    refine ⟨⟨⟨rfl, rfl⟩, (Nat.mod_eq_of_lt hc1).symm, ?_⟩, ?_⟩
    · rw [List.length_nil, hnone]
      exact (Nat.mod_eq_of_lt hc2).symm
    · rw [List.length_nil, hnone]
      exact (Nat.div_eq_of_lt hc2).symm
  | cons x xs ih =>
    obtain ⟨hone, hout⟩ := processSample_counts hd h1 h2 x
    obtain ⟨hrest, hlen⟩ := ih (hone.inRange hd)
    obtain ⟨hr1, hr2⟩ := hone.factors
    obtain ⟨hc1, hc2⟩ := hd
    have hsum : d.stage1Outputs (x :: xs).length =
        d.stage1Outputs 1 + (processSample h1 h2 d x).1.stage1Outputs xs.length := by
      rw [Demod.stage1Outputs, Demod.stage1Outputs, Demod.stage1Outputs, hone.fir1, hr1, List.length_cons,
        ← add_div_carry _ _ (by omega)]
      congr 1
      omega
    have hfir1 := hrest.fir1
    have hfir2 := hrest.fir2
    rw [hone.fir1, hr1, Nat.mod_add_mod] at hfir1
    rw [hone.fir2, hr2, Nat.mod_add_mod, add_assoc, ← hsum] at hfir2
    refine ⟨⟨⟨hrest.factors.1.trans hr1, hrest.factors.2.trans hr2⟩, ?_, hfir2⟩, ?_⟩
    · rw [processAll, hfir1, List.length_cons]
      congr 1
      omega
    · rw [processAll, List.length_append, hout, hlen, hone.fir2, hr2, ← add_div_carry _ _ (by omega), add_assoc, ← hsum]

/-- A run over two lists of samples is a run over the first and then over the second (R502). -/
theorem processAll_append (h1 h2 : List F32) (d : Demod) (xs ys : List C32) :
    processAll h1 h2 d (xs ++ ys) =
      ((processAll h1 h2 (processAll h1 h2 d xs).1 ys).1,
       (processAll h1 h2 d xs).2 ++ (processAll h1 h2 (processAll h1 h2 d xs).1 ys).2) := by
  induction xs generalizing d with
  | nil => rfl
  | cons x xs ih => simp only [List.cons_append, processAll, ih, List.append_assoc]

/-- Settles O37: the counts by induction on the samples, one sample at a time, and the split by induction on the first
list. -/
theorem audioStream : Obligations.AudioStream := by
  intro h1 h2 d xs hc1 hc2
  obtain ⟨hcounts, hlen⟩ := processAll_counts ⟨hc1, hc2⟩ h1 h2 xs
  exact ⟨hlen, hcounts.fir1, hcounts.fir2, processAll_append h1 h2 d xs⟩

end Sys2Proof.Machine
end

section
/-! The range of the discriminator (O41), and the level meter (O42). -/

namespace Sys2Proof.Machine

/-! ## The discriminator (R510) -/

theorem feq_posZero_iff (a : F32) : feq a posZero = true ↔ isZero a = true := by
  refine ⟨isZero_of_feq_posZero, fun h => ?_⟩
  exact (feq_iff _ _).mpr ⟨isNaN_of_isFinite (isFinite_of_isZero h), by decide, value_of_isZero h⟩

theorem isZero_fadd_zeros {a b : F32} (ha : isZero a = true) (hb : isZero b = true) : isZero (fadd a b) = true := by
  obtain ⟨hf, hv⟩ := value_fadd_of_isZero (isFinite_of_isZero ha) hb
  rw [← feq_posZero_iff, feq_iff]
  exact ⟨isNaN_of_isFinite hf, by decide, hv.trans (value_of_isZero ha)⟩

/-- `re` of the product with the conjugate of the previous sample. -/
def discRe (z p : C32) : F32 := fadd (fmul z.i p.i) (fmul z.q p.q)

/-- `im` of the product with the conjugate of the previous sample. -/
def discIm (z p : C32) : F32 := fsub (fmul z.q p.i) (fmul z.i p.q)

/-- Everything the discriminator can answer: `+0` for a product that is zero, else the angle of the product. -/
theorem disc_cases (z p : C32) :
    (isZero (discRe z p) = true ∧ isZero (discIm z p) = true ∧ disc z p = posZero) ∨
      (¬ (isZero (discRe z p) = true ∧ isZero (discIm z p) = true) ∧
        disc z p = atan2 (discIm z p) (discRe z p)) := by
  rw [disc_eq]
  simp only [feq_posZero_iff]
  by_cases h : isZero (discRe z p) = true ∧ isZero (discIm z p) = true
  · exact Or.inl ⟨h.1, h.2, if_pos h⟩
  · exact Or.inr ⟨h, if_neg h⟩

/-- Against a cleared previous sample the product of a finite sample is zero. -/
theorem disc_cleared {z : C32} (hi : isFinite z.i = true) (hq : isFinite z.q = true) :
    disc z C32.zero = posZero := by
  have hzi : isZero (fmul z.i C32.zero.i) = true := isZero_fmul_posZero hi
  have hzq : isZero (fmul z.q C32.zero.q) = true := isZero_fmul_posZero hq
  have hre : isZero (discRe z C32.zero) = true := isZero_fadd_zeros hzi hzq
  have him : isZero (discIm z C32.zero) = true :=
    isZero_fadd_zeros (isZero_fmul_posZero hq) ((isZero_fneg _).trans (isZero_fmul_posZero hi))
  rcases disc_cases z C32.zero with ⟨-, -, e⟩ | ⟨hne, -⟩
  · exact e
  · exact absurd ⟨hre, him⟩ hne

theorem atan2_bounds_of_not_nan {y x : F32} (hy : isNaN y = false) (hx : isNaN x = false)
    (hz : ¬ (isZero x = true ∧ isZero y = true)) :
    fle (fneg piF32) (atan2 y x) = true ∧ fle (atan2 y x) piF32 = true := by
  rcases atan2_cases y x with ⟨hn, -⟩ | ⟨-, -, -, hb⟩ | ⟨hzy, hzx, -⟩ | ⟨hyf, hxf, hne, -⟩
  · simp [hy, hx] at hn
  · exact hb
  · exact absurd ⟨hzx, hzy⟩ hz
  · exact atan2_bounds hyf hxf hne

theorem disc_bounds {z p : C32} (hre : isNaN (discRe z p) = false) (him : isNaN (discIm z p) = false) :
    fle (fneg piF32) (disc z p) = true ∧ fle (disc z p) piF32 = true := by
  rcases disc_cases z p with ⟨-, -, e⟩ | ⟨hne, e⟩ <;> rw [e]
  · decide
  · exact atan2_bounds_of_not_nan him hre hne

theorem disc_nan {z p : C32} (h : isNaN (discRe z p) = true ∨ isNaN (discIm z p) = true) : disc z p = qNaN := by
  rcases disc_cases z p with ⟨hre, him, -⟩ | ⟨-, e⟩
  · have hnre := isNaN_of_isFinite (isFinite_of_isZero hre)
    have hnim := isNaN_of_isFinite (isFinite_of_isZero him)
    simp [hnre, hnim] at h
  · exact e.trans (atan2_nan h.symm)

/-- A step of exactly pi. -/
theorem disc_exactly_pi {z p : C32} (hre : flt (discRe z p) posZero = true) (him : isZero (discIm z p) = true) :
    disc z p = if signBit (discIm z p) then fneg piF32 else piF32 := by
  rcases disc_cases z p with ⟨hz, -, -⟩ | ⟨-, e⟩
  · obtain ⟨-, -, hlt⟩ := (flt_iff _ _).mp hre
    rw [value_of_isZero hz, show value posZero = 0 from rfl] at hlt
    exact absurd hlt (lt_irrefl _)
  · exact e.trans (atan2_exactly_pi him hre)

/-- Settles O41: what the discriminator answers to each kind of product. -/
theorem discriminatorRange : Obligations.DiscriminatorRange :=
  ⟨fun _ => disc_cleared, fun _ _ => disc_bounds, fun _ _ => disc_nan, fun _ _ => disc_exactly_pi⟩

/-! ## The level meter (R505) -/

theorem pickMax_cases (a b : F32) : pickMax a b = a ∨ pickMax a b = b := by
  unfold pickMax
  split
  · exact Or.inl rfl
  · exact Or.inr rfl

theorem le_pickMax_left {a b : F32} (ha : isNaN a = false) (hb : isNaN b = false) : fle a (pickMax a b) = true := by
  by_cases h : flt b a = true
  · rw [pickMax, if_pos h]
    exact fle_refl ha
  · rw [pickMax, if_neg h]
    exact fle_of_not_flt hb ha h

/-- The meter from a level `pk` on (R501). -/
def meterFrom (pk : F32) (audio : List F32) : F32 := audio.foldl (fun pk out => pickMax (fabs out) pk) pk

theorem meterFrom_cons (pk v : F32) (audio : List F32) :
    meterFrom pk (v :: audio) = meterFrom (pickMax (fabs v) pk) audio := rfl

/-- The meter never takes a value that was not there. -/
theorem meterFrom_mem (pk : F32) (audio : List F32) :
    meterFrom pk audio = pk ∨ ∃ v ∈ audio, meterFrom pk audio = fabs v := by
  induction audio generalizing pk with
  | nil => exact Or.inl rfl
  | cons x audio ih =>
    rw [meterFrom_cons]
    rcases ih (pickMax (fabs x) pk) with h | ⟨v, hv, h⟩
    · rcases pickMax_cases (fabs x) pk with hx | hpk
      · exact Or.inr ⟨x, List.mem_cons_self, h.trans hx⟩
      · exact Or.inl (h.trans hpk)
    · exact Or.inr ⟨v, List.mem_cons_of_mem _ hv, h⟩

theorem isNaN_right_of_fle {a b : F32} (h : fle a b = true) : isNaN b = false := by
  obtain ⟨-, hb, -⟩ := (fle_iff _ _).mp h
  exact hb

/-- The meter never falls, so that it stays a number. -/
theorem le_meterFrom {pk : F32} (hpk : isNaN pk = false) (audio : List F32) : fle pk (meterFrom pk audio) = true := by
  induction audio generalizing pk with
  | nil => exact fle_refl hpk
  | cons x audio ih =>
    have hstep := le_pickMax_right (fabs x) hpk
    exact fle_trans hstep (ih (isNaN_right_of_fle hstep))

theorem isNaN_fabs (a : F32) : isNaN (fabs a) = isNaN a := by simp [isNaN]

/-- Every number among the samples is below the meter. -/
theorem fabs_le_meterFrom {pk : F32} (hpk : isNaN pk = false) {audio : List F32} {v : F32} (hv : v ∈ audio)
    (hn : isNaN v = false) : fle (fabs v) (meterFrom pk audio) = true := by
  induction audio generalizing pk with
  | nil => cases hv
  | cons x audio ih =>
    have hnext := isNaN_right_of_fle (le_pickMax_right (fabs x) hpk)
    rcases List.mem_cons.mp hv with rfl | hmem
    · exact fle_trans (le_pickMax_left ((isNaN_fabs v).trans hn) hpk) (le_meterFrom hnext audio)
    · exact ih hnext hmem

/-- Settles O42: the meter is a running maximum from `+0`. -/
theorem meterIsLargest : Obligations.MeterIsLargest := fun audio =>
  have hzero : isNaN posZero = false := by decide
  ⟨meterFrom_mem posZero audio, isNaN_right_of_fle (le_meterFrom hzero audio), fun _ hv hn => fabs_le_meterFrom hzero hv hn⟩

end Sys2Proof.Machine
end

section
/-! The two commands that mark a reset as pending (O10). -/

namespace Sys2Proof.Machine

/-! ## The pending words (R46, R55) -/

theorem dmPendWord_resetPend (d : Demod) : (dmPendWord d).getLsbD 3 = d.resetPend := by
  unfold dmPendWord bitAt
  generalize d.dirtyMod = a, d.dirtyFs = b, d.dirtyTau = c, d.resetPend = e
  revert a b c e
  decide

theorem spPendWord_resetPend (e : Spec) : (spPendWord e).getLsbD 2 = e.resetPend := by
  unfold spPendWord bitAt
  generalize e.dirtyN = a, e.dirtyWin = b, e.resetPend = c
  revert a b c
  decide

/-! ## `DM_RESET` and `SP_RESET` (R490, R380) -/

theorem setDm_frame (s : State) (d : Demod) :
    let t := s.setDm d
    t.sp = s.sp ∧ SameRam s t ∧ SameDone s t ∧ SameError s t ∧ SameHost s t :=
  ⟨rfl, fun _ => rfl, ⟨rfl, rfl, rfl⟩, ⟨rfl, rfl, rfl⟩, rfl, rfl, rfl⟩

/-- Settles O10: each command sets the flag of one engine, and the pending word shows it. -/
theorem resetCommandsMarkPending : Obligations.ResetCommandsMarkPending := fun s =>
  ⟨⟨_, rfl, rfl, dmPendWord_resetPend _, setDm_frame s _⟩, ⟨_, rfl, rfl, spPendWord_resetPend _, setSp_frame s _⟩⟩

end Sys2Proof.Machine
end

section
/-! What a `DM_RUN` leaves: on a built, unchanged configuration (O13), and on a changed or missing one (O14). -/

namespace Sys2Proof.Machine

/-! ## The engine before and after the command (R204, R205) -/

/-- The engine `d` with the command `c` accepted: busy, the four flags cleared. -/
def Demod.accepted (d : Demod) (c : DmRun) : Demod :=
  { d with pending := some c, dirtyMod := false, dirtyFs := false, dirtyTau := false, resetPend := false }

/-- The engine `d` after a command that gave the audio samples `audio` (R205, R505). -/
def Demod.completed (d : Demod) (audio : List F32) : Demod :=
  { d with
    dirtyMod := false, dirtyFs := false, dirtyTau := false, resetPend := false, pending := none,
    audCount := BitVec.ofNat 32 audio.length, audPeak := peakMeter audio }

/-- The engine a `DM_RUN` starts from: `DM_CLEAR_ALL` if a reset was pending (R490, R492). -/
def dmRunStart (c : DmRun) (d : Demod) : Demod := if c.resetPend then dmClearAll d else d

/-- No configuration register has been written since it was latched (R46). -/
def Demod.Clean (d : Demod) : Prop := d.dirtyMod = false ∧ d.dirtyFs = false ∧ d.dirtyTau = false

/-- `PROCESS` of a `DM_RUN` on the retuned engine `d` with the coefficients RAM holds (R497, R500, R501). -/
def dmRunAudio (c : DmRun) (m : Memory) (d : Demod) : Demod × List F32 :=
  processAll (m.block .dmH1 d.t1.toNat) (m.block .dmH2 d.t2.toNat) (dmRunTuned c d) (iqSamples m .dmIq c.n)

theorem acceptDmRun_accepted (n : Nat) (s : State) (rest : List Event) :
    ((acceptDmRun n s).setSchedule rest).dm = s.dm.accepted (latchDmRun n s.dm) := rfl

theorem exec_dmRun_idle {s : State} {n : Nat} (hp : s.dm.pending = none) (hn : n ≤ 16384) :
    exec (.dmRun n) s = .next (acceptDmRun n s) := by
  rcases exec_dmRun_cases n s with ⟨hb, -⟩ | ⟨-, hgt, -⟩ | ⟨-, -, e⟩
  · simp [hp] at hb
  · exact absurd hgt (Nat.not_lt.mpr hn)
  · exact e

theorem dmRunAudio_length_le (c : DmRun) (m : Memory) (d : Demod) : (dmRunAudio c m d).2.length ≤ c.n := by
  have h := processAll_length_le (m.block .dmH1 d.t1.toNat) (m.block .dmH2 d.t2.toNat) (dmRunTuned c d)
    (iqSamples m .dmIq c.n)
  rwa [iqSamples_length] at h

/-- `PROCESS` leaves the active configuration alone. -/
theorem dmRunAudio_active (c : DmRun) (m : Memory) (d : Demod) : (dmRunAudio c m d).1.active = d.active :=
  (congrArg Demod.active (processAll_frame (m.block .dmH1 d.t1.toNat) (m.block .dmH2 d.t2.toNat) (dmRunTuned c d)
    (iqSamples m .dmIq c.n)) :)

theorem Demod.Clean.dmRunAudio {d : Demod} (h : d.Clean) (c : DmRun) (m : Memory) :
    (dmRunAudio c m d).1.Clean := by
  unfold Machine.dmRunAudio
  rw [processAll_frame]
  exact h

theorem Demod.Clean.dmRunStart {d : Demod} (h : d.Clean) (c : DmRun) : (dmRunStart c d).Clean := by
  unfold Machine.dmRunStart
  split <;> exact h

/-- Of a clean engine only the reset and the command are taken off. -/
theorem Demod.Clean.completed_eq {d : Demod} (h : d.Clean) (audio : List F32) :
    d.completed audio =
      { d with resetPend := false, pending := none, audCount := BitVec.ofNat 32 audio.length,
               audPeak := peakMeter audio } := by
  obtain ⟨hmod, hfs, htau⟩ := h
  simp only [Demod.completed, hmod, hfs, htau]

/-- The registers that `active` compares. -/
theorem Demod.registers_of_active {d e : Demod} (h : e.active = d.active) :
    e.valid = d.valid ∧ e.actMod = d.actMod ∧ e.actFs = d.actFs ∧ e.actTau = d.actTau ∧ e.r1 = d.r1 ∧ e.r2 = d.r2 ∧
      e.t1 = d.t1 ∧ e.t2 = d.t2 ∧ e.fint = d.fint ∧ e.faud = d.faud ∧ e.c1 = d.c1 ∧ e.c2 = d.c2 ∧
      e.deemphA = d.deemphA :=
  ⟨(congrArg Demod.valid h :), (congrArg Demod.actMod h :), (congrArg Demod.actFs h :), (congrArg Demod.actTau h :),
    (congrArg Demod.r1 h :), (congrArg Demod.r2 h :), (congrArg Demod.t1 h :), (congrArg Demod.t2 h :),
    (congrArg Demod.fint h :), (congrArg Demod.faud h :), (congrArg Demod.c1 h :), (congrArg Demod.c2 h :),
    (congrArg Demod.deemphA h :)⟩

/-! ## The pending reset (R490, R492) -/

/-- The pending reset leaves the configuration alone (R492). -/
theorem dmRunStart_active (c : DmRun) (d : Demod) : (dmRunStart c d).active = d.active := by
  unfold dmRunStart
  split <;> rfl

theorem dmRunStart_valid (c : DmRun) (d : Demod) : (dmRunStart c d).valid = d.valid := by
  obtain ⟨hvalid, -⟩ := Demod.registers_of_active (dmRunStart_active c d)
  exact hvalid

/-- The reset leaves the rate, so the engine is retuned as it would be without (R500). -/
theorem dmRunTuned_start (c : DmRun) (d : Demod) :
    dmRunTuned c (dmRunStart c d) =
      { dmRunStart c d with
        tuneAct := clampTune c.tune d.actFs, ncoInc := ncoSet (fneg (clampTune c.tune d.actFs)) d.actFs,
        volAct := c.vol, alphaAct := c.amAlpha } := by
  obtain ⟨-, -, hfs, -⟩ := Demod.registers_of_active (dmRunStart_active c d)
  rw [← hfs]
  rfl

/-- The reset leaves the tap counts, so the coefficients are those of the configuration. -/
theorem dmRunAudio_start (c : DmRun) (m : Memory) (d : Demod) :
    dmRunAudio c m (dmRunStart c d) =
      processAll (m.block .dmH1 d.t1.toNat) (m.block .dmH2 d.t2.toNat) (dmRunTuned c (dmRunStart c d))
        (iqSamples m .dmIq c.n) := by
  obtain ⟨-, -, -, -, -, -, ht1, ht2, -⟩ := Demod.registers_of_active (dmRunStart_active c d)
  rw [dmRunAudio, ht1, ht2]

/-! ## The parts of the computation (R491) -/

section
variable {c : DmRun} {s : State} {d : Demod}

theorem dmRunReset_accepted (h : s.dm = d.accepted c) : dmRunReset c s = s.setDm ((dmRunStart c d).accepted c) := by
  rw [dmRunReset, dmRunStart, h]
  split
  · rfl
  · rw [← h]
    rfl

theorem needsRebuild_accepted (h : s.dm = d.accepted c) :
    needsRebuild c (dmRunReset c s).dm = needsRebuild c d := by
  rw [dmRunReset_accepted h, dmRunStart]
  split <;> rfl

theorem raise_setDm (code : ErrCode) (info : Word) (s : State) (d : Demod) :
    raise code info (s.setDm d) = (raise code info s).setDm d := by
  rcases raise_cases s code info with ⟨he, e⟩ | ⟨he, e⟩ <;> rw [e]
  · exact if_pos he
  · exact if_neg (by simp [he])

/-- RAM with the coefficients of a successful build (R496). -/
def Memory.withCoefficients (m : Memory) (h1 h2 : List F32) : Memory := (m.setBlock .dmH1 h1).setBlock .dmH2 h2

/-- Without a reason for a rebuild only the pending reset is done. -/
theorem dmRunConfigured_kept (h : s.dm = d.accepted c) (hneed : needsRebuild c d = false) :
    dmRunConfigured c s = s.setDm ((dmRunStart c d).accepted c) := by
  rw [← dmRunReset_accepted h]
  exact if_neg (by simp [needsRebuild_accepted h, hneed])

theorem dmRunConfigured_rebuild (h : s.dm = d.accepted c) (hneed : needsRebuild c d = true) :
    dmRunConfigured c s = rebuild c.mod c.fs c.tau (s.setDm ((dmRunStart c d).accepted c)) := by
  rw [← dmRunReset_accepted h]
  exact if_pos ((needsRebuild_accepted h).trans hneed)

/-- A failed rebuild records its reason and leaves what the pending reset left (R496). -/
theorem dmRunConfigured_failed (h : s.dm = d.accepted c) (hneed : needsRebuild c d = true) {reason : Word}
    (hfail : rebuildDesigns c.mod c.fs c.tau = .error reason) :
    dmRunConfigured c s = (raise .buildFail reason s).setDm ((dmRunStart c d).accepted c) := by
  rw [dmRunConfigured_rebuild h hneed, ← raise_setDm]
  simp only [rebuild, hfail]

/-- A successful rebuild leaves the new configuration and its coefficients (R496). -/
theorem dmRunConfigured_built (h : s.dm = d.accepted c) (hneed : needsRebuild c d = true) {h1 h2 : List F32}
    (hok : rebuildDesigns c.mod c.fs c.tau = .ok (h1, h2)) :
    dmRunConfigured c s = (s.setMem (s.mem.withCoefficients h1 h2)).setDm
      ((rebuiltDemod c.mod c.fs c.tau (dmRunStart c d)).accepted c) := by
  rw [dmRunConfigured_rebuild h hneed]
  simp only [rebuild, hok]
  rfl

/-- The state after a run of the samples through the engine `d`: audio, count and meter are written, and the command is
done (R205, R505). -/
def withAudio (c : DmRun) (s : State) (d : Demod) : State :=
  ((s.setMem (s.mem.setBlock .dmAud (dmRunAudio c s.mem d).2)).setDm
    ((dmRunAudio c s.mem d).1.completed (dmRunAudio c s.mem d).2)).setDone true s.spDone s.frameNew

/-- With a configuration the samples are processed. -/
theorem dmRunCompute_valid {u : State} (hu : dmRunConfigured c s = u.setDm (d.accepted c)) (hv : d.valid = true) :
    finishDm (dmRunCompute c s) = withAudio c u d := by
  have hprocess : dmRunCompute c s = dmRunProcess c (u.setDm (d.accepted c)) := hu ▸ if_pos (hu ▸ hv)
  rw [hprocess, dmRunProcess_eq c _ d (d.accepted c) rfl]
  rfl

/-- Without one the run ends without audio. -/
theorem dmRunCompute_invalid {u : State} (hu : dmRunConfigured c s = u.setDm (d.accepted c)) (hv : d.valid = false)
    (herr : u.err = true) :
    finishDm (dmRunCompute c s) = (u.setDm (d.completed [])).setDone true u.spDone u.frameNew := by
  have hv' : ¬ (dmRunConfigured c s).dm.valid = true := by simp [hu, Demod.accepted, hv]
  rw [dmRunCompute, if_neg hv', hu, raise_setDm, raise_of_recorded herr]
  rfl

end

/-! ## RAM after the command (R111, R496, R505) -/

/-- What a run that gives `p` leaves of `s`: the engine, the audio in its window, and every byte that `kept` names for the
audio (R505). -/
def RunLeaves (kept : List F32 → Nat → Prop) (s t : State) (p : Demod × List F32) : Prop :=
  t.dm = p.1.completed p.2 ∧ (∀ i, i < p.2.length → t.mem.get .dmAud i = p.2.getD i 0) ∧ SameRamWhere (kept p.2) s t

/-- The bytes outside the audio. -/
def outsideAudio (audio : List F32) (a : Nat) : Prop := ¬ inWords .dmAud audio.length a

theorem withAudio_leaves (c : DmRun) (s : State) (d : Demod) :
    RunLeaves outsideAudio s (withAudio c s d) (dmRunAudio c s.mem d) :=
  ⟨rfl, fun _ hi => get_setBlock_getD _ _ hi, fun _ ha => readByte_setBlock_of_not_inWords _ _ rfl ha⟩

theorem withAudio_active (c : DmRun) (s : State) (d : Demod) : (withAudio c s d).dm.active = d.active :=
  dmRunAudio_active c s.mem d

/-- The audio is below the coefficients. -/
theorem withAudio_get_coefficient {c : DmRun} (hn : c.n ≤ Config.iqDepth) (s : State) (d : Demod) {w : Ram}
    (hw : 0x30000 ≤ w.base) (k : Nat) : (withAudio c s d).mem.get w k = s.mem.get w k := by
  have hlen := dmRunAudio_length_le c s.mem d
  have hbase : Ram.dmAud.base = 0x20000 := rfl
  simp only [Config.iqDepth] at hn
  exact get_setBlock_of_outside _ _ _ _ _ (Or.inr (by omega))

section
variable {h1 : List F32} (h2 : List F32) (hfit : h1.length ≤ Config.firTMax) (m : Memory)
include hfit

theorem withCoefficients_get1 {k : Nat} (hk : k < h1.length) :
    (m.withCoefficients h1 h2).get .dmH1 k = h1.getD k 0 := by
  have hbelow : Ram.dmH1.base + 4 * k + 4 ≤ Ram.dmH2.base := by
    simp only [Ram.base, Config.firTMax] at hfit ⊢
    omega
  rw [Memory.withCoefficients, get_setBlock_of_outside _ _ _ _ _ (Or.inl hbelow), get_setBlock_getD _ _ hk]

theorem withCoefficients_block1 : (m.withCoefficients h1 h2).block .dmH1 h1.length = h1 := by
  have hbelow : Ram.dmH1.base + 4 * h1.length ≤ Ram.dmH2.base := by
    simp only [Ram.base, Config.firTMax] at hfit ⊢
    omega
  rw [Memory.withCoefficients, block_setBlock_of_outside _ _ _ _ _ (Or.inl hbelow), block_setBlock]

end

theorem iqSamples_withCoefficients (m : Memory) (h1 h2 : List F32) {n : Nat} (hn : n ≤ Config.iqDepth) :
    iqSamples (m.withCoefficients h1 h2) .dmIq n = iqSamples m .dmIq n := by
  simp only [Config.iqDepth] at hn
  rw [Memory.withCoefficients, iqSamples_setBlock _ _ _ _ (by simp only [Ram.base]; omega),
    iqSamples_setBlock _ _ _ _ (by simp only [Ram.base]; omega)]

/-- The samples run through the new configuration with the coefficients of its designs. -/
theorem dmRunAudio_built {c : DmRun} (hn : c.n ≤ Config.iqDepth) {h1 h2 : List F32}
    (hok : rebuildDesigns c.mod c.fs c.tau = .ok (h1, h2)) (m : Memory) (d : Demod) :
    dmRunAudio c (m.withCoefficients h1 h2) (rebuiltDemod c.mod c.fs c.tau d) =
      processAll h1 h2 (dmRunTuned c (rebuiltDemod c.mod c.fs c.tau d)) (iqSamples m .dmIq c.n) := by
  obtain ⟨hfit, hlen1, hlen2, -⟩ := rebuildDesigns_ok hok
  have hderived := rebuiltDemod_derived c.tau d hfit
  have ht1 : (rebuiltDemod c.mod c.fs c.tau d).t1.toNat = h1.length := hderived.t1.trans hlen1.symm
  have ht2 : (rebuiltDemod c.mod c.fs c.tau d).t2.toNat = h2.length := hderived.t2.trans hlen2.symm
  rw [dmRunAudio, ht1, ht2, withCoefficients_block1 h2 (hlen1 ▸ hfit), iqSamples_withCoefficients m h1 h2 hn,
    Memory.withCoefficients, block_setBlock]

/-! ## The acceptance and the completion step together (R201, R205) -/

theorem step_completes_demod {s : State} {c : DmRun} {rest : List Event} (hs : s.schedule = .demod :: rest)
    (hp : s.dm.pending = some c) : step s = .next (finishDm (dmRunCompute c (s.setSchedule rest))) := by
  have hbusy : (s.setSchedule rest).dm.pending = some c := hp
  rw [step_scheduled hs, takeStep_demod, completeDemod_busy hbusy]

/-- The acceptance and the completion of a `DM_RUN` that DEMOD takes next. -/
theorem dmRun_completes {s : State} {n : Nat} {rest : List Event} (hp : s.dm.pending = none) (hn : n ≤ 16384)
    (hs : s.schedule = .demod :: rest) :
    exec (.dmRun n) s = .next (acceptDmRun n s) ∧ step (acceptDmRun n s) =
      .next (finishDm (dmRunCompute (latchDmRun n s.dm) ((acceptDmRun n s).setSchedule rest))) :=
  ⟨exec_dmRun_idle hp hn, step_completes_demod hs rfl⟩

/-- Settles O13: nothing is rebuilt, so the samples run through the configuration that stands. -/
theorem dmRunResult : Obligations.DmRunResult := by
  intro s n rest hp hn hv hmod hdirtyMod hdirtyFs hdirtyTau hs
  obtain ⟨hexec, hstep⟩ := dmRun_completes hp hn hs
  have hneed : needsRebuild (latchDmRun n s.dm) s.dm = false := by
    simp [needsRebuild, latchDmRun, hv, hmod, hdirtyMod, hdirtyFs, hdirtyTau]
  have hconf := dmRunConfigured_kept (acceptDmRun_accepted n s rest) hneed
  rw [dmRunCompute_valid hconf ((dmRunStart_valid _ _).trans hv)] at hstep
  have hclean : s.dm.Clean := ⟨hdirtyMod, hdirtyFs, hdirtyTau⟩
  have hrun := (hclean.dmRunStart (latchDmRun n s.dm)).dmRunAudio (latchDmRun n s.dm) s.mem
  have haudio := dmRunAudio_start (latchDmRun n s.dm) s.mem s.dm
  rw [dmRunTuned_start] at haudio
  obtain ⟨hdm, hget, hbyte⟩ : RunLeaves outsideAudio _ _ _ :=
    haudio ▸ withAudio_leaves (latchDmRun n s.dm) ((acceptDmRun n s).setSchedule rest) _
  exact ⟨_, _, hexec, hstep, hdm.trans ((haudio ▸ hrun).completed_eq _), hget, hbyte, rfl, rfl, rfl, rfl,
    ⟨rfl, rfl, rfl⟩, rfl, rfl, rfl⟩

/-! ## A rebuild that fails and one that succeeds (R495, R496) -/

section
variable {c : DmRun} {s t : State} {d : Demod}

theorem dmPendWord_eq_zero {d : Demod} (hmod : d.dirtyMod = false) (hfs : d.dirtyFs = false) (htau : d.dirtyTau = false)
    (hreset : d.resetPend = false) : dmPendWord d = 0 := by
  simp [dmPendWord, bitAt, hmod, hfs, htau, hreset]

/-- What every outcome of a `DM_RUN` leaves: the shadows as they were, no flag and no command pending, and nothing but RAM,
DEMOD, the error record and `DM_DONE` changed. -/
theorem dmRun_frame (h : s.dm = d.accepted c) (ht : finishDm (dmRunCompute c s) = t) :
    t.dmDone = true ∧ t.dm.pending = none ∧ t.dm.mod = d.mod ∧ t.dm.fs = d.fs ∧ t.dm.tau = d.tau ∧ t.dm.tune = d.tune ∧
      t.dm.vol = d.vol ∧ t.dm.amAlpha = d.amAlpha ∧ dmPendWord t.dm = 0 ∧ t.sp = s.sp ∧ t.spDone = s.spDone ∧
      t.frameNew = s.frameNew ∧ t.irqEn = s.irqEn ∧ t.schedule = s.schedule ∧ t.rdata = s.rdata := by
  obtain ⟨hs, hd, -⟩ := dmRunCompute_frame c s
  generalize dmRunCompute c s = u at *
  subst ht
  rw [h] at hd
  rw [hd] at hs
  rw [hs]
  exact ⟨rfl, rfl, rfl, rfl, rfl, rfl, rfl, rfl, dmPendWord_eq_zero rfl rfl rfl rfl, rfl, rfl, rfl, rfl, rfl, rfl⟩

/-- A failed rebuild: the configuration stays, the samples run through it, and without one there is no audio. -/
theorem dmRun_failed (h : s.dm = d.accepted c) (hneed : needsRebuild c d = true) {reason : Word}
    (hfail : rebuildDesigns c.mod c.fs c.tau = .error reason) (ht : finishDm (dmRunCompute c s) = t) :
    let p := processAll (s.mem.block .dmH1 d.t1.toNat) (s.mem.block .dmH2 d.t2.toNat) (dmRunTuned c (dmRunStart c d))
      (iqSamples s.mem .dmIq c.n)
    ErrorRaised 0x06 reason s t ∧ t.dm.active = d.active ∧
    (d.valid = true → RunLeaves outsideAudio s t p) ∧
    (d.valid = false → t.dm = (dmRunStart c d).completed [] ∧ SameRam s t) := by
  subst ht
  have hconf := dmRunConfigured_failed h hneed hfail
  have herror := raise_errorRaised .buildFail reason s
  have hactive := dmRunStart_active c d
  have hmem := raise_mem s .buildFail reason
  have hrecorded := raise_err s .buildFail reason
  generalize raise .buildFail reason s = u at *
  rw [← hmem]
  cases hv : d.valid with
  | true =>
    rw [dmRunCompute_valid hconf ((dmRunStart_valid c d).trans hv)]
    have hleaves := withAudio_leaves c u (dmRunStart c d)
    rw [dmRunAudio_start] at hleaves
    obtain ⟨hdm, hget, hbyte⟩ := hleaves
    refine ⟨herror, (withAudio_active c u _).trans hactive, fun _ => ⟨hdm, hget, fun a ha => ?_⟩,
      fun hf => by simp at hf⟩
    exact (hbyte a ha).trans (congrArg (·.readByte a) hmem)
  | false =>
    rw [dmRunCompute_invalid hconf ((dmRunStart_valid c d).trans hv) hrecorded]
    refine ⟨herror, hactive, fun hf => by simp at hf, fun _ => ⟨rfl, fun a => ?_⟩⟩
    rw [← hmem]
    rfl

/-- A successful rebuild: the new configuration and its coefficients stand, and the samples run through them. -/
theorem dmRun_built (hn : c.n ≤ Config.iqDepth) (h : s.dm = d.accepted c) (hneed : needsRebuild c d = true)
    {h1 h2 : List F32} (hok : rebuildDesigns c.mod c.fs c.tau = .ok (h1, h2)) (ht : finishDm (dmRunCompute c s) = t) :
    let e := rebuiltDemod c.mod c.fs c.tau (dmRunStart c d)
    let p := processAll h1 h2 (dmRunTuned c e) (iqSamples s.mem .dmIq c.n)
    SameError s t ∧ t.dm.active = e.active ∧
    (∀ k, k < h1.length → t.mem.get .dmH1 k = h1.getD k 0) ∧ (∀ k, k < h2.length → t.mem.get .dmH2 k = h2.getD k 0) ∧
    RunLeaves
      (fun audio a => ¬ inWords .dmH1 h1.length a ∧ ¬ inWords .dmH2 h2.length a ∧ ¬ inWords .dmAud audio.length a) s t p := by
  subst ht
  obtain ⟨hfit, hlen1, -⟩ := rebuildDesigns_ok hok
  rw [← hlen1] at hfit
  rw [dmRunCompute_valid (dmRunConfigured_built h hneed hok) rfl]
  have hleaves := withAudio_leaves c (s.setMem (s.mem.withCoefficients h1 h2))
    (rebuiltDemod c.mod c.fs c.tau (dmRunStart c d))
  rw [setMem_mem, dmRunAudio_built hn hok] at hleaves
  obtain ⟨hdm, hget, hbyte⟩ := hleaves
  refine ⟨⟨rfl, rfl, rfl⟩, withAudio_active c _ _, fun k hk => ?_, fun k hk => ?_, hdm, hget, fun a ⟨ha1, ha2, ha⟩ => ?_⟩
  · rw [withAudio_get_coefficient hn _ _ (by decide)]
    exact withCoefficients_get1 h2 hfit s.mem hk
  · rw [withAudio_get_coefficient hn _ _ (by decide)]
    exact get_setBlock_getD _ _ hk
  · rw [hbyte a ha]
    exact (readByte_setBlock_of_not_inWords _ _ rfl ha2).trans (readByte_setBlock_of_not_inWords _ _ rfl ha1)

end

/-- The engine `d` with the configuration registers of `e` and cleared filters (R496). -/
def Demod.configuredAs (d e : Demod) : Demod :=
  { clearFilters d with
    actMod := e.actMod, actFs := e.actFs, actTau := e.actTau, r1 := e.r1, r2 := e.r2, t1 := e.t1, t2 := e.t2,
    fint := e.fint, faud := e.faud, c1 := e.c1, c2 := e.c2, deemphA := e.deemphA, valid := true }

/-- Only the active configuration of `e` counts. -/
theorem Demod.configuredAs_of_active {e : Demod} {mod : Word} {fs tau : F32} {d : Demod}
    (h : e.active = (rebuiltDemod mod fs tau d).active) : d.configuredAs e = rebuiltDemod mod fs tau d :=
  (congrArg d.configuredAs h :)

/-- Settles O14: the frame of every outcome, and the two outcomes of the rebuild. -/
theorem dmRunReconfigures : Obligations.DmRunReconfigures := by
  intro s n rest hp hn hs hchange
  obtain ⟨hexec, hstep⟩ := dmRun_completes hp hn hs
  have hneed : needsRebuild (latchDmRun n s.dm) s.dm = true := by
    simpa [needsRebuild, latchDmRun, or_assoc] using hchange
  obtain ⟨t, ht⟩ : ∃ t, finishDm (dmRunCompute (latchDmRun n s.dm) ((acceptDmRun n s).setSchedule rest)) = t := ⟨_, rfl⟩
  rw [ht] at hstep
  have haccepted := acceptDmRun_accepted n s rest
  obtain ⟨hdone, hpend, hmod, hfs, htau, htune, hvol, hpole, hflags, hsp, hspDone, hframe, hirq, hsched, hrdata⟩ :=
    dmRun_frame haccepted ht
  refine ⟨_, t, hexec, hstep, hdone, hpend, hmod, hfs, htau, htune, hvol, hpole, hflags, hsp, hspDone, hframe, hirq,
    hsched, hrdata, ?_⟩
  -- The statement's abbreviations by their names here, so that their record updates are compared once and not per field.
  intro start processed finished
  have hstart : start = dmRunStart (latchDmRun n s.dm) s.dm := rfl
  have hprocessed : processed = fun d h1 h2 =>
    processAll h1 h2 (dmRunTuned (latchDmRun n s.dm) d) (iqSamples s.mem .dmIq n) := rfl
  have hfinished : finished = Demod.completed := rfl
  clear_value start processed finished
  subst hstart hprocessed hfinished
  rcases hdesigns : rebuildDesigns s.dm.mod s.dm.fs s.dm.tau with reason | ⟨h1, h2⟩
  · obtain ⟨herror, hactive, hkept, hnone⟩ := dmRun_failed haccepted hneed hdesigns ht
    obtain ⟨hvalid, hactMod, hactFs, hactTau, hr1, hr2, ht1, ht2, hfint, hfaud, hc1, hc2, hdeemph⟩ :=
      Demod.registers_of_active hactive
    refine ⟨herror, hvalid, hactMod, hactFs, hactTau, hr1, hr2, ht1, ht2, hfint, hfaud, hc1, hc2, hdeemph, hkept,
      fun hv => ?_⟩
    obtain ⟨hdm, hram⟩ := hnone hv
    exact ⟨hdm, (congrArg Demod.audCount hdm :), (congrArg Demod.audPeak hdm :), hram⟩
  · obtain ⟨hfit, hlen1, hlen2, -⟩ := rebuildDesigns_ok hdesigns
    obtain ⟨herror, hactive, hh1, hh2, hleaves⟩ := dmRun_built hn haccepted hneed hdesigns ht
    have hderived := (rebuiltDemod_derived s.dm.tau (dmRunStart (latchDmRun n s.dm) s.dm) hfit).of_active hactive
    rw [← Demod.configuredAs_of_active hactive] at hleaves
    obtain ⟨hvalid, hactMod, hactFs, hactTau, -⟩ := Demod.registers_of_active hactive
    change t.dm.actMod = s.dm.mod at hactMod
    change t.dm.actFs = s.dm.fs at hactFs
    change t.dm.actTau = s.dm.tau at hactTau
    refine ⟨herror, hvalid, hactMod, hactFs, hactTau, hderived, ?_, ?_, hh1, hh2, ?_⟩
    · rw [hlen1, hderived.t1, hactMod, hactFs]
    · rw [hlen2, hderived.t2, hactMod]
    · rw [← hactMod, ← hactFs, ← hactTau]
      exact hleaves

end Sys2Proof.Machine
end

section
/-! The error record and the interrupt: what records an error (O28), what clears the record (O26), when the interrupt is 1
(O27); no error stops a step (O6). -/

namespace Sys2Proof.Machine

/-! ## Every step answers (R202, R600) -/

theorem exec_answers (i : Instr) (s : State) : ∃ t, exec i s = .next t := by
  obtain ⟨t, h, -⟩ := exec_schedule i s
  exact ⟨t, h⟩

theorem takeStep_answers (e : Event) (s : State) : ∃ t, takeStep e s = .next t := by
  obtain ⟨t, h, -⟩ := takeStep_schedule e s
  exact ⟨t, h⟩

theorem step_answers (s : State) : ∃ t, step s = .next t := by
  cases hs : s.schedule with
  | nil => exact ⟨drain s, step_unscheduled hs⟩
  | cons e rest =>
    rw [step_scheduled hs]
    exact takeStep_answers e (s.setSchedule rest)

/-- Settles O6: the agents' steps and the commands each answer, so the machine does, scheduled step or not. -/
theorem everyStepAnswersNext : Obligations.EveryStepAnswersNext :=
  ⟨step_answers, exec_answers, takeStep_answers⟩

/-! ## Recording an error (R602) -/

/-- Settles O28: the record, the frame and the second error of `raise`. -/
theorem firstErrorKept : Obligations.FirstErrorKept := fun c i s =>
  ⟨raise_errorRaised c i s, raise_onlyError c i s, fun d j => raise_raise s c d i j⟩

/-! ## Steps that clear no error (R603) -/

/-- The step leaves the error record or records an error in it: it does not clear one. -/
def KeepsOrRaises (s t : State) : Prop := SameError s t ∨ ∃ code info, ErrorRaised code info s t

theorem ErrorRaised.sameError {code : BitVec 8} {info : Word} {s t : State} (h : ErrorRaised code info s t)
    (hs : s.err = true) : SameError s t := by
  obtain ⟨herr, hcode, hinfo⟩ := h
  rw [if_pos hs] at hcode hinfo
  exact ⟨herr.trans hs.symm, hcode, hinfo⟩

/-- The first error stays (R602). -/
theorem KeepsOrRaises.sameError {s t : State} (h : KeepsOrRaises s t) (hs : s.err = true) : SameError s t := by
  rcases h with h | ⟨code, info, h⟩
  · exact h
  · exact h.sameError hs

theorem KeepsOrRaises.raise (s : State) (c : ErrCode) (info : Word) : KeepsOrRaises s (raise c info s) :=
  Or.inr ⟨_, _, raise_errorRaised c info s⟩

theorem KeepsOrRaises.of_eq {s t : State} (herr : t.err = s.err) (hcode : t.errCode = s.errCode)
    (hinfo : t.errInfo = s.errInfo) : KeepsOrRaises s t := Or.inl ⟨herr, hcode, hinfo⟩

theorem hostRead_keepsOrRaises (off : Offset) (s : State) : KeepsOrRaises s (hostRead off s) := by
  cases h : readOutcome off s with
  | ok v => exact Or.inl (hostRead_of_ok h).1
  | error c => exact Or.inr ⟨_, _, (hostRead_of_error h).1⟩

/-- Every command but `SOFT_RESET` leaves the record or is rejected with an error (R201). -/
theorem exec_keepsOrRaises {i : Instr} {s t : State} (hi : i ≠ .softReset) (h : exec i s = .next t) :
    KeepsOrRaises s t := by
  cases i with
  | softReset => exact absurd rfl hi
  | nop => cases h; exact .of_eq rfl rfl rfl
  | dmReset => cases h; exact .of_eq rfl rfl rfl
  | spReset => cases h; exact .of_eq rfl rfl rfl
  | dmRun n =>
    rcases exec_dmRun_cases n s with ⟨-, e⟩ | ⟨-, -, e⟩ | ⟨-, -, e⟩ <;> rw [e] at h <;> cases h
    · exact .raise s _ _
    · exact .raise s _ _
    · exact .of_eq rfl rfl rfl
  | spPrep =>
    rcases exec_spPrep_cases s with ⟨-, e⟩ | ⟨-, e⟩ <;> rw [e] at h <;> cases h
    · exact .raise s _ _
    · exact .of_eq rfl rfl rfl
  | spPost =>
    rcases exec_spPost_cases s with ⟨-, e⟩ | ⟨-, -, e⟩ | ⟨-, -, e⟩ <;> rw [e] at h <;> cases h
    · exact .raise s _ _
    · exact .raise s _ _
    · exact .of_eq rfl rfl rfl
  | spStats =>
    rcases exec_spStats_cases s with ⟨-, e⟩ | ⟨-, -, e⟩ | ⟨-, -, e⟩ <;> rw [e] at h <;> cases h
    · exact .raise s _ _
    · exact .raise s _ _
    · exact .of_eq rfl rfl rfl

/-- A completing `DM_RUN` leaves the record or records `BUILD_FAIL` (R491). -/
theorem completeDemod_keepsOrRaises (s : State) : KeepsOrRaises s (completeDemod s) := by
  cases hp : s.dm.pending with
  | none => rw [completeDemod_idle hp]; exact .of_eq rfl rfl rfl
  | some c =>
    rw [completeDemod_busy hp]
    rcases dmRunCompute_error c s with h | ⟨reason, h⟩
    · exact Or.inl h
    · exact Or.inr ⟨_, reason, h⟩

theorem completeSpec_keepsOrRaises (s : State) : KeepsOrRaises s (completeSpec s) := by
  obtain ⟨-, -, -, -, herror, -⟩ := completeSpec_frame s
  exact Or.inl herror

/-! ## The offset of `STATUS` (R35) -/

theorem mem_regMap_of_locate {off : Nat} {r : Reg} (h : locate off = some (.reg r)) : (off, r) ∈ regMap := by
  unfold locate at h
  split at h
  · cases hr : regMap.lookup off with
    | none => simp [hr] at h
    | some q =>
      simp only [hr, Option.map_some, Option.some.injEq, Target.reg.injEq] at h
      subst h
      obtain ⟨l, l', hmap, -⟩ := List.lookup_eq_some_iff.mp hr
      simp [hmap]
  · cases hf : Ram.all.find? (·.holds off) <;> simp [hf] at h

theorem offset_of_status {off : Offset} (h : locate off.toNat = some (.reg .status)) : off = 0x00C := by
  have honly : ∀ p ∈ regMap, p.2 = .status → p.1 = 0x00C := by decide
  exact BitVec.eq_of_toNat_eq (honly _ (mem_regMap_of_locate h) rfl)

/-! ## Writes of `STATUS` and of `IRQ_EN` (R35, R36, R603) -/

theorem takeStep_status (v : Word) (s : State) : takeStep (.write 0x00C v) s = .next (writeStatus v s) := rfl

theorem takeStep_irqEn (v : Word) (s : State) :
    takeStep (.write 0x010 v) s = .next (s.setIrqEn (v &&& irqMask)) := rfl

theorem writeStatus_done (v : Word) (s : State) :
    (writeStatus v s).dmDone = (s.dmDone && !v.getLsbD 4) ∧ (writeStatus v s).spDone = (s.spDone && !v.getLsbD 5) ∧
      (writeStatus v s).frameNew = (s.frameNew && !v.getLsbD 6) := by
  rcases writeStatus_eq v s with h | h <;> rw [h] <;> exact ⟨rfl, rfl, rfl⟩

theorem writeStatus_frame (v : Word) (s : State) :
    (writeStatus v s).dm = s.dm ∧ (writeStatus v s).sp = s.sp ∧ (writeStatus v s).mem = s.mem ∧
      SameHost s (writeStatus v s) := by
  rcases writeStatus_eq v s with h | h <;> rw [h] <;> exact ⟨rfl, rfl, rfl, rfl, rfl, rfl⟩

theorem writeStatus_clears {v : Word} (h : v.getLsbD 8 = true) (s : State) :
    (writeStatus v s).err = false ∧ (writeStatus v s).errCode = 0 ∧ (writeStatus v s).errInfo = 0 := by
  rw [show writeStatus v s = clearError _ from if_pos h]
  exact ⟨rfl, rfl, rfl⟩

theorem writeStatus_sameError {v : Word} (h : ¬ v.getLsbD 8 = true) (s : State) : SameError s (writeStatus v s) := by
  rw [show writeStatus v s = s.setDone _ _ _ from if_neg h]
  exact ⟨rfl, rfl, rfl⟩

/-- No place but `STATUS` has a write rule that touches the error record (R107). -/
theorem writeTarget_sameError {place : Target} (h : place ≠ .reg .status) (v : Word) (s : State) :
    SameError s (writeTarget place v s) := by
  cases place with
  | ram w a => exact ⟨rfl, rfl, rfl⟩
  | reg r =>
    cases r with
    | status => exact absurd rfl h
    | _ => exact ⟨rfl, rfl, rfl⟩

/-- A HOST write clears the record only at the offset of `STATUS`, with bit 8 set. -/
theorem hostWrite_keepsOrRaises {off : Offset} {v : Word} (h : ¬ (off = 0x00C ∧ v.getLsbD 8 = true)) (s : State) :
    KeepsOrRaises s (hostWrite off v s) := by
  rcases hostWrite_cases off v s with ⟨place, ho, e⟩ | ⟨c, -, e⟩ <;> rw [e]
  · obtain ⟨-, hl, -⟩ := writeOutcome_ok ho
    by_cases hplace : place = .reg .status
    · subst hplace
      exact Or.inl (writeStatus_sameError (fun hv => h ⟨offset_of_status hl, hv⟩) s)
    · exact Or.inl (writeTarget_sameError hplace v s)
  · exact .raise s c _

/-! ## What clears the record (R603) -/

/-- A step that is neither a reset nor a write of `STATUS` with bit 8 set clears no error. -/
theorem takeStep_keepsOrRaises {e : Event} {s t : State} (hreset : e ≠ .reset) (hsoft : e ≠ .write cmdOffset 0x00000001)
    (hstatus : ¬ ∃ v : Word, e = .write 0x00C v ∧ v.getLsbD 8 = true) (h : takeStep e s = .next t) :
    KeepsOrRaises s t := by
  rcases takeStep_cases h with ⟨off, -, rfl⟩ | ⟨off, v, rfl, -, rfl⟩ | ⟨w, x, -, -, rfl⟩ | ⟨w, i, rfl, hd, h⟩ |
    ⟨-, rfl⟩ | ⟨-, rfl⟩ | ⟨rfl, -⟩
  · exact hostRead_keepsOrRaises off s
  · exact hostWrite_keepsOrRaises (fun ⟨hoff, hv⟩ => hstatus ⟨v, by rw [hoff], hv⟩) s
  · exact .raise s .illegalCmd w
  · exact exec_keepsOrRaises (ne_softReset_of_decode hd fun hw => hsoft (by rw [hw])) h
  · exact completeDemod_keepsOrRaises s
  · exact completeSpec_keepsOrRaises s
  · exact absurd rfl hreset

/-- Settles O26: the effect of a write of `STATUS`, of a reset, and of every other step on a record that is set. -/
theorem statusWriteClears : Obligations.StatusWriteClears := by
  refine ⟨fun s v => ?_, fun s t h => ?_, fun e s t h hs => ?_⟩
  · obtain ⟨hdm, hsp, hframe⟩ := writeStatus_done v s
    refine ⟨writeStatus v s, takeStep_status v s, hdm, hsp, hframe, ?_, writeStatus_frame v s⟩
    split
    next hv => exact writeStatus_clears hv s
    next hv => exact writeStatus_sameError hv s
  · rw [takeStep_reset] at h
    cases h
    exact ⟨rfl, rfl, rfl⟩
  · by_cases hclear : e = .reset ∨ e = .write cmdOffset 0x00000001 ∨
        ∃ v : Word, e = .write 0x00C v ∧ v.getLsbD 8 = true
    · exact Or.inr hclear
    · obtain ⟨hreset, hrest⟩ := not_or.mp hclear
      obtain ⟨hsoft, hstatus⟩ := not_or.mp hrest
      exact Or.inl ((takeStep_keepsOrRaises hreset hsoft hstatus h).sameError hs)

/-! ## The interrupt (R610) -/

theorem getLsbD_bitAt (i : Nat) {j : Nat} (hj : j < 32) (b : Bool) :
    (bitAt i b).getLsbD j = (b && decide (i = j)) := by
  cases b with
  | false => exact BitVec.getLsbD_zero
  | true =>
    rw [show bitAt i true = BitVec.twoPow 32 i from rfl, BitVec.getLsbD_twoPow, Bool.true_and]
    by_cases hij : i = j <;> simp [hij, hj]

/-- The four interrupt sources as `STATUS` shows them (R35). -/
theorem statusWord_sources (s : State) :
    (statusWord s).getLsbD 4 = s.dmDone ∧ (statusWord s).getLsbD 5 = s.spDone ∧
      (statusWord s).getLsbD 6 = s.frameNew ∧ (statusWord s).getLsbD 8 = s.err := by
  simp [-BitVec.getLsbD_eq_getElem, statusWord, getLsbD_bitAt]

theorem irq_iff (s : State) :
    irq s = true ↔ ∃ i ∈ [4, 5, 6, 8], (statusWord s).getLsbD i = true ∧ s.irqEn.getLsbD i = true := by
  obtain ⟨hdm, hsp, hframe, herr⟩ := statusWord_sources s
  simp only [List.mem_cons, List.not_mem_nil, or_false, exists_eq_or_imp, exists_eq_left, hdm, hsp, hframe, herr]
  simp [irq, or_assoc]

/-- A source written as 1 is no longer pending (R610). -/
theorem writeStatus_source {i : Nat} (hi : i ∈ [4, 5, 6, 8]) {v : Word} (hv : v.getLsbD i = true) (s : State) :
    (statusWord (writeStatus v s)).getLsbD i = false := by
  obtain ⟨hdm, hsp, hframe, herr⟩ := statusWord_sources (writeStatus v s)
  obtain ⟨hdmDone, hspDone, hframeNew⟩ := writeStatus_done v s
  simp only [List.mem_cons, List.not_mem_nil, or_false] at hi
  rcases hi with rfl | rfl | rfl | rfl
  · rw [hdm, hdmDone, hv, Bool.not_true, Bool.and_false]
  · rw [hsp, hspDone, hv, Bool.not_true, Bool.and_false]
  · rw [hframe, hframeNew, hv, Bool.not_true, Bool.and_false]
  · rw [herr]
    obtain ⟨hcleared, -⟩ := writeStatus_clears hv s
    exact hcleared

/-- Settles O27: the level as an `↔`, and what the two writes do to it. -/
theorem interruptLevel : Obligations.InterruptLevel :=
  ⟨irq_iff, rfl,
    fun s v => ⟨writeStatus v s, takeStep_status v s, fun _ hi hv => writeStatus_source hi hv s⟩,
    fun s v => ⟨s.setIrqEn (v &&& irqMask), takeStep_irqEn v s, rfl, rfl, rfl, rfl, rfl, ⟨rfl, rfl, rfl⟩,
      ⟨rfl, rfl, rfl⟩, rfl, rfl⟩⟩

end Sys2Proof.Machine
end

section
/-! The invariant of the machine holds right after reset (O55), part by part. -/

namespace Sys2Proof.Machine

/-- A reset of the block that has just been reset changes nothing: no command is pending, so no RAM is drawn anew (R700). -/
theorem resetBlock_reset : resetBlock State.reset = State.reset := rfl

theorem State.reset_registersLegal : RegistersLegal State.reset :=
  resetBlock_reset ▸ resetBlock_registersLegal State.reset

theorem State.reset_enginesConsistent : EnginesConsistent State.reset :=
  (enginesConsistent_iff State.reset).mpr ⟨Demod.reset_consistent, Spec.reset_consistent⟩

/-- Phase and increment are `+0` after reset, which lies inside both ranges (R59, R320). -/
theorem State.reset_ncoInRange : NcoInRange State.reset := by
  have hphase : State.reset.dm.ncoPhase = posZero := rfl
  have hinc : State.reset.dm.ncoInc = posZero := rfl
  have habove : flt (fneg piF32) posZero = true := by decide
  have hlow : fle (fneg piF32) posZero = true := by decide
  have hhigh : fle posZero piF32 = true := by decide
  exact ⟨hphase ▸ habove, hphase ▸ hhigh, hinc ▸ hlow, hinc ▸ hhigh⟩

/-- Settles O55, one part of the invariant after another. -/
theorem invariantHoldsAtReset : Obligations.InvariantHoldsAtReset where
  memory := powerOn_wf
  registers := State.reset_registersLegal
  engines := State.reset_enginesConsistent
  nco := State.reset_ncoInRange

end Sys2Proof.Machine
end
